-- ==== Sys2Proof/Word.lean ====
section
/-! DEFINITION. The words that cross the core's ports (spec/30_encoding.md R50 to R53). -/

namespace Sys2Proof

/-- A command word, format CMD96 (R50). -/
abbrev CmdWord := BitVec 96

/-- A response word, format RSP72 (R51). -/
abbrev RspWord := BitVec 72

/-- A sink event word, format SINK66 (R52). -/
abbrev SinkWord := BitVec 66

/-- A row event word, format ROW18 (R53). -/
abbrev RowWord := BitVec 18

/-- One byte of a word written out as bytes (spec/20_memory.md R38). -/
abbrev Byte := BitVec 8

end Sys2Proof
end

