-- ==== Sys2Proof/Syntax.lean ====
section
/-! DEFINITION. The commands of the core as syntax: one constructor per row of spec/opcode_table.json
(spec/30_encoding.md R54, R56). -/

namespace Sys2Proof

/-- The two command ports (spec/20_memory.md R31). -/
inductive Port where
  /-- HCMD, answered on HRSP: the host's commands. -/
  | hcmd
  /-- SCMD, answered on SRSP: the mode strategy's commands. -/
  | scmd
  deriving DecidableEq, Repr, Inhabited

/-- A command with its operands (R54): an operand is the raw field of the word, unshifted. -/
inductive Instr where
  /-- CREATE; `a` is the VIS code as an unsigned 32-bit integer. -/
  | create (a : BitVec 32)
  /-- INIT. -/
  | init
  /-- PROCESS. -/
  | process
  /-- GETCOUNT. -/
  | getcount
  /-- GETTOTAL. -/
  | gettotal
  /-- FINISH; `cancel` is the C bit. -/
  | finish (cancel : Bool)
  /-- RDREG; `a` is the register number as an unsigned 32-bit integer. -/
  | rdreg (a : BitVec 32)
  /-- FREQOF; `a` is the whole A field, whose bits 31:8 a well-formed command has 0. -/
  | freqof (a : BitVec 32)
  /-- TONE1; `freq` is UQ16.16 Hz. -/
  | tone1 (freq : BitVec 32)
  /-- TONE; `freq` is UQ16.16 Hz, `dur` UQ16.16 ms. -/
  | tone (freq dur : BitVec 32)
  /-- ROWDONE. -/
  | rowdone
  deriving DecidableEq, Repr

end Sys2Proof
end

