-- ==== Sys2Proof/WellFormed.lean ====
section
/-! DEFINITION. Which terms of `Instr` are commands: the ones some word encodes (spec/30_encoding.md R54, R56). -/

namespace Sys2Proof

/-- FREQOF's A field holds a channel value 0 to 255: "bits 31:8 must be 0" (R54).
Every other operand field of `Instr` is free: a VIS code above 127 and a register number above 8 decode, and fail later (R57). -/
def Instr.wf : Instr → Bool
  | .freqof a => a.toNat ≤ 255
  | .create _ => true
  | .init => true
  | .process => true
  | .getcount => true
  | .gettotal => true
  | .finish _ => true
  | .rdreg _ => true
  | .tone1 _ => true
  | .tone _ _ => true
  | .rowdone => true

end Sys2Proof
end

