-- ==== Sys2Proof/Decode.lean ====
section
/-! DEFINITION. Decoding a command word (spec/30_encoding.md R50, R54, R56 to R58), then the encoder, the opcode map
as the spec's table writes it, the port rights, and the byte form (spec/20_memory.md R38). -/

namespace Sys2Proof

/-! ## The fields of CMD96 (R50) -/

/-- OP, bits 95:88. -/
def opField (w : CmdWord) : BitVec 8 := w.extractLsb' 88 8

/-- RSV, bits 87:65. -/
def rsvField (w : CmdWord) : BitVec 23 := w.extractLsb' 65 23

/-- C, bit 64. -/
def cField (w : CmdWord) : Bool := w.getLsbD 64

/-- A, bits 63:32. -/
def aField (w : CmdWord) : BitVec 32 := w.extractLsb' 32 32

/-- B, bits 31:0. -/
def bField (w : CmdWord) : BitVec 32 := w.extractLsb' 0 32

/-! ## Decoding -/

/-- Why a word is no command (R58); every one of them is answered ILLEGAL_COMMAND. -/
inductive DecodeError where
  /-- An OP value other than the eleven listed. -/
  | unknownOpcode
  /-- A nonzero RSV bit. -/
  | reservedBits
  /-- C = 1 in a command other than FINISH. -/
  | cancelBit
  /-- A nonzero operand A where A must be 0. -/
  | operandA
  /-- FREQOF with A above 255. -/
  | channelTooLarge
  /-- A nonzero operand B where B must be 0. -/
  | operandB
  /-- A byte string that is shorter than one command word (R50, R60: every command is 12 bytes). -/
  | tooShort
  deriving DecidableEq, Repr

/-- `i`, provided every listed field that must be zero is zero: each check names its error. -/
def requireZero (checks : List (Bool × DecodeError)) (i : Instr) : Except DecodeError Instr :=
  match checks with
  | [] => .ok i
  | (zero, e) :: rest => if zero then requireZero rest i else .error e

/-- The command of a word, or why it is none (R54, R56, R58). Total on every 96-bit word. -/
def decode (w : CmdWord) : Except DecodeError Instr :=
  let op := opField w
  let a := aField w
  let b := bField w
  let rsv0 := (rsvField w == 0, DecodeError.reservedBits)
  let c0 := (!cField w, DecodeError.cancelBit)
  let a0 := (a == 0, DecodeError.operandA)
  let b0 := (b == 0, DecodeError.operandB)
  if op = 0x01 then requireZero [rsv0, c0, b0] (.create a)
  else if op = 0x02 then requireZero [rsv0, c0, a0, b0] .init
  else if op = 0x03 then requireZero [rsv0, c0, a0, b0] .process
  else if op = 0x04 then requireZero [rsv0, c0, a0, b0] .getcount
  else if op = 0x05 then requireZero [rsv0, c0, a0, b0] .gettotal
  else if op = 0x06 then requireZero [rsv0, a0, b0] (.finish (cField w))
  else if op = 0x07 then requireZero [rsv0, c0, b0] (.rdreg a)
  else if op = 0x08 then
    requireZero [rsv0, c0, (decide (a.toNat ≤ 255), .channelTooLarge), b0] (.freqof a)
  else if op = 0x10 then requireZero [rsv0, c0, b0] (.tone1 a)
  else if op = 0x11 then requireZero [rsv0, c0] (.tone a b)
  else if op = 0x1F then requireZero [rsv0, c0, a0, b0] .rowdone
  else .error .unknownOpcode

/-! ## Encoding -/

/-- A CMD96 word from its fields, RSV = 0 (R50). -/
def packCmd (op : BitVec 8) (c : Bool) (a b : BitVec 32) : CmdWord :=
  op ++ (0 : BitVec 23) ++ BitVec.ofBool c ++ a ++ b

/-- OP of each command (R56). -/
def Instr.opcode : Instr → BitVec 8
  | .create _ => 0x01
  | .init => 0x02
  | .process => 0x03
  | .getcount => 0x04
  | .gettotal => 0x05
  | .finish _ => 0x06
  | .rdreg _ => 0x07
  | .freqof _ => 0x08
  | .tone1 _ => 0x10
  | .tone _ _ => 0x11
  | .rowdone => 0x1F

/-- The word of a command (R50, R54, R56). -/
def encode (i : Instr) : CmdWord :=
  match i with
  | .create a => packCmd i.opcode false a 0
  | .init => packCmd i.opcode false 0 0
  | .process => packCmd i.opcode false 0 0
  | .getcount => packCmd i.opcode false 0 0
  | .gettotal => packCmd i.opcode false 0 0
  | .finish c => packCmd i.opcode c 0 0
  | .rdreg a => packCmd i.opcode false a 0
  | .freqof a => packCmd i.opcode false a 0
  | .tone1 f => packCmd i.opcode false f 0
  | .tone f d => packCmd i.opcode false f d
  | .rowdone => packCmd i.opcode false 0 0

/-! ## The opcode map as the spec's table writes it (R56), and the port rights (R59) -/

/-- One row of R56's table. -/
structure OpRow where
  mtch : CmdWord
  mask : CmdWord
  ports : List Port
  deriving DecidableEq, Repr

/-- R56's row of a command: its match, its mask and the ports that accept it. -/
def Instr.row : Instr → OpRow
  | .create _ => ⟨0x010000000000000000000000, 0xFFFFFFFF00000000FFFFFFFF, [.hcmd]⟩
  | .init => ⟨0x020000000000000000000000, 0xFFFFFFFFFFFFFFFFFFFFFFFF, [.hcmd]⟩
  | .process => ⟨0x030000000000000000000000, 0xFFFFFFFFFFFFFFFFFFFFFFFF, [.hcmd]⟩
  | .getcount => ⟨0x040000000000000000000000, 0xFFFFFFFFFFFFFFFFFFFFFFFF, [.hcmd]⟩
  | .gettotal => ⟨0x050000000000000000000000, 0xFFFFFFFFFFFFFFFFFFFFFFFF, [.hcmd]⟩
  | .finish _ => ⟨0x060000000000000000000000, 0xFFFFFFFEFFFFFFFFFFFFFFFF, [.hcmd]⟩
  | .rdreg _ => ⟨0x070000000000000000000000, 0xFFFFFFFF00000000FFFFFFFF, [.hcmd, .scmd]⟩
  | .freqof _ => ⟨0x080000000000000000000000, 0xFFFFFFFFFFFFFF00FFFFFFFF, [.hcmd, .scmd]⟩
  | .tone1 _ => ⟨0x100000000000000000000000, 0xFFFFFFFF00000000FFFFFFFF, [.scmd]⟩
  | .tone _ _ => ⟨0x110000000000000000000000, 0xFFFFFFFF0000000000000000, [.scmd]⟩
  | .rowdone => ⟨0x1F0000000000000000000000, 0xFFFFFFFFFFFFFFFFFFFFFFFF, [.scmd]⟩

/-- One command of each row, in the table's order; an operand the row leaves free is 0. -/
def rowSamples : List Instr :=
  [.create 0, .init, .process, .getcount, .gettotal, .finish false, .rdreg 0, .freqof 0, .tone1 0, .tone 0 0, .rowdone]

/-- The rows of R56, in the table's order. -/
def opcodeTable : List OpRow := rowSamples.map Instr.row

/-- The ports that accept a command (R59). -/
def Instr.ports (i : Instr) : List Port := i.row.ports

/-! ## A word as bytes (spec/20_memory.md R38): most significant byte first, 12 bytes -/

/-- The `n` bytes of a word, most significant first. -/
def bytesOf : (n : Nat) → CmdWord → List Byte
  | 0, _ => []
  | n + 1, w => w.extractLsb' (8 * n) 8 :: bytesOf n w

/-- The word that a list of bytes writes, most significant first. -/
def ofBytes (bs : List Byte) : CmdWord :=
  bs.foldl (fun w b => (w <<< 8) ||| b.setWidth 96) 0

/-- A command as 12 bytes. -/
def encodeBytes (i : Instr) : List Byte := bytesOf 12 (encode i)

/-- The command at the front of a byte string, with the bytes after it. -/
def decodeBytes (bs : List Byte) : Except DecodeError (Instr × List Byte) :=
  if bs.length < 12 then .error .tooShort
  else (decode (ofBytes (bs.take 12))).map fun i => (i, bs.drop 12)

/-! ## The word of an opcode-table row, as the host numbers its bits -/

/-- The command word whose low `nbits` bits are those of `w`, every bit above them 0, or none if `w` or `nbits` does not
fit one command word. A command is ONE word (R50, R60), so the table's bit numbers are the word's own (R7). -/
def tableWord (nbits w : Nat) : Option CmdWord :=
  if nbits ≤ 96 ∧ w < 2 ^ nbits then some (BitVec.ofNat 96 w) else none

/-- What the decoder reads from an instruction whose bits are `w`. -/
def decodeTableWord (nbits w : Nat) : Option Instr :=
  match tableWord nbits w with
  | none => none
  | some word =>
    match decode word with
    | .ok i => some i
    | .error _ => none

end Sys2Proof
end

