-- ==== Sys2Proof/Machine/Operands.lean ====
section
/-! DEFINITION. What the operand fields mean and the arithmetic on them: rounding (spec/00_scope.md R7), the literal
helpers (spec/30_encoding.md R66), NSAMP, RES and FTW (spec/40_oscillator.md R70 to R72), FREQOF's value
(spec/43_mapper_debug.md R120) and the operand checks of decoding step 3 (spec/30_encoding.md R57). -/

namespace Sys2Proof.Machine

open Sys2Proof

/-- `rhu(n, d)`: `n / d` rounded to the nearest integer, ties up (R7), for `d > 0`.
The literal `d` stands first in the sum, so that no proof unfolds it into successors. -/
def rhu (n d : Nat) : Nat := (d + 2 * n) / (2 * d)

/-- TAIL_DEN: tail units in one sample (spec/00_scope.md R6). -/
def tailDen : Nat := 65536000

/-- AMP: the sample value that stands for +1.0 (R6). -/
def amp : Nat := 32767

/-- `hz(f)` for the decimal `f = n / d`: the UQ16.16 field of a frequency (R66). -/
def hz (n : Nat) (d : Nat := 1) : Nat := rhu (n * 65536) d

/-- `ms(t)` for the decimal `t = n / d`: the UQ16.16 field of a duration (R66). -/
def ms (n : Nat) (d : Nat := 1) : Nat := rhu (n * 65536) d

/-- NSAMP: the number of samples of a duration field at a sample rate (R70). -/
def nsamp (dur : BitVec 32) (sr : BitVec 24) : Nat := rhu (dur.toNat * sr.toNat) tailDen

/-- RES: the rounding residual of a segment, in tail units (R71). -/
def res (dur : BitVec 32) (sr : BitVec 24) : Int :=
  (dur.toNat * sr.toNat : Nat) - (nsamp dur sr * tailDen : Nat)

/-- FTW: the frequency tuning word (R72), for `sr > 0`. -/
def ftw (freq : BitVec 32) (sr : BitVec 24) : BitVec 32 :=
  BitVec.ofNat 32 (rhu (freq.toNat * 65536) sr.toNat)

/-- FREQOF's result for a channel value: UQ16.16 Hz (R120). -/
def freqOf (c : Nat) : Nat := rhu (c * 52428800) 255 + 98304000

/-- An operand value that makes the command illegal whatever the state: RDREG above 8 (R57 step 3) and FREQOF above 255 (R58,
R120; no word decodes to it). -/
def badOperand : Instr → Bool
  | .rdreg a => 8 < a.toNat
  | .freqof a => 255 < a.toNat
  | .create _ => false
  | .init => false
  | .process => false
  | .getcount => false
  | .gettotal => false
  | .finish _ => false
  | .tone1 _ => false
  | .tone _ _ => false
  | .rowdone => false

end Sys2Proof.Machine
end

