-- ==== Sys2Proof/Config.lean ====
section
/-! DEFINITION. What the spec leaves to the implementation: the one free value of this hardware. -/

namespace Sys2Proof

/-- The command port the core serves first, at the `n`-th time both present a command while none is in progress.
FREE VALUE (assumption log 9): spec/20_memory.md R32 item 5 and spec/93_implementation_defined.md U1 do not define it
("any value"), so it has no body and no claim can rest on it. -/
opaque Config.firstPort : Nat → Port

end Sys2Proof
end

