-- ==== Sys2Proof/Machine/State.lean ====
section
/-! DEFINITION. Everything the spec gives the core, as plain data (spec/10_state.md), with the inputs its agents present
(spec/20_memory.md R31), the reasons a step can stop, and the machine after reset (spec/10_state.md R25). -/

namespace Sys2Proof.Machine

open Sys2Proof

/-- SSTATE (spec/10_state.md R17). Code 3 is "reserved, never produced", so it has no constructor (assumption log 16). -/
inductive SState where
  /-- 0: no session exists. -/
  | idle
  /-- 1: session constructed, not initialised. -/
  | created
  /-- 2: initialised; rows may be pulled. -/
  | active
  deriving DecidableEq, Repr

/-- The command that is in progress and waits for the sink's answer (spec/20_memory.md R33, spec/10_state.md R23).
A PROCESS with its row open is in progress exactly while ROWBUSY = 1 and has no entry of its own (R16). -/
inductive Wait where
  /-- No command waits for the sink. -/
  | none
  /-- INIT, waiting for the answer to SINK_INIT. -/
  | sinkInit
  /-- INIT, waiting for the answer to a SINK_WRITE of header segment HSTEP. -/
  | header
  /-- TONE1, waiting for the answer to its SINK_WRITE. -/
  | tone1
  /-- TONE of `n` samples, waiting for the answer to one of its SINK_WRITE events; SEGCNT are still to emit. -/
  | tone (n : BitVec 32)
  deriving DecidableEq, Repr

/-- The sink's answer to SINK_INIT or SINK_WRITE (spec/20_memory.md R33). -/
inductive Answer where
  | ack
  | fail
  deriving DecidableEq, Repr

/-- The result codes of a response (spec/30_encoding.md R55). -/
inductive RC where
  /-- 0x00. -/
  | ok
  /-- 0x01. -/
  | invalidConfiguration
  /-- 0x02. -/
  | sinkFailure
  /-- 0x03. -/
  | illegalCommand
  /-- 0x04. -/
  | illegalState
  deriving DecidableEq, Repr

/-- One event of the output trace (spec/20_memory.md R40). -/
inductive Event where
  /-- A response on HRSP. -/
  | hrsp (rc : RC) (val : BitVec 64)
  /-- A response on SRSP. -/
  | srsp (rc : RC) (val : BitVec 64)
  /-- ROW_REQ on the row port. -/
  | rowReq (row : BitVec 16)
  /-- ROW_ABORT on the row port. -/
  | rowAbort
  /-- SINK_INIT with the total sample count. -/
  | sinkInit (total : BitVec 33)
  /-- SINK_WRITE with one sample, two's complement. -/
  | sinkWrite (sample : BitVec 16)
  /-- SINK_FINISH with the cancelled flag. -/
  | sinkFinish (cancelled : Bool)
  /-- IMG_RELEASE on the image port. -/
  | imgRelease
  deriving DecidableEq, Repr

/-- The state of the core and the inputs presented to it. -/
structure State where
  /-- SSTATE (R17). -/
  sstate : SState
  /-- ROWBUSY (R16). -/
  rowbusy : Bool
  /-- SRATE, register 1: integer Hz (R18). -/
  srate : BitVec 24
  /-- VIS, register 2 (R19). -/
  vis : BitVec 7
  /-- HEIGHT, register 3 (R20). -/
  height : BitVec 16
  /-- ROW, register 4 (R15). -/
  row : BitVec 16
  /-- PHASE, register 5: a fraction of a turn (R11). -/
  phase : BitVec 32
  /-- TAIL, register 6: two's complement, in 1/65536000 sample (R12). -/
  tail : BitVec 64
  /-- TXCOUNT, register 7 (R21). -/
  txcount : BitVec 32
  /-- TOTAL, register 8 (R21). -/
  total : BitVec 33
  /-- HSTEP: the header segment being emitted (R23, spec/41_vis_header.md R96). -/
  hstep : BitVec 4
  /-- PAR: running parity of the VIS bits sent (R23). -/
  par : Bool
  /-- SEGCNT: samples of the segment still to emit (R23). -/
  segcnt : BitVec 32
  /-- SEGFTW: tuning word of the segment (R23). -/
  segftw : BitVec 32
  /-- The port the command being executed arrived on (spec/30_encoding.md R57). -/
  port : Port
  /-- The command that waits for the sink's answer. -/
  wait : Wait
  /-- The port whose command is taken next, after the other port's when both presented one (spec/20_memory.md R32 item 5). -/
  owed : Option Port
  /-- OUT: the output trace, oldest event first (spec/20_memory.md R40). -/
  out : List Event
  /-- RESET, asserted or not (spec/70_reset_and_hazards.md R150). -/
  pinReset : Bool
  /-- Pin SINK_SRATE (R22). -/
  pinSinkSrate : BitVec 24
  /-- Pin IMG_HEIGHT (R22). -/
  pinImgHeight : BitVec 16
  /-- Pin STRAT_TXCOUNT (R22). -/
  pinStratTxcount : BitVec 32
  /-- The words the host presents on HCMD, the next one first (spec/20_memory.md R31, R32). -/
  hcmd : List CmdWord
  /-- The words the strategy presents on SCMD, the next one first. -/
  scmd : List CmdWord
  /-- The sink's answers to the sink events to come, in order; none left: the sink has not answered (R33). -/
  sinkAnswers : List Answer
  /-- The strategy's command list for each row index (spec/42_line_fsm.md R111 item 1). -/
  rowScript : List (List CmdWord)
  /-- How many arbitration draws were taken: the MODEL's own field (assumption log 9). -/
  draws : Nat
  deriving DecidableEq, Repr

/-- Why the machine stops with a fault. -/
inductive Fault where
  /-- Raised by INIT, TONE1 and TONE, and by the rest of an INIT, when SRATE = 0 would be a divisor.
  SAFE: no run reaches it (spec/40_oscillator.md R79: "the divisor is never zero"); the spec gives such a state no meaning
  (assumption log 12). -/
  | zeroSampleRate
  deriving DecidableEq, Repr

/-- Why the machine has no meaning for an instruction. -/
inductive Refusal where
  /-- Raised by `exec` alone, for a command without a meaning. SAFE: the machine stops. Every command has a meaning, so nothing
  raises it. -/
  | notModelled (mnemonic : String)
  deriving DecidableEq, Repr

/-- The machine right after RESET, with nothing presented to it (spec/10_state.md R25). SSTATE, ROWBUSY, the absence of a command
in progress and the empty trace are R25's; the other registers are "unspecified; unobservable" and hold the DESIGN CHOICE 0
(assumption log 1 and 2), and the inputs are the model's choice (assumption log 4, 5, 7, 8 and 10). -/
def State.reset : State where
  sstate := .idle
  rowbusy := false
  srate := 0
  vis := 0
  height := 0
  row := 0
  phase := 0
  tail := 0
  txcount := 0
  total := 0
  hstep := 0
  par := false
  segcnt := 0
  segftw := 0
  port := .hcmd
  wait := .none
  owed := none
  out := []
  pinReset := false
  pinSinkSrate := 0
  pinImgHeight := 0
  pinStratTxcount := 0
  hcmd := []
  scmd := []
  sinkAnswers := []
  rowScript := []
  draws := 0

end Sys2Proof.Machine
end

