-- ==== Sys2Proof/Machine/Flags.lean ====
section
/-! DEFINITION. The flags and the control state: STATUS (spec/10_state.md R17), and the state condition of every command
(spec/42_line_fsm.md R101). No command sets an arithmetic flag (spec/10_state.md R16). -/

namespace Sys2Proof.Machine

open Sys2Proof

/-- The code of SSTATE in STATUS bits 1:0 (R17). -/
def SState.code : SState → BitVec 2
  | .idle => 0
  | .created => 1
  | .active => 2

/-- STATUS: `zext_64({x[ROWBUSY], x[SSTATE]})` (R17, spec/20_memory.md R36). -/
def statusWord (s : State) : BitVec 64 := (BitVec.ofBool s.rowbusy ++ s.sstate.code).setWidth 64

/-- Whether the present state accepts a command: the "ok" cells of R101's table, as the pseudocode of each command's rule tests
them. A "blocked" cell is not a matter of this test: no such command is accepted from its port (spec/20_memory.md R32). -/
def stateAllows (i : Instr) (s : State) : Bool :=
  match i with
  | .create _ => s.sstate = .idle
  | .init => s.sstate = .created
  | .process => s.sstate = .active
  | .getcount => s.sstate ≠ .idle
  | .gettotal => s.sstate = .active
  | .finish _ => s.sstate ≠ .idle
  | .rdreg a => a = 0 ∨ s.sstate ≠ .idle
  | .freqof _ => true
  | .tone1 _ => s.rowbusy
  | .tone _ _ => s.rowbusy
  | .rowdone => s.rowbusy

end Sys2Proof.Machine
end

