-- ==== Sys2Proof/Machine/Ops.lean ====
section
/-! DEFINITION. The named operations every meaning is built from: emitting an event and a response, raising an error (the
core's only exceptions, spec/60_exceptions.md), an event answered by the sink (spec/20_memory.md R33), admitting a command
(spec/30_encoding.md R57), accepting a command from a port (spec/20_memory.md R32), and RESET (spec/70_reset_and_hazards.md). -/

namespace Sys2Proof.Machine

open Sys2Proof

/-- What a meaning answers. -/
abbrev Result := Host.Outcome State Fault Refusal

/-! ## Events and responses -/

/-- `emit`: append one event to OUT (R40). -/
def State.emit (s : State) (e : Event) : State := { s with out := s.out ++ [e] }

/-- The response event of a command that arrived on port `p` (spec/30_encoding.md R51). -/
def rspEvent (p : Port) (rc : RC) (val : BitVec 64) : Event :=
  match p with
  | .hcmd => .hrsp rc val
  | .scmd => .srsp rc val

/-- `respond(PORT, RC, VAL)` on the response port paired with `p` (spec/00_scope.md R7). -/
def State.respond (s : State) (p : Port) (rc : RC) (val : BitVec 64) : State :=
  s.emit (rspEvent p rc val)

/-! ## Errors (spec/60_exceptions.md) -/

/-- The four errors (R130). -/
inductive Error where
  | invalidConfiguration
  | sinkFailure
  | illegalCommand
  | illegalState
  deriving DecidableEq, Repr

/-- The code an error is reported with (R130). -/
def Error.rc : Error → RC
  | .invalidConfiguration => .invalidConfiguration
  | .sinkFailure => .sinkFailure
  | .illegalCommand => .illegalCommand
  | .illegalState => .illegalState

/-- SinkAbort's first part: answer the tone of an open row and abandon the row (R132). -/
def abortRow (s : State) : State :=
  if s.rowbusy then { s.respond .scmd .sinkFailure 0 with rowbusy := false }.emit .rowAbort else s

/-- The session's end that FINISH and the abort share: notify the sink, release the image, go to IDLE (R109, R132). -/
def endSession (cancelled : Bool) (s : State) : State :=
  { (s.emit (.sinkFinish cancelled)).emit .imgRelease with sstate := .idle }

/-- SinkAbort (R132). -/
def sinkAbort (s : State) : State :=
  (endSession true (abortRow s)).respond .hcmd .sinkFailure 0

/-- `raise`: end the command in progress with an error (spec/00_scope.md R7). Nothing is saved and control goes nowhere (R137);
the core then waits for the next command, so there is no return from an error (R138). -/
def raise (e : Error) (s : State) : State :=
  match e with
  | .sinkFailure => sinkAbort s
  | .invalidConfiguration => s.respond s.port .invalidConfiguration 0
  | .illegalCommand => s.respond s.port .illegalCommand 0
  | .illegalState => s.respond s.port .illegalState 0

/-! ## Events the sink answers (spec/20_memory.md R33) -/

/-- How an operation that emits sink events ends. -/
inductive SinkRun where
  /-- Every event so far was answered ACK. -/
  | done (s : State)
  /-- An event was answered FAIL: SinkFailure is to be raised. -/
  | failed (s : State)
  /-- The last event has no answer yet: the core waits. -/
  | waiting (s : State)

/-- Go on after ACK. -/
def SinkRun.andThen (r : SinkRun) (k : State → SinkRun) : SinkRun :=
  match r with
  | .done s => k s
  | .failed s => .failed s
  | .waiting s => .waiting s

/-- Note which command waits for the sink. -/
def State.setWait (s : State) (w : Wait) : State := { s with wait := w }

/-- Name the command that waits, if it waits. -/
def SinkRun.mark (r : SinkRun) (w : Wait) : SinkRun :=
  match r with
  | .done s => .done s
  | .failed s => .failed s
  | .waiting s => .waiting (s.setWait w)

/-- Take the sink's answer to the event emitted last. -/
def takeAnswer (s : State) : SinkRun :=
  match s.sinkAnswers with
  | [] => .waiting s
  | .ack :: rest => .done { s with sinkAnswers := rest }
  | .fail :: rest => .failed { s with sinkAnswers := rest }

/-- `ans <- sink(KIND, payload)`: emit a sink event and take its answer (spec/00_scope.md R7). -/
def sinkEvent (e : Event) (s : State) : SinkRun := takeAnswer (s.emit e)

/-- End a command that emits sink events: `finish` gives its response after the last ACK; FAIL raises SinkFailure; with no answer
the command stays in progress. -/
def SinkRun.settle (r : SinkRun) (finish : State → State) : Result :=
  match r with
  | .done s => .next (finish s)
  | .failed s => .next (raise .sinkFailure s)
  | .waiting s => .next s

/-- Run `body` only if SRATE can be a divisor (spec/40_oscillator.md R79; assumption log 12). -/
def withRate (s : State) (body : State → Result) : Result :=
  if s.srate = 0 then .fault .zeroSampleRate else body s

/-! ## Admitting a decoded command (spec/30_encoding.md R57 steps 2 to 4) -/

/-- Check the port, then the operand of RDREG and FREQOF, then the state; run `body` if all hold. The first check that fails is
the error reported (spec/60_exceptions.md R136). -/
def whenAllowed (i : Instr) (s : State) (body : State → Result) : Result :=
  if s.port ∉ i.ports then .next (raise .illegalCommand s)
  else if badOperand i then .next (raise .illegalCommand s)
  else if stateAllows i s then body s
  else .next (raise .illegalState s)

/-! ## RESET (spec/70_reset_and_hazards.md R150, R151) -/

/-- The core after RESET: R25's state, with the inputs as the agents present them (assumption log 10). -/
def applyReset (s : State) : State :=
  { State.reset with
    pinReset := s.pinReset
    pinSinkSrate := s.pinSinkSrate
    pinImgHeight := s.pinImgHeight
    pinStratTxcount := s.pinStratTxcount
    hcmd := s.hcmd
    scmd := s.scmd
    sinkAnswers := s.sinkAnswers
    rowScript := s.rowScript
    draws := s.draws }

/-! ## Accepting a command from a port (spec/20_memory.md R32) -/

/-- Accept the next word of a command port, if it presents one; the sender no longer holds it (item 6). -/
def acceptFrom (p : Port) (s : State) : Option (CmdWord × State) :=
  match p with
  | .hcmd =>
    match s.hcmd with
    | [] => none
    | w :: rest => some (w, { s with hcmd := rest, port := .hcmd, owed := none })
  | .scmd =>
    match s.scmd with
    | [] => none
    | w :: rest => some (w, { s with scmd := rest, port := .scmd, owed := none })

/-- The other command port. -/
def otherPort : Port → Port
  | .hcmd => .scmd
  | .scmd => .hcmd

/-- Both ports present a command and none is in progress (item 5): the core takes one, the free value says which (assumption log 9),
and owes the other port the next turn. -/
def acceptDrawn (s : State) : Option (CmdWord × State) :=
  let p := Config.firstPort s.draws
  (acceptFrom p s).map fun r => (r.1, { r.2 with draws := s.draws + 1, owed := some (otherPort p) })

/-- Accept the next command, when none waits for the sink. With a row open only SCMD is served (items 2(a) and 3). With no command in
progress the port that presents one is served. If both do, the port owed a turn is served, or one is drawn (item 5: "the core takes
one, executes it to completion, then takes the other"). -/
def accept (s : State) : Option (CmdWord × State) :=
  if s.rowbusy then acceptFrom .scmd s
  else if s.hcmd = [] then acceptFrom .scmd s
  else if s.scmd = [] then acceptFrom .hcmd s
  else
    match s.owed with
    | some p => acceptFrom p s
    | none => acceptDrawn s

/-- What the core does next. -/
inductive Move where
  /-- It is in `s` after this step: RESET, waiting, or an illegal word answered. -/
  | settled (s : State)
  /-- It takes the sink's answer and goes on with the command in progress. -/
  | resume
  /-- It executes `i`, accepted into `s`. -/
  | run (i : Instr) (s : State)
  deriving DecidableEq, Repr

/-- The core's next move. While RESET is asserted it stays in the reset state (R150). A command that waits for the sink goes on when
an answer is there and waits otherwise (R33, R158). Otherwise a presented command is accepted and decoded (R57 step 1); with none,
the core waits and every register keeps its value (spec/60_exceptions.md R144). -/
def nextMove (s : State) : Move :=
  if s.pinReset then .settled (applyReset s)
  else if s.wait ≠ .none then
    if s.sinkAnswers = [] then .settled s else .resume
  else
    match accept s with
    | none => .settled s
    | some (w, t) =>
      match decode w with
      | .ok i => .run i t
      | .error _ => .settled (raise .illegalCommand t)

/-! ## Presenting one command so that the next step runs it (assumption log 6) -/

/-- The port `word` is presented on: SCMD while a row is open or when only SCMD accepts it, else HCMD. -/
def presentPort (s : State) (word : CmdWord) : Port :=
  if s.rowbusy then .scmd
  else
    match decode word with
    | .ok i => if .hcmd ∈ i.ports then .hcmd else .scmd
    | .error _ => .hcmd

/-- `s` with `word` presented alone, and nothing in the way of its acceptance: RESET released and no command waiting for the sink. -/
def present (s : State) (word : CmdWord) : State :=
  match presentPort s word with
  | .hcmd => { s with pinReset := false, wait := .none, hcmd := [word], scmd := [] }
  | .scmd => { s with pinReset := false, wait := .none, hcmd := [], scmd := [word] }

end Sys2Proof.Machine
end

