-- ==== Sys2Proof/Machine/Mapper.lean ====
section
/-! DEFINITION. The colour mapper FREQOF and the debug read RDREG (spec/43_mapper_debug.md), with the debug register space
(spec/20_memory.md R36). -/

namespace Sys2Proof.Machine

open Sys2Proof

/-- `MemRead(n, 8)`: the 64-bit word of register number `n`, or the error it raises (spec/20_memory.md R36). -/
def memRead (n : Nat) (s : State) : Except Error (BitVec 64) :=
  if n = 0 then .ok (statusWord s)
  else if 8 < n then .error .illegalCommand
  else if s.sstate = .idle then .error .illegalState
  else if n = 1 then .ok (s.srate.setWidth 64)
  else if n = 2 then .ok (s.vis.setWidth 64)
  else if n = 3 then .ok (s.height.setWidth 64)
  else if n = 4 then .ok (s.row.setWidth 64)
  else if n = 5 then .ok (s.phase.setWidth 64)
  else if n = 6 then .ok s.tail
  else if n = 7 then .ok (s.txcount.setWidth 64)
  else .ok (s.total.setWidth 64)

/-- RDREG (R122). -/
def execRdreg (a : BitVec 32) (s : State) : Result :=
  whenAllowed (.rdreg a) s fun s =>
    match memRead a.toNat s with
    | .ok v => .next (s.respond s.port .ok v)
    | .error e => .next (raise e s)

/-- FREQOF (R120). -/
def execFreqof (a : BitVec 32) (s : State) : Result :=
  whenAllowed (.freqof a) s fun s => .next (s.respond s.port .ok (BitVec.ofNat 64 (freqOf a.toNat)))

end Sys2Proof.Machine
end

