-- ==== Sys2Proof/Machine/Sine.lean ====
section
/-! DEFINITION. SINQ, the phase-to-amplitude function (spec/40_oscillator.md R73): the real sine of the phase, scaled by 32767
and rounded to nearest. It is computed exactly in integers, from a quarter wave folded by the sine's symmetries. The quarter wave
is the sine's Taylor polynomial up to half a quarter turn and the cosine's of the complement beyond; both are evaluated
without rounding, and only the result is rounded (assumption log 13 says why this gives R73's value at every phase). -/

namespace Sys2Proof.Machine

open Sys2Proof

/-- π in units of 2^-64, rounded to nearest. -/
def piScaled : Int := 57952155664616982739

/-- The angle `piScaled * q` of `q` phase units is in units of 1 / `angleDen` radians: 2π/2^32 = π/2^31. -/
def angleDen : Int := 2 ^ 95

/-- `k0 - x * (k1 - x * (k2 - ...))`: a polynomial with alternating signs, by Horner's scheme. -/
def alternating : List Int → Int → Int
  | [], _ => 0
  | k :: ks, x => k - x * alternating ks x

/-- The factors 17!/1!, 17!/3!, ..., 17!/17! of the sine's polynomial. -/
def sineFactors : List Int :=
  [355687428096000, 59281238016000, 2964061900800, 70572902400, 980179200, 8910720, 57120, 272, 1]

/-- The factors 18!/0!, 18!/2!, ..., 18!/18! of the cosine's polynomial. -/
def cosineFactors : List Int :=
  [6402373705728000, 3201186852864000, 266765571072000, 8892185702400, 158789030400, 1764322560, 13366080, 73440, 306, 1]

/-- Homogeneous coefficients: the `j`-th factor times `angleDen ^ (2 * (n - j))`, where `n` is the index of the last factor. -/
def homogeneous : List Int → List Int
  | [] => []
  | k :: ks => k * angleDen ^ (2 * ks.length) :: homogeneous ks

/-- The sine of `q` phase units as a fraction: numerator and denominator. -/
def sineFrac (q : Nat) : Int × Int :=
  let x := piScaled * q
  (x * alternating (homogeneous sineFactors) (x * x), 355687428096000 * angleDen ^ 17)

/-- The cosine of `q` phase units as a fraction: numerator and denominator. -/
def cosineFrac (q : Nat) : Int × Int :=
  let x := piScaled * q
  (alternating (homogeneous cosineFactors) (x * x), 6402373705728000 * angleDen ^ 18)

/-- `32767 * f` rounded to nearest, as R73 rounds: floor of the value plus one half. -/
def scaleRound (f : Int × Int) : Int := (2 * (amp : Int) * f.1 + f.2) / (2 * f.2)

/-- SINQ on the first quarter turn, `0 <= q <= 2^30`. -/
def quarterSine (q : Nat) : Int :=
  if q ≤ 2 ^ 29 then scaleRound (sineFrac q) else scaleRound (cosineFrac (2 ^ 30 - q))

/-- SINQ as an integer, for `0 <= p < 2^32` (R73): the quarter wave, mirrored and negated. -/
def sinqInt (p : Nat) : Int :=
  if p ≤ 2 ^ 30 then quarterSine p
  else if p ≤ 2 ^ 31 then quarterSine (2 ^ 31 - p)
  else if p ≤ 3 * 2 ^ 30 then -quarterSine (p - 2 ^ 31)
  else -quarterSine (2 ^ 32 - p)

/-- SINQ: the 16-bit two's-complement sample of a phase (R73, spec/30_encoding.md R52). -/
def sinq (p : BitVec 32) : BitVec 16 := BitVec.ofInt 16 (sinqInt p.toNat)

end Sys2Proof.Machine
end

