-- ==== Sys2Proof/Machine/Oscillator.lean ====
section
/-! DEFINITION. The tone oscillator: SAMPLE, TONESEG, and the commands TONE1 and TONE (spec/40_oscillator.md R74 to R77). -/

namespace Sys2Proof.Machine

open Sys2Proof

/-- SAMPLE: advance the phase by one sample period, then emit the sine of the new phase (R74). -/
def sample (w : BitVec 32) (s : State) : SinkRun :=
  sinkEvent (.sinkWrite (sinq (s.phase + w))) { s with phase := s.phase + w }

/-- The last `n` samples of the segment in progress: each SAMPLE uses SEGFTW and counts SEGCNT down
(R75, spec/41_vis_header.md R96). -/
def samples : (n : Nat) → State → SinkRun
  | 0, s => .done s
  | n + 1, s => (sample s.segftw { s with segcnt := BitVec.ofNat 32 n }).andThen (samples n)

/-- Load TAIL, SEGCNT and SEGFTW. -/
def setSegment (t : BitVec 64) (n w : BitVec 32) (s : State) : State :=
  { s with tail := t, segcnt := n, segftw := w }

/-- The start of TONESEG: the residual is added to TAIL, SEGCNT and SEGFTW are loaded (R75, spec/41_vis_header.md R96). -/
def loadSegment (freq dur : BitVec 32) (s : State) : State :=
  setSegment (s.tail + BitVec.ofInt 64 (res dur s.srate)) (BitVec.ofNat 32 (nsamp dur s.srate)) (ftw freq s.srate) s

/-- TONESEG: one duration-form tone segment (R75). -/
def toneSeg (freq dur : BitVec 32) (s : State) : SinkRun :=
  samples (nsamp dur s.srate) (loadSegment freq dur s)

/-- TONE1 after its sample: the response OK, 1 (R76). -/
def finishTone1 (s : State) : State := s.respond .scmd .ok 1

/-- TONE after its samples: the response OK, n (R77). -/
def finishTone (n : BitVec 32) (s : State) : State := s.respond .scmd .ok (n.setWidth 64)

/-- TONE1 (R76). -/
def execTone1 (freq : BitVec 32) (s : State) : Result :=
  whenAllowed (.tone1 freq) s fun s =>
    withRate s fun s =>
      ((sample (ftw freq s.srate) s).mark .tone1).settle finishTone1

/-- The rest of a TONE of `n` samples in all: if it must wait it stays in progress, else it ends. -/
def runTone (n : BitVec 32) (r : SinkRun) : Result :=
  (r.mark (.tone n)).settle (finishTone n)

/-- TONE (R77). -/
def execTone (freq dur : BitVec 32) (s : State) : Result :=
  whenAllowed (.tone freq dur) s fun s =>
    withRate s fun s =>
      runTone (BitVec.ofNat 32 (nsamp dur s.srate)) (toneSeg freq dur s)

end Sys2Proof.Machine
end

