-- ==== Sys2Proof/Machine/Header.lean ====
section
/-! DEFINITION. The VIS header sequencer (spec/41_vis_header.md): the constant table, BITF, PARITY, HDRCNT and WRITE_HEADER. -/

namespace Sys2Proof.Machine

open Sys2Proof

/-- What selects the tone of a header segment (R90). -/
inductive HeaderTone where
  /-- A fixed frequency field. -/
  | fixed (freq : BitVec 32)
  /-- BITF of VIS bit `i`. -/
  | bit (i : Nat)
  /-- BITF of the running parity. -/
  | parity
  deriving DecidableEq, Repr

/-- BITF: 1100 Hz for a one, 1300 Hz for a zero (R91). -/
def bitF (b : Bool) : BitVec 32 := if b then 0x044C0000 else 0x05140000

/-- PARITY: the exclusive or of the seven bits (R92). -/
def parity (v : BitVec 7) : Bool :=
  (List.range 7).foldl (fun p i => p ^^ v.getLsbD i) false

/-- DUR of 300 ms, 10 ms and 30 ms (R90). -/
def ms300 : BitVec 32 := 0x012C0000
/-- DUR of the break. -/
def ms10 : BitVec 32 := 0x000A0000
/-- DUR of the start bit, the VIS bits, the parity and the stop. -/
def ms30 : BitVec 32 := 0x001E0000

/-- The header table, HSTEP 0 to 12 (R90, spec/20_memory.md R37): the tone and the DUR field of each segment. -/
def headerTable : List (HeaderTone × BitVec 32) :=
  [(.fixed 0x076C0000, ms300), (.fixed 0x04B00000, ms10), (.fixed 0x076C0000, ms300), (.fixed 0x04B00000, ms30),
   (.bit 0, ms30), (.bit 1, ms30), (.bit 2, ms30), (.bit 3, ms30), (.bit 4, ms30), (.bit 5, ms30), (.bit 6, ms30),
   (.parity, ms30), (.fixed 0x04B00000, ms30)]

/-- HDRCNT: the number of samples of the header (R94). -/
def hdrcnt (sr : BitVec 24) : Nat := 2 * nsamp ms300 sr + nsamp ms10 sr + 10 * nsamp ms30 sr

/-- PAR at a segment: a VIS bit enters the running parity before its tone is emitted (R93). -/
def parityAt (t : HeaderTone) (v : BitVec 7) (par : Bool) : Bool :=
  match t with
  | .fixed _ => par
  | .bit i => par ^^ v.getLsbD i
  | .parity => par

/-- The FREQ field of a segment, PAR being up to date (R90, R91). -/
def toneOf (t : HeaderTone) (v : BitVec 7) (par : Bool) : BitVec 32 :=
  match t with
  | .fixed f => f
  | .bit i => bitF (v.getLsbD i)
  | .parity => bitF par

/-- HSTEP and PAR at the start of segment `k`. -/
def enterSegment (k : Nat) (t : HeaderTone) (s : State) : State :=
  { s with hstep := BitVec.ofNat 4 k, par := parityAt t s.vis s.par }

/-- The segments of `table`, the first of which has index `k` (R93, R96: a segment of no samples is passed without a sample). -/
def segmentsFrom (k : Nat) (table : List (HeaderTone × BitVec 32)) (s : State) : SinkRun :=
  match table with
  | [] => .done s
  | (t, dur) :: rest =>
    let s1 := enterSegment k t s
    (toneSeg (toneOf t s1.vis s1.par) dur s1).andThen (segmentsFrom (k + 1) rest)

/-- WRITE_HEADER for the code in VIS (R93). -/
def writeHeader (s : State) : SinkRun := segmentsFrom 0 headerTable { s with par := false }

/-- The rest of WRITE_HEADER when the sink has answered ACK to a sample of segment HSTEP: the samples of that segment still to emit,
then the segments after it (R96). -/
def resumeHeader (s : State) : SinkRun :=
  (samples s.segcnt.toNat s).andThen
    (segmentsFrom (s.hstep.toNat + 1) (headerTable.drop (s.hstep.toNat + 1)))

end Sys2Proof.Machine
end

