-- ==== Sys2Proof/Machine/Session.lean ====
section
/-! DEFINITION. The line encoding state machine: CREATE, INIT, PROCESS, ROWDONE, GETCOUNT, GETTOTAL, FINISH
(spec/42_line_fsm.md R102 to R109). -/

namespace Sys2Proof.Machine

open Sys2Proof

/-- What a successful CREATE writes (R102). -/
def createSession (a : BitVec 32) (s : State) : State :=
  { s with
    srate := s.pinSinkSrate
    vis := a.setWidth 7
    height := s.pinImgHeight
    row := 0
    phase := 0
    tail := 0
    txcount := 0
    total := 0
    sstate := .created }

/-- CREATE (R102). -/
def execCreate (a : BitVec 32) (s : State) : Result :=
  whenAllowed (.create a) s fun s =>
    if 127 < a.toNat ∨ s.pinSinkSrate = 0 then .next (raise .invalidConfiguration s)
    else .next ((createSession a s).respond .hcmd .ok 0)

/-- TOTAL at INIT: `HDRCNT(x[SRATE]) + x[TXCOUNT]`, 33 bits (spec/10_state.md R21). -/
def totalOf (sr : BitVec 24) (tx : BitVec 32) : BitVec 33 := BitVec.ofNat 33 (hdrcnt sr + tx.toNat)

/-- What INIT writes before its first event (R103). -/
def initSession (s : State) : State :=
  { s with
    row := 0
    phase := 0
    tail := 0
    txcount := s.pinStratTxcount
    total := totalOf s.srate s.pinStratTxcount }

/-- INIT's end: the session is ACTIVE, the response OK, 0 (R103). -/
def finishInit (s : State) : State := { s with sstate := .active }.respond .hcmd .ok 0

/-- WRITE_HEADER inside INIT. -/
def headerOfInit (s : State) : SinkRun := (writeHeader s).mark .header

/-- INIT (R103). -/
def execInit (s : State) : Result :=
  whenAllowed .init s fun s =>
    withRate s fun s =>
      let s1 := initSession s
      (((sinkEvent (.sinkInit s1.total) s1).mark .sinkInit).andThen headerOfInit).settle finishInit

/-- The strategy hears ROW_REQ(r) and presents the command list of row `r` (R105, R111 item 1; assumption log 8). -/
def strategyHears (r : BitVec 16) (s : State) : State :=
  { s with scmd := s.scmd ++ s.rowScript.getD r.toNat [] }

/-- PROCESS opens row ROW (R104). -/
def openRow (s : State) : State :=
  strategyHears s.row ({ s with rowbusy := true }.emit (.rowReq s.row))

/-- PROCESS (R104). Its response OK, 1 is emitted when ROWDONE has been executed; until then it is in progress (ROWBUSY = 1). -/
def execProcess (s : State) : Result :=
  whenAllowed .process s fun s =>
    if s.height ≤ s.row then .next (s.respond .hcmd .ok 0) else .next (openRow s)

/-- ROWDONE, then the response of the PROCESS in progress (R106). -/
def execRowdone (s : State) : Result :=
  whenAllowed .rowdone s fun s =>
    .next (({ s with row := s.row + 1, rowbusy := false }.respond .scmd .ok 0).respond .hcmd .ok 1)

/-- GETCOUNT (R107). -/
def execGetcount (s : State) : Result :=
  whenAllowed .getcount s fun s => .next (s.respond .hcmd .ok (s.height.setWidth 64))

/-- GETTOTAL (R108). -/
def execGettotal (s : State) : Result :=
  whenAllowed .gettotal s fun s => .next (s.respond .hcmd .ok (s.total.setWidth 64))

/-- FINISH (R109). -/
def execFinish (cancel : Bool) (s : State) : Result :=
  whenAllowed (.finish cancel) s fun s => .next ((endSession cancel s).respond .hcmd .ok 0)

end Sys2Proof.Machine
end

