-- ==== Sys2Proof/Machine/Dispatch.lean ====
section
/-! DEFINITION. One arm per command: the meaning each is given. -/

namespace Sys2Proof.Machine

open Sys2Proof

def exec (i : Instr) (s : State) : Host.Outcome State Fault Refusal :=
  match i with
  | .create a => Sys2Proof.Machine.execCreate a s
  | .init => Sys2Proof.Machine.execInit s
  | .process => Sys2Proof.Machine.execProcess s
  | .getcount => Sys2Proof.Machine.execGetcount s
  | .gettotal => Sys2Proof.Machine.execGettotal s
  | .finish cancel => Sys2Proof.Machine.execFinish cancel s
  | .rdreg a => Sys2Proof.Machine.execRdreg a s
  | .freqof a => Sys2Proof.Machine.execFreqof a s
  | .tone1 freq => Sys2Proof.Machine.execTone1 freq s
  | .tone freq dur => Sys2Proof.Machine.execTone freq dur s
  | .rowdone => Sys2Proof.Machine.execRowdone s

end Sys2Proof.Machine
end

