-- ==== Sys2Proof/Machine/Resume.lean ====
section
/-! DEFINITION. Going on with a command that waited for the sink (spec/20_memory.md R33): the answer is taken, and the command runs
to its end, or to the next sink event without an answer. -/

namespace Sys2Proof.Machine

open Sys2Proof

/-- The rest of the command in progress, once an answer to its last sink event is there. After FAIL it is the abort (R132). -/
def resumeCommand (s : State) : Result :=
  let s0 := s.setWait .none
  match s.wait with
  | .none => .next s
  | .sinkInit =>
    withRate s0 fun s0 => ((takeAnswer s0).mark .sinkInit |>.andThen headerOfInit).settle finishInit
  | .header =>
    withRate s0 fun s0 => (((takeAnswer s0).andThen resumeHeader).mark .header).settle finishInit
  | .tone1 => ((takeAnswer s0).mark .tone1).settle finishTone1
  | .tone n => runTone n ((takeAnswer s0).andThen fun t => samples t.segcnt.toNat t)

end Sys2Proof.Machine
end

