-- ==== Sys2Proof/Machine/Step.lean ====
section
/-! DEFINITION. One step of the core. -/

namespace Sys2Proof.Machine

open Sys2Proof

/-- One step: RESET, or the answer of the sink to the command in progress, or the next command, executed until it ends or waits for
the sink; with nothing to do the state stays as it is. -/
def step (s : State) : Host.Outcome State Fault Refusal :=
  match nextMove s with
  | .settled t => .next t
  | .resume => resumeCommand s
  | .run i t => exec i t

/-- `s` with one opcode-table word presented to the core, so that the next step accepts and executes it. The core fetches nothing
(spec/10_state.md R14): a command is presented on a port, and this stands for the agent that presents it (assumption log 6).
Bits from `nbits` up are 0. -/
def State.withFetchWord (s : State) (nbits w : Nat) : State :=
  present s (BitVec.ofNat 96 (w % 2 ^ nbits))

end Sys2Proof.Machine
end

