-- ==== Sys2Proof/Machine/Events.lean ====
section
/-! DEFINITION. The words of the events on the ports: RSP72, SINK66, ROW18 and the image event
(spec/30_encoding.md R51 to R53, R55). -/

namespace Sys2Proof.Machine

open Sys2Proof

/-- The RC field (R55). -/
def RC.code : RC → BitVec 8
  | .ok => 0x00
  | .invalidConfiguration => 0x01
  | .sinkFailure => 0x02
  | .illegalCommand => 0x03
  | .illegalState => 0x04

/-- RSP72: RC in 71:64, VAL in 63:0 (R51). -/
def rspWord (rc : RC) (val : BitVec 64) : RspWord := rc.code ++ val

/-- SINK66: KIND in 65:64, PAYLOAD in 63:0 (R52). -/
def sinkWord (kind : BitVec 2) (payload : BitVec 64) : SinkWord := kind ++ payload

/-- ROW18: KIND in 17:16, ROWIDX in 15:0 (R53). -/
def rowWord (kind : BitVec 2) (idx : BitVec 16) : RowWord := kind ++ idx

/-- A word on one of the core's output ports (spec/20_memory.md R31). -/
inductive PortWord where
  /-- HRSP. -/
  | hrsp (w : RspWord)
  /-- SRSP. -/
  | srsp (w : RspWord)
  /-- ROW. -/
  | row (w : RowWord)
  /-- SINK. -/
  | sink (w : SinkWord)
  /-- IMG: one bit. -/
  | img (w : BitVec 1)
  deriving DecidableEq, Repr

/-- The port and the word of an event. -/
def Event.word : Event → PortWord
  | .hrsp rc v => .hrsp (rspWord rc v)
  | .srsp rc v => .srsp (rspWord rc v)
  | .rowReq r => .row (rowWord 1 r)
  | .rowAbort => .row (rowWord 2 0)
  | .sinkInit t => .sink (sinkWord 0 (t.setWidth 64))
  | .sinkWrite x => .sink (sinkWord 1 (x.setWidth 64))
  | .sinkFinish c => .sink (sinkWord 2 ((BitVec.ofBool c).setWidth 64))
  | .imgRelease => .img 1

/-- The bit of the sink's answer: 0 = ACK, 1 = FAIL (R52). -/
def Answer.bit : Answer → BitVec 1
  | .ack => 0
  | .fail => 1

end Sys2Proof.Machine
end

