-- ==== Sys2Proof/Machine/Assembler.lean ====
section
/-! DEFINITION. The text form of a command (spec/30_encoding.md R62, R63, R66): one line to its port and its word; and the text form
of a response (R62).
The spaces the grammar leaves implicit, and what is no line, are the model's reading (assumption log 18). -/

namespace Sys2Proof.Machine

open Sys2Proof

/-! ## Pieces of a line -/

/-- The text before the first `c`, and the text after it, if there is a `c`. -/
def cut (c : Char) : List Char → List Char × Option (List Char)
  | [] => ([], none)
  | x :: xs => if x = c then ([], some xs) else let r := cut c xs; (x :: r.1, r.2)

/-- The pieces between the `c`s. -/
def splitAll (c : Char) : List Char → List (List Char)
  | [] => [[]]
  | x :: xs =>
    if x = c then [] :: splitAll c xs
    else match splitAll c xs with
      | [] => [[x]]
      | p :: ps => (x :: p) :: ps

/-- A text without its leading and trailing spaces. -/
def trimSpaces (t : List Char) : List Char :=
  ((t.dropWhile (· = ' ')).reverse.dropWhile (· = ' ')).reverse

/-! ## Numbers -/

/-- The value of a digit below 10. -/
def decDigit (c : Char) : Option Nat :=
  if 48 ≤ c.toNat ∧ c.toNat ≤ 57 then some (c.toNat - 48) else none

/-- The value of a hexadecimal digit. -/
def hexDigit (c : Char) : Option Nat :=
  if 65 ≤ c.toNat ∧ c.toNat ≤ 70 then some (c.toNat - 55)
  else if 97 ≤ c.toNat ∧ c.toNat ≤ 102 then some (c.toNat - 87)
  else decDigit c

/-- `acc` followed by digits of a base. -/
def digits (digit : Char → Option Nat) (base : Nat) : (acc : Nat) → List Char → Option Nat
  | acc, [] => some acc
  | acc, c :: cs =>
    match digit c with
    | none => none
    | some k => digits digit base (acc * base + k) cs

/-- At least one decimal digit. -/
def decimalInteger (t : List Char) : Option Nat :=
  if t = [] then none else digits decDigit 10 0 t

/-- An integer, decimal or `0x` hexadecimal (R62). -/
def integer (t : List Char) : Option Nat :=
  match t with
  | '0' :: 'x' :: h => if h = [] then none else digits hexDigit 16 0 h
  | t => decimalInteger t

/-- A non-negative decimal as a fraction: its digits without the point, over a power of ten (R66). R66 does not give the form of a
decimal: that it is decimal digits, or decimal digits on both sides of one point, is the model's choice (assumption log 18). -/
def decimal (t : List Char) : Option (Nat × Nat) :=
  match cut '.' t with
  | (whole, none) => (decimalInteger whole).map fun n => (n, 1)
  | (whole, some frac) =>
    if whole = [] ∨ frac = [] then none
    else (decimalInteger (whole ++ frac)).map fun n => (n, 10 ^ frac.length)

/-! ## Operands -/

/-- The decimal of `hz(…)` or `ms(…)`. -/
def literalArgument (t : List Char) : Option (Nat × Nat) :=
  match t with
  | 'h' :: 'z' :: '(' :: r =>
    match cut ')' r with
    | (d, some []) => decimal d
    | _ => none
  | 'm' :: 's' :: '(' :: r =>
    match cut ')' r with
    | (d, some []) => decimal d
    | _ => none
  | _ => none

/-- A number that fits a 32-bit field ("Both must be below 2^32", R66). -/
def fitsField (n : Nat) : Option (BitVec 32) :=
  if n < 2 ^ 32 then some (BitVec.ofNat 32 n) else none

/-- A value operand: an integer is the raw field, `hz` and `ms` round their decimal to the field's unit (R62, R66). The grammar admits a
register's name as any operand, and R62 gives the names a meaning for RDREG alone: that no other command takes one is the model's
choice (assumption log 18). -/
def valueOperand (t : List Char) : Option (BitVec 32) :=
  match literalArgument t with
  | some (n, d) => fitsField (hz n d)
  | none => (integer t).bind fitsField

/-- The names of the debug registers, register 0 first (R62). -/
def registerNames : List (List Char) :=
  ["STATUS".toList, "SRATE".toList, "VIS".toList, "HEIGHT".toList, "ROW".toList, "PHASE".toList, "TAIL".toList,
   "TXCOUNT".toList, "TOTAL".toList]

/-- RDREG's operand: "an integer or one of the names" (R62). -/
def registerOperand (t : List Char) : Option (BitVec 32) :=
  match registerNames.findIdx? (· = t) with
  | some n => some (BitVec.ofNat 32 n)
  | none => (integer t).bind fitsField

/-- FINISH's operand: "c = 0 or 1", an integer like any other (R62). -/
def flagOperand (t : List Char) : Option Bool :=
  match integer t with
  | some 0 => some false
  | some 1 => some true
  | _ => none

/-! ## Lines -/

/-- The shape of a mnemonic's operands, with its OP value (R56, R62). -/
inductive LineShape where
  /-- No operand. -/
  | plain (op : BitVec 8)
  /-- One value, in A. -/
  | value (op : BitVec 8)
  /-- A register, in A. -/
  | register (op : BitVec 8)
  /-- The C bit. -/
  | flag (op : BitVec 8)
  /-- Two values, in A and B. -/
  | values (op : BitVec 8)
  deriving DecidableEq, Repr

/-- The mnemonics (R62, R63). -/
def mnemonics : List (List Char × LineShape) :=
  [("CREATE".toList, .value 0x01), ("INIT".toList, .plain 0x02),
   ("PROCESS".toList, .plain 0x03), ("GETCOUNT".toList, .plain 0x04),
   ("GETTOTAL".toList, .plain 0x05), ("FINISH".toList, .flag 0x06),
   ("RDREG".toList, .register 0x07), ("FREQOF".toList, .value 0x08),
   ("TONE1".toList, .value 0x10), ("TONE".toList, .values 0x11),
   ("ROWDONE".toList, .plain 0x1F)]

/-- The shape of a mnemonic, if it is one. -/
def lineShape (m : List Char) : Option LineShape :=
  (mnemonics.find? fun e => decide (e.1 = m)).map (·.2)

/-- The word of a mnemonic with its operands. The fields are written raw: an operand the core refuses still assembles. -/
def assembleCommand (shape : LineShape) (operands : List (List Char)) : Option CmdWord :=
  match shape, operands with
  | .plain op, [] => some (packCmd op false 0 0)
  | .value op, [a] => (valueOperand a).map fun a => packCmd op false a 0
  | .register op, [a] => (registerOperand a).map fun a => packCmd op false a 0
  | .flag op, [c] => (flagOperand c).map fun c => packCmd op c 0 0
  | .values op, [a, b] => (valueOperand a).bind fun a => (valueOperand b).map fun b => packCmd op false a b
  | _, _ => none

/-- The port a line names. -/
def linePort (t : List Char) : Option Port :=
  if t = ['H'] then some .hcmd else if t = ['S'] then some .scmd else none

/-- The operands of a line: the pieces between commas. -/
def lineOperands (t : Option (List Char)) : List (List Char) :=
  match t with
  | none => []
  | some t => if trimSpaces t = [] then [] else (splitAll ',' t).map trimSpaces

/-- The port and the word that one line of text writes (R62); text from `;` on is comment. -/
def assemble (line : List Char) : Option (Port × CmdWord) :=
  match cut ':' (cut ';' line).1 with
  | (_, none) => none
  | (p, some rest) =>
    let (m, operands) := cut ' ' (trimSpaces rest)
    match linePort (trimSpaces p), lineShape m with
    | some p, some shape => (assembleCommand shape (lineOperands operands)).map fun w => (p, w)
    | _, _ => none

/-! ## Responses -/

/-- The name of a result code (R55). -/
def RC.name : RC → List Char
  | .ok => "OK".toList
  | .invalidConfiguration => "INVALID_CONFIGURATION".toList
  | .sinkFailure => "SINK_FAILURE".toList
  | .illegalCommand => "ILLEGAL_COMMAND".toList
  | .illegalState => "ILLEGAL_STATE".toList

/-- The result codes, in the order of R55's table. -/
def resultCodes : List RC := [.ok, .invalidConfiguration, .sinkFailure, .illegalCommand, .illegalState]

/-- A response as text: `-> RC_NAME`, or `-> RC_NAME, value` with VAL in decimal if it is not 0 (R62). -/
def responseText (rc : RC) (val : BitVec 64) : List Char :=
  "-> ".toList ++ rc.name ++ if val = 0 then [] else ", ".toList ++ Nat.toDigits 10 val.toNat

/-- VAL of a response text: the value after the comma, 0 if there is none. -/
def responseValue (t : Option (List Char)) : Option (BitVec 64) :=
  match t with
  | none => some 0
  | some v => (integer (trimSpaces v)).bind fun n => if n < 2 ^ 64 then some (BitVec.ofNat 64 n) else none

/-- The response that a text writes (R62). -/
def readResponse (t : List Char) : Option (RC × BitVec 64) :=
  match trimSpaces t with
  | '-' :: '>' :: r =>
    let (name, value) := cut ',' r
    (resultCodes.find? fun rc => decide (rc.name = trimSpaces name)).bind fun rc =>
      (responseValue value).map fun v => (rc, v)
  | _ => none

/-- The response word that a text writes. -/
def assembleResponse (t : List Char) : Option RspWord :=
  (readResponse t).map fun r => rspWord r.1 r.2

end Sys2Proof.Machine
end

