-- ==== Sys2Proof/Safety.lean ====
section
/-! DEFINITION. What counts as a sound state and a finished run, in the terms claims use: the invariants of spec/10_state.md R24, the
named states of spec/42_line_fsm.md R100, the end of a run (spec/70_reset_and_hazards.md R164), and what is counted in a trace. -/

namespace Sys2Proof.Machine

open Sys2Proof

/-! ## The session invariant (R24) -/

/-- R24, with what holds of a command that waits for the sink, so that every step keeps it. Item 1 of R24 and the bound on VIS hold by
the types of the fields. -/
structure SessionInv (s : State) : Prop where
  /-- Item 2: a row is open only in ACTIVE, before the last row is done. -/
  rowOpen : s.rowbusy = true → s.sstate = .active ∧ s.row < s.height
  /-- Item 3. -/
  session : s.sstate ≠ .idle → s.row ≤ s.height ∧ s.srate ≠ 0
  /-- Item 4, at a command boundary. -/
  created : s.sstate = .created → s.wait = .none →
    s.row = 0 ∧ s.phase = 0 ∧ s.tail = 0 ∧ s.txcount = 0 ∧ s.total = 0
  /-- Item 5. -/
  active : s.sstate = .active → s.total.toNat = hdrcnt s.srate + s.txcount.toNat
  /-- While INIT waits the session is still CREATED, its counts latched. -/
  initWaits : s.wait = .sinkInit ∨ s.wait = .header →
    s.sstate = .created ∧ s.row = 0 ∧ s.total.toNat = hdrcnt s.srate + s.txcount.toNat
  /-- The header has 13 segments. -/
  headerWaits : s.wait = .header → s.hstep.toNat ≤ 12
  /-- A tone is in progress only in an open row. -/
  toneWaits : s.wait ≠ .none → s.wait ≠ .sinkInit → s.wait ≠ .header → s.rowbusy = true

/-! ## The document's state names (R100) -/

/-- No session exists. -/
def NoSession (s : State) : Prop := s.sstate = .idle

/-- `Created`. -/
def IsCreated (s : State) : Prop := s.sstate = .created

/-- `Initialized`. -/
def IsInitialized (s : State) : Prop :=
  s.sstate = .active ∧ s.row = 0 ∧ s.rowbusy = false ∧ 0 < s.height

/-- `Encoding(row=r)`. -/
def IsEncoding (r : BitVec 16) (s : State) : Prop :=
  s.sstate = .active ∧ s.row = r ∧ r < s.height ∧ (s.rowbusy = true ∨ 0 < r)

/-- `Finished`: the end of the rows. -/
def IsFinished (s : State) : Prop := s.sstate = .active ∧ s.row = s.height

/-- The rows of R100's table. -/
inductive StateName where
  | noSession
  | created
  | initialized
  | encoding
  | finished
  deriving DecidableEq, Repr

/-- When a row of R100's table holds. -/
def StateName.holds : StateName → State → Prop
  | .noSession, s => NoSession s
  | .created, s => IsCreated s
  | .initialized, s => IsInitialized s
  | .encoding, s => ∃ r, IsEncoding r s
  | .finished, s => IsFinished s

/-! ## The end of a session's run (R164) -/

/-- The session's run is over: nothing is in progress and the trace ends with the sink notified, the image released, and the
response to a FINISH, or the SINK_FAILURE response that ends the abort procedure. -/
def RunOver (s : State) : Prop :=
  s.sstate = .idle ∧ s.rowbusy = false ∧ s.wait = .none ∧
    ((∃ c, [.sinkFinish c, .imgRelease, .hrsp .ok 0] <:+ s.out) ∨
      [.sinkFinish true, .imgRelease, .hrsp .sinkFailure 0] <:+ s.out)

/-! ## Counting events -/

/-- A response to the host. -/
def Event.isHostResponse : Event → Bool
  | .hrsp _ _ => true
  | _ => false

/-- A response to the strategy. -/
def Event.isStrategyResponse : Event → Bool
  | .srsp _ _ => true
  | _ => false

/-- A sample. -/
def Event.isWrite : Event → Bool
  | .sinkWrite _ => true
  | _ => false

/-- The sink's notification of the end of a session. -/
def Event.isFinish : Event → Bool
  | .sinkFinish _ => true
  | _ => false

/-- The release of the image. -/
def Event.isRelease : Event → Bool
  | .imgRelease => true
  | _ => false

/-- The announcement of the total, which starts a session's stream. -/
def Event.isStart : Event → Bool
  | .sinkInit _ => true
  | _ => false

/-- A response as R51 allows it: VAL is 0 whenever RC is not OK. -/
def Event.properResponse : Event → Bool
  | .hrsp rc v => rc = .ok ∨ v = 0
  | .srsp rc v => rc = .ok ∨ v = 0
  | _ => true

/-- How many HCMD commands are accepted and not yet answered: a PROCESS with its row open, or an INIT that waits for the sink. -/
def hostPending (s : State) : Nat :=
  if s.rowbusy then 1
  else match s.wait with
    | .sinkInit => 1
    | .header => 1
    | _ => 0

/-- How many SCMD commands are accepted and not yet answered: a tone that waits for the sink. -/
def strategyPending (s : State) : Nat :=
  match s.wait with
  | .tone1 => 1
  | .tone _ => 1
  | _ => 0

/-- Whether a session exists. -/
def hasSession (s : State) : Nat := if s.sstate = .idle then 0 else 1

/-- A session whose INIT has not begun, so that its stream has not started (R40, R103). -/
def awaitsInit (s : State) : Prop := s.sstate = .created ∧ s.wait = .none

/-! ## The samples of a segment -/

/-- The events of `n` samples that start from phase `p` with tuning word `w`: the phase advances before each (R74, R75). -/
def toneEvents : (n : Nat) → (w p : BitVec 32) → List Event
  | 0, _, _ => []
  | n + 1, w, p => .sinkWrite (sinq (p + w)) :: toneEvents n w (p + w)

/-- PHASE after `n` samples with tuning word `w`. -/
def phaseAfter (n : Nat) (w p : BitVec 32) : BitVec 32 := p + BitVec.ofNat 32 n * w

/-- The events of tone segments (FREQ, DUR) played one after the other at a sample rate, from phase `p` (R75, R78). -/
def eventsOf : List (BitVec 32 × BitVec 32) → BitVec 24 → BitVec 32 → List Event
  | [], _, _ => []
  | (f, d) :: rest, sr, p =>
    toneEvents (nsamp d sr) (ftw f sr) p ++ eventsOf rest sr (phaseAfter (nsamp d sr) (ftw f sr) p)

/-! ## The header as a whole (spec/41_vis_header.md R90 to R95) -/

/-- The thirteen segments of the header of a code, in order (R90, R93). -/
def headerSegments (v : BitVec 7) : List (BitVec 32 × BitVec 32) :=
  [(0x076C0000, ms300), (0x04B00000, ms10), (0x076C0000, ms300), (0x04B00000, ms30),
   (bitF (v.getLsbD 0), ms30), (bitF (v.getLsbD 1), ms30), (bitF (v.getLsbD 2), ms30), (bitF (v.getLsbD 3), ms30),
   (bitF (v.getLsbD 4), ms30), (bitF (v.getLsbD 5), ms30), (bitF (v.getLsbD 6), ms30),
   (bitF (parity v), ms30), (0x04B00000, ms30)]

/-- The number of ones among the seven bits of a VIS code. -/
def onesOf (v : BitVec 7) : Nat := (List.range 7).countP fun i => v.getLsbD i

/-- R95's `k`: the number of 1100 Hz segments. -/
def lowTones (v : BitVec 7) : Nat := onesOf v + (parity v).toNat

/-- R95's PHASE after a complete header that started from 0. -/
def headerPhase (v : BitVec 7) (sr : BitVec 24) : BitVec 32 :=
  let n300 := nsamp ms300 sr
  let n10 := nsamp ms10 sr
  let n30 := nsamp ms30 sr
  let k := lowTones v
  BitVec.ofNat 32
    (2 * n300 * (ftw 0x076C0000 sr).toNat + (n10 + 2 * n30) * (ftw 0x04B00000 sr).toNat +
      k * n30 * (ftw 0x044C0000 sr).toNat + (8 - k) * n30 * (ftw 0x05140000 sr).toNat)

/-- R95's TAIL after a complete header that started from 0. -/
def headerTail (sr : BitVec 24) : BitVec 64 :=
  BitVec.ofInt 64 (2 * res ms300 sr + res ms10 sr + 10 * res ms30 sr)

/-! ## The tuning words of a step (spec/40_oscillator.md R74, R75, R78) -/

/-- The samples whose phases are reached from `p` by these tuning words, one after the other (R74). -/
def sampleEvents : (ws : List (BitVec 32)) → (p : BitVec 32) → List Event
  | [], _ => []
  | w :: ws, p => .sinkWrite (sinq (p + w)) :: sampleEvents ws (p + w)

/-- PHASE after those samples. -/
def phaseAlong (ws : List (BitVec 32)) (p : BitVec 32) : BitVec 32 := ws.foldl (· + ·) p

/-- The tuning words of one segment (R75): FTW of its frequency, once for each sample. -/
def segmentWords (freq dur : BitVec 32) (sr : BitVec 24) : List (BitVec 32) :=
  List.replicate (nsamp dur sr) (ftw freq sr)

/-- The tuning words of the header of a code. -/
def headerWords (v : BitVec 7) (sr : BitVec 24) : List (BitVec 32) :=
  (headerSegments v).flatMap fun x => segmentWords x.1 x.2 sr

/-- The tuning words of the header segments of `table`, the running parity before the first being `par` (R93). -/
def tableWords (table : List (HeaderTone × BitVec 32)) (v : BitVec 7) (par : Bool) (sr : BitVec 24) : List (BitVec 32) :=
  match table with
  | [] => []
  | (t, dur) :: rest =>
    let par1 := parityAt t v par
    segmentWords (toneOf t v par1) dur sr ++ tableWords rest v par1 sr

/-- The tuning words of the samples a command begun in `s` emits, if nothing cuts it short. -/
def commandWords (i : Instr) (s : State) : List (BitVec 32) :=
  match i with
  | .init => headerWords s.vis s.srate
  | .tone1 f => [ftw f s.srate]
  | .tone f d => segmentWords f d s.srate
  | .create _ => []
  | .process => []
  | .getcount => []
  | .gettotal => []
  | .finish _ => []
  | .rdreg _ => []
  | .freqof _ => []
  | .rowdone => []

/-- The tuning words of the samples the waiting command has still to emit: the rest of the segment SEGCNT counts, then the header
segments after HSTEP. -/
def waitingWords (s : State) : List (BitVec 32) :=
  match s.wait with
  | .none => []
  | .sinkInit => headerWords s.vis s.srate
  | .header => List.replicate s.segcnt.toNat s.segftw ++ tableWords (headerTable.drop (s.hstep.toNat + 1)) s.vis s.par s.srate
  | .tone1 => []
  | .tone _ => List.replicate s.segcnt.toNat s.segftw

/-- The tuning words of the samples the next step emits, if nothing cuts it short. -/
def stepWords (s : State) : List (BitVec 32) :=
  match nextMove s with
  | .settled _ => []
  | .resume => waitingWords s
  | .run i _ => commandWords i s

end Sys2Proof.Machine
end

