-- ==== Sys2Proof/Certificates/Slice0/Obligations.lean ====
section
/-! DEFINITION. The statements about the model that the provers settle. Each is read from the numbered rules its docstring cites. -/

open Sys2Proof Sys2Proof.Machine

/-! ## Encoding -/

/-- R50, R54, R56: decoding the encoding of a well-formed command gives the command back, for every operand the word admits. -/
def Obligations.DecodeOfEncode : Prop :=
  ∀ i : Instr, i.wf = true → decode (encode i) = .ok i

/-- R50, R54, R58: a word that decodes is the encoding of what it decodes to, which is well formed: no bit of it is dropped. -/
def Obligations.EncodeOfDecode : Prop :=
  ∀ (w : CmdWord) (i : Instr), decode w = .ok i → i.wf = true ∧ encode i = w

/-- R56: the decoder accepts exactly the words that match a row of the opcode map, as that row's command, and no word matches two
rows. -/
def Obligations.DecodeAgreesWithOpcodeTable : Prop :=
  (∀ (w : CmdWord) (i : Instr), decode w = .ok i → i.row ∈ opcodeTable ∧ w &&& i.row.mask = i.row.mtch) ∧
  (∀ (w : CmdWord) (r : OpRow), r ∈ opcodeTable → w &&& r.mask = r.mtch → ∃ i, decode w = .ok i ∧ i.row = r) ∧
  (∀ (w : CmdWord) (q r : OpRow), q ∈ opcodeTable → r ∈ opcodeTable → w &&& q.mask = q.mtch → w &&& r.mask = r.mtch → q = r)

/-- A line of R67's table: its text is read as a port and a command's word, and that word is the command's. -/
def writtenAs (line : String) (p : Port) (i : Instr) (w : CmdWord) : Prop :=
  assemble line.toList = some (p, w) ∧ encode i = w ∧ decode w = .ok i ∧ p ∈ i.ports

/-- R67: the worked encodings, with the text of each line (R62, R63, R66). -/
def Obligations.WorkedEncodings : Prop :=
  writtenAs "H: CREATE 8" .hcmd (.create 8) 0x010000000000000800000000 ∧
  writtenAs "H: INIT" .hcmd .init 0x020000000000000000000000 ∧
  writtenAs "H: PROCESS" .hcmd .process 0x030000000000000000000000 ∧
  writtenAs "H: GETCOUNT" .hcmd .getcount 0x040000000000000000000000 ∧
  writtenAs "H: GETTOTAL" .hcmd .gettotal 0x050000000000000000000000 ∧
  writtenAs "H: FINISH 0" .hcmd (.finish false) 0x060000000000000000000000 ∧
  writtenAs "H: FINISH 1" .hcmd (.finish true) 0x060000010000000000000000 ∧
  writtenAs "H: RDREG PHASE" .hcmd (.rdreg 5) 0x070000000000000500000000 ∧
  writtenAs "S: FREQOF 255" .scmd (.freqof 255) 0x08000000000000FF00000000 ∧
  writtenAs "S: TONE1 hz(1500)" .scmd (.tone1 (BitVec.ofNat 32 (hz 1500))) 0x1000000005DC000000000000 ∧
  writtenAs "S: TONE hz(1900), ms(300)" .scmd (.tone (BitVec.ofNat 32 (hz 1900)) (BitVec.ofNat 32 (ms 300)))
    0x11000000076C0000012C0000 ∧
  writtenAs "S: ROWDONE" .scmd .rowdone 0x1F0000000000000000000000 ∧
  rspWord .ok 1 = 0x000000000000000001 ∧ assembleResponse "-> OK, 1".toList = some 0x000000000000000001 ∧
  rspWord .sinkFailure 0 = 0x020000000000000000 ∧ assembleResponse "-> SINK_FAILURE".toList = some 0x020000000000000000

/-- R51 to R53, R55: the words of the events, each as the number its fields make. -/
def Obligations.EventWordLayout : Prop :=
  (∀ (rc : RC) (v : BitVec 64), (Event.hrsp rc v).word = .hrsp (BitVec.ofNat 72 (rc.code.toNat * 2 ^ 64 + v.toNat)) ∧
    (Event.srsp rc v).word = .srsp (BitVec.ofNat 72 (rc.code.toNat * 2 ^ 64 + v.toNat))) ∧
  (RC.ok.code = 0 ∧ RC.invalidConfiguration.code = 1 ∧ RC.sinkFailure.code = 2 ∧ RC.illegalCommand.code = 3 ∧
    RC.illegalState.code = 4) ∧
  (∀ t : BitVec 33, (Event.sinkInit t).word = .sink (BitVec.ofNat 66 t.toNat)) ∧
  (∀ x : BitVec 16, (Event.sinkWrite x).word = .sink (BitVec.ofNat 66 (2 ^ 64 + x.toNat))) ∧
  (∀ c : Bool, (Event.sinkFinish c).word = .sink (BitVec.ofNat 66 (2 * 2 ^ 64 + c.toNat))) ∧
  (∀ r : BitVec 16, (Event.rowReq r).word = .row (BitVec.ofNat 18 (2 ^ 16 + r.toNat))) ∧
  Event.rowAbort.word = .row (BitVec.ofNat 18 (2 * 2 ^ 16)) ∧
  Event.imgRelease.word = .img 1

/-! ## One step -/

/-- R32, R57: with no command in progress, a word on HCMD that decodes is executed, if SCMD presents nothing or HCMD is owed the turn;
the step adds only the taking of the word. That a port can be owed the turn is the model's reading of "then takes the other"
(assumption log 9, DEDUCED). -/
def Obligations.StepRunsTheHostCommand : Prop :=
  ∀ (s : State) (w : CmdWord) (rest : List CmdWord) (i : Instr),
    s.pinReset = false → s.wait = .none → s.rowbusy = false → s.hcmd = w :: rest →
    (s.scmd = [] ∨ s.owed = some .hcmd) → decode w = .ok i →
    step s = exec i { s with hcmd := rest, port := .hcmd, owed := none }

/-- R32, R57: a word on SCMD that decodes is executed, if a row is open, or HCMD presents nothing, or SCMD is owed the turn. That a port
can be owed the turn is the model's reading of "then takes the other" (assumption log 9, DEDUCED). -/
def Obligations.StepRunsTheStrategyCommand : Prop :=
  ∀ (s : State) (w : CmdWord) (rest : List CmdWord) (i : Instr),
    s.pinReset = false → s.wait = .none → s.scmd = w :: rest →
    (s.rowbusy = true ∨ s.hcmd = [] ∨ s.owed = some .scmd) → decode w = .ok i →
    step s = exec i { s with scmd := rest, port := .scmd, owed := none }

/-- R32 item 5: when both ports present a command and none is owed, the free value says which is executed, and the other port is
owed the next turn. It holds whatever the free value is (assumption log 9; the debt to the other port is read from "then takes the
other"). -/
def Obligations.StepDrawsTheFirstPort : Prop :=
  ∀ (s : State) (v w : CmdWord) (hrest srest : List CmdWord) (i j : Instr),
    s.pinReset = false → s.wait = .none → s.rowbusy = false → s.owed = none →
    s.hcmd = v :: hrest → s.scmd = w :: srest → decode v = .ok i → decode w = .ok j →
    (Config.firstPort s.draws = .hcmd ∧
      step s = exec i { s with hcmd := hrest, port := .hcmd, owed := some .scmd, draws := s.draws + 1 }) ∨
    (Config.firstPort s.draws = .scmd ∧
      step s = exec j { s with scmd := srest, port := .scmd, owed := some .hcmd, draws := s.draws + 1 })

/-- A word of the opcode table presented with `withFetchWord` (the model's own operation, assumption log 6) is executed by the very
next step, on a port that accepts it while no row is open. -/
def Obligations.PresentedWordRuns : Prop :=
  ∀ (s : State) (nbits w : Nat) (i : Instr), s.rowbusy = false → decodeTableWord nbits w = some i →
    ∃ t : State, step (s.withFetchWord nbits w) = exec i t ∧ t.port ∈ i.ports ∧
      t = { s with pinReset := false, wait := .none, hcmd := [], scmd := [], port := t.port, owed := none }

/-- R58, R133: an accepted word that matches no row of the opcode map is answered ILLEGAL_COMMAND with VAL 0 on the response port of
its port; no register changes and there is no other event. -/
def Obligations.IllegalWordIsAnswered : Prop :=
  ∀ (s t : State) (w : CmdWord), s.pinReset = false → s.wait = .none → accept s = some (w, t) →
    (∀ r ∈ opcodeTable, w &&& r.mask ≠ r.mtch) →
    step s = .next { t with out := t.out ++ [rspEvent t.port .illegalCommand 0] } ∧
      t = { s with hcmd := t.hcmd, scmd := t.scmd, port := t.port, owed := t.owed, draws := t.draws }

/-- R32 items 1 to 4 and 6: while a row is open or a command waits for the sink no word of HCMD is taken, and while a command waits
for the sink no word of SCMD is taken either. -/
def Obligations.BlockedWordsAreKept : Prop :=
  ∀ s t : State, step s = .next t →
    (s.rowbusy = true ∨ s.wait ≠ .none → t.hcmd = s.hcmd) ∧ (s.wait ≠ .none → t.scmd = s.scmd)

/-- R33, R144, R157, R158: a core that waits for the sink, for a strategy command in an open row, or for any command keeps its whole
state. -/
def Obligations.CoreWaitsUnchanged : Prop :=
  ∀ s : State, s.pinReset = false →
    (s.wait ≠ .none → s.sinkAnswers = [] → step s = .next s) ∧
    (s.wait = .none → s.scmd = [] → (s.rowbusy = true ∨ s.hcmd = []) → step s = .next s)

/-- R25, R150, R151: reset is IDLE with no row open and no command in progress; and while RESET is asserted every step leaves the core so
and accepts no word. The model's own: the trace is emptied by each such step (DEDUCED from R25), and the words presented, the sink's answers
to come and the level of RESET stay as they are (DESIGN CHOICE), both assumption log 10. -/
def Obligations.ResetIsIdle : Prop :=
  (State.reset.sstate = .idle ∧ State.reset.rowbusy = false ∧ State.reset.wait = .none ∧ State.reset.out = []) ∧
  ∀ s : State, s.pinReset = true → ∃ t : State, step s = .next t ∧
    t.sstate = .idle ∧ t.rowbusy = false ∧ t.wait = .none ∧ t.out = [] ∧ t.pinReset = true ∧
    t.hcmd = s.hcmd ∧ t.scmd = s.scmd ∧ t.sinkAnswers = s.sinkAnswers

/-! ## Errors -/

/-- R59, R57 step 2: a command on a port without the right to it is answered ILLEGAL_COMMAND, whatever the state, and changes
nothing. -/
def Obligations.WrongPortIsIllegalCommand : Prop :=
  ∀ (s : State) (i : Instr),
    (s.port = .scmd →
      ((∃ a, i = .create a) ∨ i = .init ∨ i = .process ∨ i = .getcount ∨ i = .gettotal ∨ ∃ c, i = .finish c) →
      exec i s = .next { s with out := s.out ++ [.srsp .illegalCommand 0] }) ∧
    (s.port = .hcmd → ((∃ f, i = .tone1 f) ∨ (∃ f d, i = .tone f d) ∨ i = .rowdone) →
      exec i s = .next { s with out := s.out ++ [.hrsp .illegalCommand 0] })

/-- R101, R134: each "IS" cell of the table: the response is ILLEGAL_STATE with VAL 0 and nothing else happens. -/
def Obligations.WrongStateIsIllegalState : Prop :=
  ∀ s : State,
    (s.port = .hcmd →
      (s.sstate ≠ .idle → ∀ a, exec (.create a) s = .next { s with out := s.out ++ [.hrsp .illegalState 0] }) ∧
      (s.sstate ≠ .created → exec .init s = .next { s with out := s.out ++ [.hrsp .illegalState 0] }) ∧
      (s.sstate ≠ .active →
        exec .process s = .next { s with out := s.out ++ [.hrsp .illegalState 0] } ∧
        exec .gettotal s = .next { s with out := s.out ++ [.hrsp .illegalState 0] }) ∧
      (s.sstate = .idle →
        exec .getcount s = .next { s with out := s.out ++ [.hrsp .illegalState 0] } ∧
        ∀ c, exec (.finish c) s = .next { s with out := s.out ++ [.hrsp .illegalState 0] })) ∧
    (s.port = .scmd → s.rowbusy = false →
      (∀ f, exec (.tone1 f) s = .next { s with out := s.out ++ [.srsp .illegalState 0] }) ∧
      (∀ f d, exec (.tone f d) s = .next { s with out := s.out ++ [.srsp .illegalState 0] }) ∧
      exec .rowdone s = .next { s with out := s.out ++ [.srsp .illegalState 0] }) ∧
    (s.sstate = .idle → ∀ a : BitVec 32, 1 ≤ a.toNat → a.toNat ≤ 8 →
      exec (.rdreg a) s = .next { s with out := s.out ++ [rspEvent s.port .illegalState 0] })

/-! ## The session commands -/

/-- R102: CREATE with a valid configuration. -/
def Obligations.CreateOpensSession : Prop :=
  ∀ (a : BitVec 32) (s : State), s.port = .hcmd → s.sstate = .idle → a.toNat ≤ 127 → s.pinSinkSrate ≠ 0 →
    exec (.create a) s = .next { s with
      srate := s.pinSinkSrate
      vis := BitVec.ofNat 7 a.toNat
      height := s.pinImgHeight
      row := 0
      phase := 0
      tail := 0
      txcount := 0
      total := 0
      sstate := .created
      out := s.out ++ [.hrsp .ok 0] }

/-- R131: CREATE with an invalid configuration writes nothing. -/
def Obligations.CreateInvalidConfiguration : Prop :=
  ∀ (a : BitVec 32) (s : State), s.port = .hcmd → s.sstate = .idle → (127 < a.toNat ∨ s.pinSinkSrate = 0) →
    exec (.create a) s = .next { s with out := s.out ++ [.hrsp .invalidConfiguration 0] }

/-- R103, R93, R94, R95: INIT with every event answered ACK: SINK_INIT with the total, then exactly the samples of the thirteen
segments, then the response; PHASE and TAIL are as R95 gives. The transient registers (R23) are left open. -/
def Obligations.InitSendsTheHeader : Prop :=
  ∀ (s : State) (rest : List Answer), s.port = .hcmd → s.sstate = .created → s.srate ≠ 0 →
    s.sinkAnswers = List.replicate (1 + hdrcnt s.srate) .ack ++ rest →
    ∃ t : State, exec .init s = .next t ∧
      t = { s with
        sstate := .active
        row := 0
        phase := headerPhase s.vis s.srate
        tail := headerTail s.srate
        txcount := s.pinStratTxcount
        total := BitVec.ofNat 33 (hdrcnt s.srate + s.pinStratTxcount.toNat)
        hstep := t.hstep
        par := t.par
        segcnt := t.segcnt
        segftw := t.segftw
        sinkAnswers := rest
        out := s.out ++ [.sinkInit (BitVec.ofNat 33 (hdrcnt s.srate + s.pinStratTxcount.toNat))] ++
          eventsOf (headerSegments s.vis) s.srate 0 ++ [.hrsp .ok 0] } ∧
      (eventsOf (headerSegments s.vis) s.srate 0).length = hdrcnt s.srate

/-- R132, R103: SINK_INIT answered FAIL: no sample is written, the session is aborted and INIT answers SINK_FAILURE. That the session
registers keep their values in IDLE is the model's choice (assumption log 15, DESIGN CHOICE; U2 leaves them open). -/
def Obligations.InitRefusedBySink : Prop :=
  ∀ (s : State) (rest : List Answer), s.port = .hcmd → s.sstate = .created → s.srate ≠ 0 → s.rowbusy = false →
    s.sinkAnswers = .fail :: rest →
    exec .init s = .next { s with
      sstate := .idle
      row := 0
      phase := 0
      tail := 0
      txcount := s.pinStratTxcount
      total := BitVec.ofNat 33 (hdrcnt s.srate + s.pinStratTxcount.toNat)
      sinkAnswers := rest
      out := s.out ++ [.sinkInit (BitVec.ofNat 33 (hdrcnt s.srate + s.pinStratTxcount.toNat)),
        .sinkFinish true, .imgRelease, .hrsp .sinkFailure 0] }

/-- R132, R93: a header sample answered FAIL is the last sample written; the rest of the header is abandoned and the session
aborted. That the session registers keep their values in IDLE is the model's choice (assumption log 15, DESIGN CHOICE; U2 leaves them
open). -/
def Obligations.HeaderFailureAborts : Prop :=
  ∀ (s : State) (k : Nat) (rest : List Answer), s.port = .hcmd → s.sstate = .created → s.srate ≠ 0 → s.rowbusy = false →
    k < hdrcnt s.srate → s.sinkAnswers = List.replicate (1 + k) .ack ++ .fail :: rest →
    ∃ t : State, exec .init s = .next t ∧
      t = { s with
        sstate := .idle
        row := 0
        phase := t.phase
        tail := t.tail
        txcount := s.pinStratTxcount
        total := BitVec.ofNat 33 (hdrcnt s.srate + s.pinStratTxcount.toNat)
        hstep := t.hstep
        par := t.par
        segcnt := t.segcnt
        segftw := t.segftw
        sinkAnswers := rest
        out := s.out ++ [.sinkInit (BitVec.ofNat 33 (hdrcnt s.srate + s.pinStratTxcount.toNat))] ++
          (eventsOf (headerSegments s.vis) s.srate 0).take (k + 1) ++
          [.sinkFinish true, .imgRelease, .hrsp .sinkFailure 0] }

/-- R104: PROCESS with rows left opens row ROW: ROWBUSY is set and ROW_REQ(ROW) emitted; its response follows at ROWDONE. That the
strategy then presents its command list for the row is the model's rendering of the STRATEGY agent (R111 item 1, assumption
log 8). -/
def Obligations.ProcessOpensRow : Prop :=
  ∀ s : State, s.port = .hcmd → s.sstate = .active → s.row.toNat < s.height.toNat →
    exec .process s = .next { s with
      rowbusy := true
      scmd := s.scmd ++ s.rowScript.getD s.row.toNat []
      out := s.out ++ [.rowReq s.row] }

/-- R104: PROCESS at the end of the rows answers 0 and does nothing else. -/
def Obligations.ProcessAtEndAnswersZero : Prop :=
  ∀ s : State, s.port = .hcmd → s.sstate = .active → s.height.toNat ≤ s.row.toNat →
    exec .process s = .next { s with out := s.out ++ [.hrsp .ok 0] }

/-- R106: ROWDONE counts the row, closes it, and the PROCESS in progress answers 1. -/
def Obligations.RowdoneClosesRow : Prop :=
  ∀ s : State, s.port = .scmd → s.rowbusy = true → s.row.toNat < s.height.toNat →
    ∃ t : State, exec .rowdone s = .next t ∧
      t = { s with row := t.row, rowbusy := false, out := s.out ++ [.srsp .ok 0, .hrsp .ok 1] } ∧
      t.row.toNat = s.row.toNat + 1

/-- R107: GETCOUNT answers HEIGHT. -/
def Obligations.GetcountAnswersHeight : Prop :=
  ∀ s : State, s.port = .hcmd → s.sstate ≠ .idle →
    exec .getcount s = .next { s with out := s.out ++ [.hrsp .ok (BitVec.ofNat 64 s.height.toNat)] }

/-- R108: GETTOTAL answers TOTAL. -/
def Obligations.GettotalAnswersTotal : Prop :=
  ∀ s : State, s.port = .hcmd → s.sstate = .active →
    exec .gettotal s = .next { s with out := s.out ++ [.hrsp .ok (BitVec.ofNat 64 s.total.toNat)] }

/-- R109: FINISH notifies the sink with the flag as given, releases the image and ends the session. That the session registers keep
their values in IDLE is the model's choice (assumption log 15, DESIGN CHOICE; U2 and R164 leave them open). -/
def Obligations.FinishEndsSession : Prop :=
  ∀ (c : Bool) (s : State), s.port = .hcmd → s.sstate ≠ .idle →
    exec (.finish c) s = .next { s with
      sstate := .idle
      out := s.out ++ [.sinkFinish c, .imgRelease, .hrsp .ok 0] }

/-- R36, R122: what RDREG reads, on either port; above 8 it is no register, whatever the state. -/
def Obligations.RdregReadsRegisters : Prop :=
  ∀ (a : BitVec 32) (s : State),
    (a = 0 → exec (.rdreg a) s = .next { s with out := s.out ++
      [rspEvent s.port .ok (BitVec.ofNat 64 (s.sstate.code.toNat + 4 * s.rowbusy.toNat))] }) ∧
    (8 < a.toNat → exec (.rdreg a) s = .next { s with out := s.out ++ [rspEvent s.port .illegalCommand 0] }) ∧
    (s.sstate ≠ .idle → ∀ v : BitVec 64,
      (a = 1 ∧ v = BitVec.ofNat 64 s.srate.toNat) ∨ (a = 2 ∧ v = BitVec.ofNat 64 s.vis.toNat) ∨
      (a = 3 ∧ v = BitVec.ofNat 64 s.height.toNat) ∨ (a = 4 ∧ v = BitVec.ofNat 64 s.row.toNat) ∨
      (a = 5 ∧ v = BitVec.ofNat 64 s.phase.toNat) ∨ (a = 6 ∧ v = s.tail) ∨
      (a = 7 ∧ v = BitVec.ofNat 64 s.txcount.toNat) ∨ (a = 8 ∧ v = BitVec.ofNat 64 s.total.toNat) →
      exec (.rdreg a) s = .next { s with out := s.out ++ [rspEvent s.port .ok v] })

/-- R120: FREQOF answers the rounded linear interpolation on either port in every state; above 255 it is no command. -/
def Obligations.FreqofAnswersFrequency : Prop :=
  ∀ (a : BitVec 32) (s : State),
    (a.toNat ≤ 255 → exec (.freqof a) s = .next { s with out := s.out ++
      [rspEvent s.port .ok (BitVec.ofNat 64 ((2 * (a.toNat * 52428800) + 255) / 510 + 98304000))] }) ∧
    (255 < a.toNat → exec (.freqof a) s = .next { s with out := s.out ++ [rspEvent s.port .illegalCommand 0] })

/-- R121: the end points of FREQOF, and that it increases by 205603 or 205604 units at every step. -/
def Obligations.FreqofIsIncreasing : Prop :=
  freqOf 0 = hz 1500 ∧ freqOf 255 = hz 2300 ∧
    ∀ c : Nat, c ≤ 254 → freqOf (c + 1) = freqOf c + 205603 ∨ freqOf (c + 1) = freqOf c + 205604

/-! ## The tone commands -/

/-- R76, R74: TONE1 in an open row, its sample answered ACK: PHASE advances by one tuning word, the sample is the sine of the new
phase, TAIL is untouched. -/
def Obligations.Tone1WritesOneSample : Prop :=
  ∀ (f : BitVec 32) (s : State) (rest : List Answer), s.port = .scmd → s.rowbusy = true → s.srate ≠ 0 →
    s.sinkAnswers = .ack :: rest →
    exec (.tone1 f) s = .next { s with
      phase := s.phase + ftw f s.srate
      sinkAnswers := rest
      out := s.out ++ [.sinkWrite (sinq (s.phase + ftw f s.srate)), .srsp .ok 1] }

/-- R77, R75: TONE in an open row, every sample answered ACK: exactly NSAMP samples, each one tuning word on from the one before, TAIL
moved by the residual, the count answered. -/
def Obligations.ToneWritesItsSamples : Prop :=
  ∀ (f d : BitVec 32) (s : State) (rest : List Answer), s.port = .scmd → s.rowbusy = true → s.srate ≠ 0 →
    s.sinkAnswers = List.replicate (nsamp d s.srate) .ack ++ rest →
    exec (.tone f d) s = .next { s with
      phase := s.phase + BitVec.ofNat 32 (nsamp d s.srate) * ftw f s.srate
      tail := s.tail + BitVec.ofInt 64 (res d s.srate)
      segcnt := 0
      segftw := ftw f s.srate
      sinkAnswers := rest
      out := s.out ++ toneEvents (nsamp d s.srate) (ftw f s.srate) s.phase ++
        [.srsp .ok (BitVec.ofNat 64 (nsamp d s.srate))] }

/-- R132: a sample of TONE1 answered FAIL: the tone answers SINK_FAILURE, the row and the session are aborted, the PROCESS answers
SINK_FAILURE, and ROW is not counted. That the other session registers keep their values in IDLE is the model's choice (assumption log 15,
DESIGN CHOICE; U2 leaves them open). -/
def Obligations.Tone1FailureAborts : Prop :=
  ∀ (f : BitVec 32) (s : State) (rest : List Answer), s.port = .scmd → s.rowbusy = true → s.srate ≠ 0 →
    s.sinkAnswers = .fail :: rest →
    exec (.tone1 f) s = .next { s with
      sstate := .idle
      rowbusy := false
      phase := s.phase + ftw f s.srate
      sinkAnswers := rest
      out := s.out ++ [.sinkWrite (sinq (s.phase + ftw f s.srate)), .srsp .sinkFailure 0, .rowAbort, .sinkFinish true,
        .imgRelease, .hrsp .sinkFailure 0] }

/-- R132: a sample of TONE answered FAIL is the last sample written; the abort is as for TONE1, and ROW is not counted. That the session
registers keep their values in IDLE is the model's choice (assumption log 15, DESIGN CHOICE; U2 leaves them open), and so is that TAIL has
been moved before the samples (assumption log 14, DEDUCED; R75: the order cannot be observed). -/
def Obligations.ToneFailureAborts : Prop :=
  ∀ (f d : BitVec 32) (s : State) (k : Nat) (rest : List Answer), s.port = .scmd → s.rowbusy = true → s.srate ≠ 0 →
    k < nsamp d s.srate → s.sinkAnswers = List.replicate k .ack ++ .fail :: rest →
    ∃ t : State, exec (.tone f d) s = .next t ∧
      t = { s with
        sstate := .idle
        rowbusy := false
        phase := s.phase + BitVec.ofNat 32 (k + 1) * ftw f s.srate
        tail := s.tail + BitVec.ofInt 64 (res d s.srate)
        segcnt := t.segcnt
        segftw := t.segftw
        sinkAnswers := rest
        out := s.out ++ toneEvents (k + 1) (ftw f s.srate) s.phase ++
          [.srsp .sinkFailure 0, .rowAbort, .sinkFinish true, .imgRelease, .hrsp .sinkFailure 0] }

/-- R33, R96: when the sink stops answering inside a TONE, the core waits with the sample written. That TAIL has been moved by then and
that SEGCNT is the number of samples still to emit, without the one in flight, is the model's reading (assumption log 14, DEDUCED). -/
def Obligations.ToneWaitsForTheSink : Prop :=
  ∀ (f d : BitVec 32) (s : State) (k : Nat), s.port = .scmd → s.rowbusy = true → s.srate ≠ 0 →
    k < nsamp d s.srate → s.sinkAnswers = List.replicate k .ack →
    exec (.tone f d) s = .next { s with
      phase := s.phase + BitVec.ofNat 32 (k + 1) * ftw f s.srate
      tail := s.tail + BitVec.ofInt 64 (res d s.srate)
      segcnt := BitVec.ofNat 32 (nsamp d s.srate - (k + 1))
      segftw := ftw f s.srate
      wait := .tone (BitVec.ofNat 32 (nsamp d s.srate))
      sinkAnswers := []
      out := s.out ++ toneEvents (k + 1) (ftw f s.srate) s.phase }

/-- R33, R43: waiting for the sink changes nothing: a command that ran into the end of the answers `a`, waited, and went on with the
answers `b` ends exactly as if `a` and `b` had been there from the start. With RESET released and an answer there, it is the next step
that goes on with it. -/
def Obligations.ResumeEqualsUninterrupted : Prop :=
  ∀ (i : Instr) (s t : State) (a b : List Answer), s.wait = .none →
    exec i { s with sinkAnswers := a } = .next t → t.wait ≠ .none →
    resumeCommand { t with sinkAnswers := b } = exec i { s with sinkAnswers := a ++ b } ∧
    (s.pinReset = false → b ≠ [] → step { t with sinkAnswers := b } = exec i { s with sinkAnswers := a ++ b })

/-! ## Arithmetic -/

/-- R70: NSAMP is the nearest integer to DUR times SR over 65536000, ties up; its range; the examples. -/
def Obligations.NsampRoundsHalfUp : Prop :=
  (∀ (d : BitVec 32) (sr : BitVec 24),
    nsamp d sr = (2 * d.toNat * sr.toNat + 65536000) / 131072000 ∧
    2 * (nsamp d sr * 65536000) ≤ 2 * (d.toNat * sr.toNat) + 65536000 ∧
    2 * (d.toNat * sr.toNat) < 2 * (nsamp d sr * 65536000) + 65536000 ∧
    nsamp d sr ≤ 1099511562) ∧
  nsamp (BitVec.ofNat 32 (2 ^ 32 - 1)) (BitVec.ofNat 24 (2 ^ 24 - 1)) = 1099511562 ∧
  (∀ sr : BitVec 24, nsamp 0 sr = 0) ∧
  nsamp (BitVec.ofNat 32 (ms 300)) 44100 = 13230 ∧ nsamp (BitVec.ofNat 32 (ms 10)) 44100 = 441 ∧
  nsamp (BitVec.ofNat 32 (ms 30)) 44100 = 1323 ∧ nsamp (BitVec.ofNat 32 (ms 300)) 11025 = 3308

/-- R71: RES is the exact count less the rounded count in tail units; its range; its sign; the examples. -/
def Obligations.ResidualRange : Prop :=
  (∀ (d : BitVec 32) (sr : BitVec 24),
    res d sr = (d.toNat : Int) * sr.toNat - (nsamp d sr : Int) * 65536000 ∧ -32768000 ≤ res d sr ∧ res d sr ≤ 32767999 ∧
    (d.toNat * sr.toNat < nsamp d sr * 65536000 → res d sr < 0)) ∧
  res (BitVec.ofNat 32 (ms 300)) 44100 = 0 ∧ res (BitVec.ofNat 32 (ms 300)) 11025 = -32768000 ∧
  res (BitVec.ofNat 32 (ms 10)) 11025 = 16384000

/-- R72: FTW is the rounded quotient modulo one turn; before the reduction it is within half a unit of the exact advance; a frequency
one sample rate higher has the same tuning word; the examples. -/
def Obligations.FtwIsModuloOneTurn : Prop :=
  (∀ (f : BitVec 32) (sr : BitVec 24), sr ≠ 0 →
    ∃ q : Nat, q = (2 * f.toNat * 65536 + sr.toNat) / (2 * sr.toNat) ∧ (ftw f sr).toNat = q % 2 ^ 32 ∧
      2 * (q * sr.toNat) ≤ 2 * (f.toNat * 65536) + sr.toNat ∧ 2 * (f.toNat * 65536) ≤ 2 * (q * sr.toNat) + sr.toNat) ∧
  (∀ (f g : BitVec 32) (sr : BitVec 24), sr ≠ 0 → g.toNat = f.toNat + sr.toNat * 65536 → ftw g sr = ftw f sr) ∧
  (∀ sr : BitVec 24, sr ≠ 0 → ftw 0 sr = 0) ∧
  ftw (BitVec.ofNat 32 (hz 1000)) 8000 = 0x20000000 ∧ ftw (BitVec.ofNat 32 (hz 1900)) 44100 = 0x0B078BE6 ∧
  ftw (BitVec.ofNat 32 (hz 1200)) 44100 = 0x06F74AE2 ∧ ftw (BitVec.ofNat 32 (hz 8000)) 8000 = 0

/-- R91, R92: the tone of a bit, the lower for a one; the tones of the VIS bits and of the parity, which is segment 11 of the header,
are selected by the same BITF; PARITY is the exclusive or of the seven bits, so the bits and the parity hold an even number of ones; the
document's example. -/
def Obligations.BitTonesAndParity : Prop :=
  bitF true = BitVec.ofNat 32 (hz 1100) ∧ bitF true = 0x044C0000 ∧ bitF false = BitVec.ofNat 32 (hz 1300) ∧
  bitF false = 0x05140000 ∧ (bitF true).toNat < (bitF false).toNat ∧
  (∀ (v : BitVec 7) (par : Bool), toneOf .parity v par = bitF par ∧ ∀ i, toneOf (.bit i) v par = bitF (v.getLsbD i)) ∧
  headerTable[11]? = some (.parity, ms30) ∧
  (∀ v : BitVec 7, (headerSegments v)[11]? = some (bitF (parity v), ms30)) ∧
  (∀ v : BitVec 7, parity v = (v.getLsbD 0 ^^ v.getLsbD 1 ^^ v.getLsbD 2 ^^ v.getLsbD 3 ^^ v.getLsbD 4 ^^ v.getLsbD 5 ^^
      v.getLsbD 6) ∧ (parity v = true ↔ onesOf v % 2 = 1) ∧ lowTones v % 2 = 0 ∧ lowTones v ≤ 8) ∧
  parity 8 = true

/-- R94: HDRCNT is the sum of the rounded counts of the thirteen segments; its values and its maximum. -/
def Obligations.HeaderSampleCount : Prop :=
  (∀ sr : BitVec 24, hdrcnt sr = 2 * nsamp (BitVec.ofNat 32 (ms 300)) sr + nsamp (BitVec.ofNat 32 (ms 10)) sr +
      10 * nsamp (BitVec.ofNat 32 (ms 30)) sr ∧ hdrcnt sr ≤ 15267262 ∧
    ∀ v : BitVec 7, ((headerSegments v).map fun x => nsamp x.2 sr).sum = hdrcnt sr) ∧
  hdrcnt 44100 = 40131 ∧ hdrcnt 48000 = 43680 ∧ hdrcnt 8000 = 7280 ∧ hdrcnt 16000 = 14560 ∧ hdrcnt 11025 = 10036 ∧
  hdrcnt 22050 = 20071 ∧ hdrcnt (BitVec.ofNat 24 16777215) = 15267262

/-- R73 properties 3, 4 and 5: SINQ is odd, antisymmetric over half a turn, and mirrored about the quarter turn. -/
def Obligations.SinqIsSymmetric : Prop :=
  (∀ p : BitVec 32, sinq (-p) = -sinq p) ∧
  (∀ p : BitVec 32, sinq (p + 0x80000000) = -sinq p) ∧
  (∀ p : BitVec 32, p.toNat ≤ 2 ^ 31 → sinq (0x80000000 - p) = sinq p)

/-- R73 properties 1 and 2, and its table at the sixteenths of a turn. -/
def Obligations.SinqIsBounded : Prop :=
  (∀ p : BitVec 32, -32767 ≤ (sinq p).toInt ∧ (sinq p).toInt ≤ 32767) ∧
  (List.range 16).map (fun k => (sinq (BitVec.ofNat 32 (k * 0x10000000))).toInt) =
    [0, 12539, 23170, 30273, 32767, 30273, 23170, 12539, 0, -12539, -23170, -30273, -32767, -30273, -23170, -12539]

/-- R73 property 6: SINQ does not decrease on the first quarter turn. -/
def Obligations.SinqRisesOnTheFirstQuarter : Prop :=
  ∀ p q : BitVec 32, p.toNat ≤ q.toNat → q.toNat ≤ 2 ^ 30 → (sinq p).toInt ≤ (sinq q).toInt

/-- R73 property 7, R80: a sample is within one half, and a margin of 10^-10, of the scaled real sine of its phase. The margin is the
model's: it covers the polynomial the model computes with, and lies below the smallest distance from a tie (assumption log 13). -/
def Obligations.SinqFollowsTheSine : Prop :=
  ∀ p : BitVec 32,
    |((sinq p).toInt : ℝ) - 32767 * Real.sin (2 * Real.pi * (p.toNat : ℝ) / 2 ^ 32)| ≤ 1 / 2 + 1 / 10 ^ 10

/-- R78, R74, R75: in every step without RESET from a state that meets the invariant, the samples written are the sines of the phases
reached from PHASE by one tuning word each, and PHASE is left at the last of them. The words are those of the segment or TONE1 that emits
the sample: of the command begun (the header's thirteen segments, TONE, TONE1), or what the waiting command has still to emit; a step cut
short by the sink uses the first of them. So the step from each sample to the next is the next one's tuning word, within a segment and
across segments, the header, rows and steps. Only the CREATE that begins a session moves PHASE otherwise, and it writes no sample.
Where a command waits, what it has still to emit is read from HSTEP, PAR, SEGCNT and SEGFTW by the model's reading of them
(assumption log 14, DEDUCED), and that PHASE stays as it is in IDLE once the step has ended the session is the model's choice (assumption
log 15, DESIGN CHOICE; U2 and R164 leave it open). -/
def Obligations.PhaseIsContinuous : Prop :=
  ∀ s t : State, SessionInv s → s.pinReset = false → step s = .next t →
    ∃ ws : List (BitVec 32), ws <+: stepWords s ∧
      (t.out.drop s.out.length).filter Event.isWrite = sampleEvents ws s.phase ∧
      (¬(s.sstate = .idle ∧ t.sstate = .created) → t.phase = phaseAlong ws s.phase)

/-! ## Frames -/

/-- R41: GETCOUNT, GETTOTAL, RDREG and FREQOF change nothing but the trace, to which they add one response. -/
def Obligations.QueriesOnlyRespond : Prop :=
  ∀ (i : Instr) (s t : State),
    (i = .getcount ∨ i = .gettotal ∨ (∃ a, i = .rdreg a) ∨ ∃ a, i = .freqof a) → exec i s = .next t →
    ∃ rc v, t = { s with out := s.out ++ [rspEvent s.port rc v] }

/-- R102, R104, R106, R109: what CREATE, PROCESS, ROWDONE and FINISH leave alone, in every outcome. That FINISH leaves the session
registers as they are in IDLE is the model's choice (assumption log 15, DESIGN CHOICE; U2 and R164 leave them open); the words PROCESS adds
to SCMD are its rendering of the strategy (assumption log 8). -/
def Obligations.SessionCommandFrames : Prop :=
  ∀ s t : State,
    (∀ a, exec (.create a) s = .next t → t = { s with
      sstate := t.sstate, srate := t.srate, vis := t.vis, height := t.height, row := t.row, phase := t.phase
      tail := t.tail, txcount := t.txcount, total := t.total, out := t.out }) ∧
    (exec .process s = .next t → t = { s with rowbusy := t.rowbusy, scmd := t.scmd, out := t.out }) ∧
    (exec .rowdone s = .next t → t = { s with row := t.row, rowbusy := t.rowbusy, out := t.out }) ∧
    (∀ c, exec (.finish c) s = .next t → t = { s with sstate := t.sstate, out := t.out })

/-- R74, R75, R103, R132: what INIT, TONE1 and TONE leave alone, in every outcome (completion, error, abort, waiting). That an abort
leaves the session registers as they are in IDLE is the model's choice (assumption log 15, DESIGN CHOICE; U2 leaves them open). -/
def Obligations.SinkCommandFrames : Prop :=
  ∀ s t : State,
    (exec .init s = .next t → t = { s with
      sstate := t.sstate, rowbusy := t.rowbusy, row := t.row, phase := t.phase, tail := t.tail, txcount := t.txcount
      total := t.total, hstep := t.hstep, par := t.par, segcnt := t.segcnt, segftw := t.segftw, wait := t.wait
      sinkAnswers := t.sinkAnswers, out := t.out }) ∧
    (∀ f, exec (.tone1 f) s = .next t → t = { s with
      sstate := t.sstate, rowbusy := t.rowbusy, phase := t.phase, wait := t.wait, sinkAnswers := t.sinkAnswers
      out := t.out }) ∧
    (∀ f d, exec (.tone f d) s = .next t → t = { s with
      sstate := t.sstate, rowbusy := t.rowbusy, phase := t.phase, tail := t.tail, segcnt := t.segcnt, segftw := t.segftw
      wait := t.wait, sinkAnswers := t.sinkAnswers, out := t.out })

/-! ## The whole machine -/

/-- R24: the reset state meets the session invariant. -/
def Obligations.ResetHasSessionInvariant : Prop := SessionInv State.reset

/-- R24: every step keeps the session invariant. -/
def Obligations.StepKeepsSessionInvariant : Prop :=
  ∀ s t : State, SessionInv s → step s = .next t → SessionInv t

/-- R79, R137: a state that meets the invariant has a next state: no fault and no refusal is reached. -/
def Obligations.StepNeverStops : Prop :=
  ∀ s : State, SessionInv s → ∃ t, step s = .next t

/-- R100: in a state that meets the invariant exactly one row of the table of state names holds. -/
def Obligations.SessionStatesPartition : Prop :=
  ∀ s : State, SessionInv s → ∃! n : StateName, n.holds s

/-- R40, R43, R51, R130: without RESET a step only adds events at the end of the trace, and a response it adds has VAL 0 when its RC
is not OK. -/
def Obligations.StepAddsProperEvents : Prop :=
  ∀ s t : State, s.pinReset = false → step s = .next t →
    s.out <+: t.out ∧ ∀ e ∈ t.out.drop s.out.length, e.properResponse = true

/-- R51, R31: every HCMD command is answered by exactly one HRSP response: what is taken from HCMD is answered or in progress, and what
was in progress is answered or still in progress. -/
def Obligations.OneHostResponsePerCommand : Prop :=
  ∀ s t : State, SessionInv s → s.pinReset = false → step s = .next t →
    t.out.countP Event.isHostResponse + hostPending t + t.hcmd.length =
      s.out.countP Event.isHostResponse + hostPending s + s.hcmd.length

/-- R51, R31: every SCMD command is answered by exactly one SRSP response. That words are added to SCMD only as a row is opened is the
model's rendering of the STRATEGY agent (assumption log 8, DESIGN CHOICE). -/
def Obligations.OneStrategyResponsePerCommand : Prop :=
  ∀ s t : State, SessionInv s → s.pinReset = false → step s = .next t →
    ∃ (n : Nat) (added : List CmdWord), n ≤ s.scmd.length ∧ t.scmd = s.scmd.drop n ++ added ∧
      (added = [] ∨ (s.rowbusy = false ∧ t.rowbusy = true)) ∧
      t.out.countP Event.isStrategyResponse + strategyPending t =
        s.out.countP Event.isStrategyResponse + strategyPending s + n

/-- R40, R43 item 3, R103, R109, R132, R164: the stream of a session. SINK_INIT is emitted only in the step that runs INIT out of CREATED,
as its first event and with HDRCNT + STRAT_TXCOUNT, and the session then no longer awaits INIT, which only a new session does: so at most once per session.
A SINK_WRITE is emitted only by that step, by an INIT in progress, or in an open row. SINK_FINISH and IMG_RELEASE are emitted once each in
the step that ends the session, and no step does otherwise; a session begins only by CREATE. -/
def Obligations.SessionEndIsNotifiedOnce : Prop :=
  ∀ s t : State, SessionInv s → s.pinReset = false → step s = .next t →
    (t.out.countP Event.isStart = s.out.countP Event.isStart ∨
      (awaitsInit s ∧ ¬awaitsInit t ∧ (∃ u, nextMove s = .run .init u) ∧
        t.out.countP Event.isStart = s.out.countP Event.isStart + 1 ∧ ∃ es, t.out = s.out ++ .sinkInit (totalOf s.srate s.pinStratTxcount) :: es)) ∧
    (awaitsInit t → awaitsInit s ∨ s.sstate = .idle) ∧
    ((∃ x, Event.sinkWrite x ∈ t.out.drop s.out.length) →
      s.rowbusy = true ∨ s.wait = .sinkInit ∨ s.wait = .header ∨ (awaitsInit s ∧ ∃ u, nextMove s = .run .init u)) ∧
    t.out.countP Event.isFinish + hasSession t =
      s.out.countP Event.isFinish + hasSession s + (if s.sstate = .idle ∧ t.sstate = .created then 1 else 0) ∧
    t.out.countP Event.isRelease + hasSession t =
      s.out.countP Event.isRelease + hasSession s + (if s.sstate = .idle ∧ t.sstate = .created then 1 else 0)

/-- R164: a step that ends a session leaves the run over: nothing in progress, and the trace closed by a FINISH's response or by the
end of the abort procedure. -/
def Obligations.SessionEndsWithRunOver : Prop :=
  ∀ s t : State, SessionInv s → s.pinReset = false → step s = .next t → s.sstate ≠ .idle → t.sstate = .idle → RunOver t

/-- R113, R15, R18 to R20: the transitions of SSTATE, ROW and ROWBUSY in a step without RESET are those of the table: none, CREATE, INIT
complete, a row opened, a row done, the end of the session; and SRATE, VIS and HEIGHT change only as a session begins. That the end of a
session keeps ROW, SRATE, VIS and HEIGHT in IDLE is the model's choice (assumption log 15, DESIGN CHOICE; U2 and R164 leave them open). -/
def Obligations.SessionTransitions : Prop :=
  ∀ s t : State, SessionInv s → s.pinReset = false → step s = .next t →
    ((t.sstate = s.sstate ∧ t.row = s.row ∧ t.rowbusy = s.rowbusy) ∨
     (s.sstate = .idle ∧ t.sstate = .created ∧ t.row = 0 ∧ t.rowbusy = false) ∨
     (s.sstate = .created ∧ t.sstate = .active ∧ t.row = 0 ∧ t.rowbusy = false) ∨
     (s.sstate = .active ∧ t.sstate = .active ∧ s.row.toNat < s.height.toNat ∧ t.row = s.row ∧ s.rowbusy = false ∧
       t.rowbusy = true) ∨
     (s.sstate = .active ∧ t.sstate = .active ∧ t.row.toNat = s.row.toNat + 1 ∧ s.rowbusy = true ∧ t.rowbusy = false) ∨
     (s.sstate ≠ .idle ∧ t.sstate = .idle ∧ t.row = s.row ∧ t.rowbusy = false)) ∧
    (¬(s.sstate = .idle ∧ t.sstate = .created) → t.srate = s.srate ∧ t.vis = s.vis ∧ t.height = s.height)

/-- R12: no command but RDREG 6 depends on TAIL: with another TAIL the outcome is the same in everything but TAIL. -/
def Obligations.TailHasNoEffect : Prop :=
  ∀ (i : Instr) (s t : State) (x : BitVec 64), i ≠ .rdreg 6 → exec i s = .next t →
    ∃ y, exec i { s with tail := x } = .next { t with tail := y }

/-- R22: no command but CREATE and INIT depends on the pins. -/
def Obligations.PinsMatterOnlyWhenSampled : Prop :=
  ∀ (i : Instr) (s t : State) (sr : BitVec 24) (h : BitVec 16) (tx : BitVec 32),
    (∀ a, i ≠ .create a) → i ≠ .init → exec i s = .next t →
    exec i { s with pinSinkSrate := sr, pinImgHeight := h, pinStratTxcount := tx } =
      .next { t with pinSinkSrate := sr, pinImgHeight := h, pinStratTxcount := tx }
end

