-- ==== Sys2Proof/Laws/Codec.lean ====
section
/-! SUPPORT. The fields of an encoded command, and what a decoded word says of its fields. -/

namespace Sys2Proof

variable (op : BitVec 8) (c : Bool) (a b : BitVec 32)

theorem packCmd_toNat :
    (packCmd op c a b).toNat = op.toNat * 2 ^ 88 + c.toNat * 2 ^ 64 + a.toNat * 2 ^ 32 + b.toNat := by
  have h1 : (packCmd op c a b).toNat =
      (((op.toNat <<< 23 ||| 0) <<< 1 ||| (BitVec.ofBool c).toNat) <<< 32 ||| a.toNat) <<< 32 ||| b.toNat := by
    refine (BitVec.toNat_append (op ++ (0 : BitVec 23) ++ BitVec.ofBool c ++ a) b).trans ?_
    rw [BitVec.toNat_append, BitVec.toNat_append, BitVec.toNat_append]
    rfl
  have hc : (BitVec.ofBool c).toNat = c.toNat := by cases c <;> rfl
  have hc1 : c.toNat < 2 ^ 1 := by cases c <;> decide
  rw [h1, hc, Nat.or_zero, ← Nat.shiftLeft_add_eq_or_of_lt hc1, ← Nat.shiftLeft_add_eq_or_of_lt a.isLt,
    ← Nat.shiftLeft_add_eq_or_of_lt b.isLt]
  simp only [Nat.shiftLeft_eq]
  ring

@[simp] theorem opField_packCmd : opField (packCmd op c a b) = op := by
  apply BitVec.eq_of_toNat_eq
  have := op.isLt; have := a.isLt; have := b.isLt
  have hc1 : c.toNat < 2 := by cases c <;> decide
  simp only [opField, BitVec.extractLsb'_toNat, packCmd_toNat, Nat.shiftRight_eq_div_pow]
  omega

@[simp] theorem rsvField_packCmd : rsvField (packCmd op c a b) = 0 := by
  apply BitVec.eq_of_toNat_eq
  have := op.isLt; have := a.isLt; have := b.isLt
  have hc1 : c.toNat < 2 := by cases c <;> decide
  simp only [rsvField, BitVec.extractLsb'_toNat, packCmd_toNat, Nat.shiftRight_eq_div_pow, BitVec.ofNat_eq_ofNat,
    BitVec.toNat_ofNat]
  omega

@[simp] theorem aField_packCmd : aField (packCmd op c a b) = a := by
  apply BitVec.eq_of_toNat_eq
  have := op.isLt; have := a.isLt; have := b.isLt
  have hc1 : c.toNat < 2 := by cases c <;> decide
  simp only [aField, BitVec.extractLsb'_toNat, packCmd_toNat, Nat.shiftRight_eq_div_pow]
  omega

@[simp] theorem bField_packCmd : bField (packCmd op c a b) = b := by
  apply BitVec.eq_of_toNat_eq
  have := op.isLt; have := a.isLt; have := b.isLt
  have hc1 : c.toNat < 2 := by cases c <;> decide
  simp only [bField, BitVec.extractLsb'_toNat, packCmd_toNat, Nat.shiftRight_eq_div_pow]
  omega

@[simp] theorem cField_packCmd : cField (packCmd op c a b) = c := by
  have := op.isLt; have := a.isLt; have := b.isLt
  simp only [cField, BitVec.getLsbD, Nat.testBit_eq_decide_div_mod_eq, packCmd_toNat]
  cases c <;> simp <;> omega

/-- A word is made of its five fields (R50). -/
theorem word_toNat (w : CmdWord) :
    w.toNat = (opField w).toNat * 2 ^ 88 + (rsvField w).toNat * 2 ^ 65 + (cField w).toNat * 2 ^ 64 +
      (aField w).toNat * 2 ^ 32 + (bField w).toNat := by
  have h := w.isLt
  have hc : (cField w).toNat = w.toNat / 2 ^ 64 % 2 := by
    simp only [cField, BitVec.getLsbD, Nat.testBit_eq_decide_div_mod_eq]
    rcases Nat.mod_two_eq_zero_or_one (w.toNat / 2 ^ 64) with h | h <;> rw [h] <;> rfl
  rw [hc]
  simp only [opField, rsvField, aField, bField, BitVec.extractLsb'_toNat, Nat.shiftRight_eq_div_pow]
  omega

/-- A word with RSV = 0 is `packCmd` of its fields. -/
theorem packCmd_fields {w : CmdWord} (h : rsvField w = 0) :
    packCmd (opField w) (cField w) (aField w) (bField w) = w := by
  apply BitVec.eq_of_toNat_eq
  rw [packCmd_toNat, word_toNat w, h]
  simp

/-- `requireZero` answers its command exactly when every check holds. -/
theorem requireZero_eq_ok (l : List (Bool × DecodeError)) (i j : Instr) :
    requireZero l i = .ok j ↔ (∀ x ∈ l, x.1 = true) ∧ i = j := by
  induction l with
  | nil => simp [requireZero]
  | cons x xs ih =>
    obtain ⟨z, e⟩ := x
    cases z <;> simp [requireZero, ih]

end Sys2Proof
end

