-- ==== Sys2Proof/Laws/State.lean ====
section
/-! SUPPORT. One lemma per field for each named update of State, true by rfl, so that no proof unfolds an update; and the equation
of each compound update. -/

namespace Sys2Proof.Machine

open Sys2Proof

variable (s : State) (e : Event) (p : Port) (rc : RC) (v : BitVec 64)

/-! ## emit -/

@[simp] theorem State.emit_sstate : (s.emit e).sstate = s.sstate := rfl
@[simp] theorem State.emit_rowbusy : (s.emit e).rowbusy = s.rowbusy := rfl
@[simp] theorem State.emit_srate : (s.emit e).srate = s.srate := rfl
@[simp] theorem State.emit_vis : (s.emit e).vis = s.vis := rfl
@[simp] theorem State.emit_height : (s.emit e).height = s.height := rfl
@[simp] theorem State.emit_row : (s.emit e).row = s.row := rfl
@[simp] theorem State.emit_phase : (s.emit e).phase = s.phase := rfl
@[simp] theorem State.emit_tail : (s.emit e).tail = s.tail := rfl
@[simp] theorem State.emit_txcount : (s.emit e).txcount = s.txcount := rfl
@[simp] theorem State.emit_total : (s.emit e).total = s.total := rfl
@[simp] theorem State.emit_hstep : (s.emit e).hstep = s.hstep := rfl
@[simp] theorem State.emit_par : (s.emit e).par = s.par := rfl
@[simp] theorem State.emit_segcnt : (s.emit e).segcnt = s.segcnt := rfl
@[simp] theorem State.emit_segftw : (s.emit e).segftw = s.segftw := rfl
@[simp] theorem State.emit_port : (s.emit e).port = s.port := rfl
@[simp] theorem State.emit_wait : (s.emit e).wait = s.wait := rfl
@[simp] theorem State.emit_owed : (s.emit e).owed = s.owed := rfl
@[simp] theorem State.emit_out : (s.emit e).out = s.out ++ [e] := rfl
@[simp] theorem State.emit_pinReset : (s.emit e).pinReset = s.pinReset := rfl
@[simp] theorem State.emit_pinSinkSrate : (s.emit e).pinSinkSrate = s.pinSinkSrate := rfl
@[simp] theorem State.emit_pinImgHeight : (s.emit e).pinImgHeight = s.pinImgHeight := rfl
@[simp] theorem State.emit_pinStratTxcount : (s.emit e).pinStratTxcount = s.pinStratTxcount := rfl
@[simp] theorem State.emit_hcmd : (s.emit e).hcmd = s.hcmd := rfl
@[simp] theorem State.emit_scmd : (s.emit e).scmd = s.scmd := rfl
@[simp] theorem State.emit_sinkAnswers : (s.emit e).sinkAnswers = s.sinkAnswers := rfl
@[simp] theorem State.emit_rowScript : (s.emit e).rowScript = s.rowScript := rfl
@[simp] theorem State.emit_draws : (s.emit e).draws = s.draws := rfl

/-! ## respond -/

@[simp] theorem State.respond_sstate : (s.respond p rc v).sstate = s.sstate := rfl
@[simp] theorem State.respond_rowbusy : (s.respond p rc v).rowbusy = s.rowbusy := rfl
@[simp] theorem State.respond_srate : (s.respond p rc v).srate = s.srate := rfl
@[simp] theorem State.respond_vis : (s.respond p rc v).vis = s.vis := rfl
@[simp] theorem State.respond_height : (s.respond p rc v).height = s.height := rfl
@[simp] theorem State.respond_row : (s.respond p rc v).row = s.row := rfl
@[simp] theorem State.respond_phase : (s.respond p rc v).phase = s.phase := rfl
@[simp] theorem State.respond_tail : (s.respond p rc v).tail = s.tail := rfl
@[simp] theorem State.respond_txcount : (s.respond p rc v).txcount = s.txcount := rfl
@[simp] theorem State.respond_total : (s.respond p rc v).total = s.total := rfl
@[simp] theorem State.respond_hstep : (s.respond p rc v).hstep = s.hstep := rfl
@[simp] theorem State.respond_par : (s.respond p rc v).par = s.par := rfl
@[simp] theorem State.respond_segcnt : (s.respond p rc v).segcnt = s.segcnt := rfl
@[simp] theorem State.respond_segftw : (s.respond p rc v).segftw = s.segftw := rfl
@[simp] theorem State.respond_port : (s.respond p rc v).port = s.port := rfl
@[simp] theorem State.respond_wait : (s.respond p rc v).wait = s.wait := rfl
@[simp] theorem State.respond_owed : (s.respond p rc v).owed = s.owed := rfl
@[simp] theorem State.respond_out : (s.respond p rc v).out = s.out ++ [rspEvent p rc v] := rfl
@[simp] theorem State.respond_pinReset : (s.respond p rc v).pinReset = s.pinReset := rfl
@[simp] theorem State.respond_pinSinkSrate : (s.respond p rc v).pinSinkSrate = s.pinSinkSrate := rfl
@[simp] theorem State.respond_pinImgHeight : (s.respond p rc v).pinImgHeight = s.pinImgHeight := rfl
@[simp] theorem State.respond_pinStratTxcount : (s.respond p rc v).pinStratTxcount = s.pinStratTxcount := rfl
@[simp] theorem State.respond_hcmd : (s.respond p rc v).hcmd = s.hcmd := rfl
@[simp] theorem State.respond_scmd : (s.respond p rc v).scmd = s.scmd := rfl
@[simp] theorem State.respond_sinkAnswers : (s.respond p rc v).sinkAnswers = s.sinkAnswers := rfl
@[simp] theorem State.respond_rowScript : (s.respond p rc v).rowScript = s.rowScript := rfl
@[simp] theorem State.respond_draws : (s.respond p rc v).draws = s.draws := rfl

@[simp] theorem rspEvent_hcmd : rspEvent .hcmd rc v = .hrsp rc v := rfl
@[simp] theorem rspEvent_scmd : rspEvent .scmd rc v = .srsp rc v := rfl

/-! ## setWait -/

@[simp] theorem State.setWait_sstate (w : Wait) : (s.setWait w).sstate = s.sstate := rfl
@[simp] theorem State.setWait_rowbusy (w : Wait) : (s.setWait w).rowbusy = s.rowbusy := rfl
@[simp] theorem State.setWait_srate (w : Wait) : (s.setWait w).srate = s.srate := rfl
@[simp] theorem State.setWait_vis (w : Wait) : (s.setWait w).vis = s.vis := rfl
@[simp] theorem State.setWait_height (w : Wait) : (s.setWait w).height = s.height := rfl
@[simp] theorem State.setWait_row (w : Wait) : (s.setWait w).row = s.row := rfl
@[simp] theorem State.setWait_phase (w : Wait) : (s.setWait w).phase = s.phase := rfl
@[simp] theorem State.setWait_tail (w : Wait) : (s.setWait w).tail = s.tail := rfl
@[simp] theorem State.setWait_txcount (w : Wait) : (s.setWait w).txcount = s.txcount := rfl
@[simp] theorem State.setWait_total (w : Wait) : (s.setWait w).total = s.total := rfl
@[simp] theorem State.setWait_hstep (w : Wait) : (s.setWait w).hstep = s.hstep := rfl
@[simp] theorem State.setWait_par (w : Wait) : (s.setWait w).par = s.par := rfl
@[simp] theorem State.setWait_segcnt (w : Wait) : (s.setWait w).segcnt = s.segcnt := rfl
@[simp] theorem State.setWait_segftw (w : Wait) : (s.setWait w).segftw = s.segftw := rfl
@[simp] theorem State.setWait_port (w : Wait) : (s.setWait w).port = s.port := rfl
@[simp] theorem State.setWait_wait (w : Wait) : (s.setWait w).wait = w := rfl
@[simp] theorem State.setWait_owed (w : Wait) : (s.setWait w).owed = s.owed := rfl
@[simp] theorem State.setWait_out (w : Wait) : (s.setWait w).out = s.out := rfl
@[simp] theorem State.setWait_pinReset (w : Wait) : (s.setWait w).pinReset = s.pinReset := rfl
@[simp] theorem State.setWait_pinSinkSrate (w : Wait) : (s.setWait w).pinSinkSrate = s.pinSinkSrate := rfl
@[simp] theorem State.setWait_pinImgHeight (w : Wait) : (s.setWait w).pinImgHeight = s.pinImgHeight := rfl
@[simp] theorem State.setWait_pinStratTxcount (w : Wait) : (s.setWait w).pinStratTxcount = s.pinStratTxcount := rfl
@[simp] theorem State.setWait_hcmd (w : Wait) : (s.setWait w).hcmd = s.hcmd := rfl
@[simp] theorem State.setWait_scmd (w : Wait) : (s.setWait w).scmd = s.scmd := rfl
@[simp] theorem State.setWait_sinkAnswers (w : Wait) : (s.setWait w).sinkAnswers = s.sinkAnswers := rfl
@[simp] theorem State.setWait_rowScript (w : Wait) : (s.setWait w).rowScript = s.rowScript := rfl
@[simp] theorem State.setWait_draws (w : Wait) : (s.setWait w).draws = s.draws := rfl

/-! ## endSession -/

@[simp] theorem endSession_sstate (c : Bool) : (endSession c s).sstate = .idle := rfl
@[simp] theorem endSession_rowbusy (c : Bool) : (endSession c s).rowbusy = s.rowbusy := rfl
@[simp] theorem endSession_srate (c : Bool) : (endSession c s).srate = s.srate := rfl
@[simp] theorem endSession_vis (c : Bool) : (endSession c s).vis = s.vis := rfl
@[simp] theorem endSession_height (c : Bool) : (endSession c s).height = s.height := rfl
@[simp] theorem endSession_row (c : Bool) : (endSession c s).row = s.row := rfl
@[simp] theorem endSession_phase (c : Bool) : (endSession c s).phase = s.phase := rfl
@[simp] theorem endSession_tail (c : Bool) : (endSession c s).tail = s.tail := rfl
@[simp] theorem endSession_txcount (c : Bool) : (endSession c s).txcount = s.txcount := rfl
@[simp] theorem endSession_total (c : Bool) : (endSession c s).total = s.total := rfl
@[simp] theorem endSession_hstep (c : Bool) : (endSession c s).hstep = s.hstep := rfl
@[simp] theorem endSession_par (c : Bool) : (endSession c s).par = s.par := rfl
@[simp] theorem endSession_segcnt (c : Bool) : (endSession c s).segcnt = s.segcnt := rfl
@[simp] theorem endSession_segftw (c : Bool) : (endSession c s).segftw = s.segftw := rfl
@[simp] theorem endSession_port (c : Bool) : (endSession c s).port = s.port := rfl
@[simp] theorem endSession_wait (c : Bool) : (endSession c s).wait = s.wait := rfl
@[simp] theorem endSession_owed (c : Bool) : (endSession c s).owed = s.owed := rfl
@[simp] theorem endSession_out (c : Bool) : (endSession c s).out = s.out ++ [.sinkFinish c, .imgRelease] := by simp [endSession]
@[simp] theorem endSession_pinReset (c : Bool) : (endSession c s).pinReset = s.pinReset := rfl
@[simp] theorem endSession_pinSinkSrate (c : Bool) : (endSession c s).pinSinkSrate = s.pinSinkSrate := rfl
@[simp] theorem endSession_pinImgHeight (c : Bool) : (endSession c s).pinImgHeight = s.pinImgHeight := rfl
@[simp] theorem endSession_pinStratTxcount (c : Bool) : (endSession c s).pinStratTxcount = s.pinStratTxcount := rfl
@[simp] theorem endSession_hcmd (c : Bool) : (endSession c s).hcmd = s.hcmd := rfl
@[simp] theorem endSession_scmd (c : Bool) : (endSession c s).scmd = s.scmd := rfl
@[simp] theorem endSession_sinkAnswers (c : Bool) : (endSession c s).sinkAnswers = s.sinkAnswers := rfl
@[simp] theorem endSession_rowScript (c : Bool) : (endSession c s).rowScript = s.rowScript := rfl
@[simp] theorem endSession_draws (c : Bool) : (endSession c s).draws = s.draws := rfl

/-! ## applyReset -/

@[simp] theorem applyReset_sstate : (applyReset s).sstate = State.reset.sstate := rfl
@[simp] theorem applyReset_rowbusy : (applyReset s).rowbusy = State.reset.rowbusy := rfl
@[simp] theorem applyReset_srate : (applyReset s).srate = State.reset.srate := rfl
@[simp] theorem applyReset_vis : (applyReset s).vis = State.reset.vis := rfl
@[simp] theorem applyReset_height : (applyReset s).height = State.reset.height := rfl
@[simp] theorem applyReset_row : (applyReset s).row = State.reset.row := rfl
@[simp] theorem applyReset_phase : (applyReset s).phase = State.reset.phase := rfl
@[simp] theorem applyReset_tail : (applyReset s).tail = State.reset.tail := rfl
@[simp] theorem applyReset_txcount : (applyReset s).txcount = State.reset.txcount := rfl
@[simp] theorem applyReset_total : (applyReset s).total = State.reset.total := rfl
@[simp] theorem applyReset_hstep : (applyReset s).hstep = State.reset.hstep := rfl
@[simp] theorem applyReset_par : (applyReset s).par = State.reset.par := rfl
@[simp] theorem applyReset_segcnt : (applyReset s).segcnt = State.reset.segcnt := rfl
@[simp] theorem applyReset_segftw : (applyReset s).segftw = State.reset.segftw := rfl
@[simp] theorem applyReset_port : (applyReset s).port = State.reset.port := rfl
@[simp] theorem applyReset_wait : (applyReset s).wait = State.reset.wait := rfl
@[simp] theorem applyReset_owed : (applyReset s).owed = State.reset.owed := rfl
@[simp] theorem applyReset_out : (applyReset s).out = State.reset.out := rfl
@[simp] theorem applyReset_pinReset : (applyReset s).pinReset = s.pinReset := rfl
@[simp] theorem applyReset_pinSinkSrate : (applyReset s).pinSinkSrate = s.pinSinkSrate := rfl
@[simp] theorem applyReset_pinImgHeight : (applyReset s).pinImgHeight = s.pinImgHeight := rfl
@[simp] theorem applyReset_pinStratTxcount : (applyReset s).pinStratTxcount = s.pinStratTxcount := rfl
@[simp] theorem applyReset_hcmd : (applyReset s).hcmd = s.hcmd := rfl
@[simp] theorem applyReset_scmd : (applyReset s).scmd = s.scmd := rfl
@[simp] theorem applyReset_sinkAnswers : (applyReset s).sinkAnswers = s.sinkAnswers := rfl
@[simp] theorem applyReset_rowScript : (applyReset s).rowScript = s.rowScript := rfl
@[simp] theorem applyReset_draws : (applyReset s).draws = s.draws := rfl

/-! ## loadSegment and enterSegment -/

@[simp] theorem setSegment_sstate (t : BitVec 64) (n w : BitVec 32) : (setSegment t n w s).sstate = s.sstate := rfl
@[simp] theorem loadSegment_sstate (f d : BitVec 32) : (loadSegment f d s).sstate = s.sstate := setSegment_sstate s _ _ _
@[simp] theorem setSegment_rowbusy (t : BitVec 64) (n w : BitVec 32) : (setSegment t n w s).rowbusy = s.rowbusy := rfl
@[simp] theorem loadSegment_rowbusy (f d : BitVec 32) : (loadSegment f d s).rowbusy = s.rowbusy := setSegment_rowbusy s _ _ _
@[simp] theorem setSegment_srate (t : BitVec 64) (n w : BitVec 32) : (setSegment t n w s).srate = s.srate := rfl
@[simp] theorem loadSegment_srate (f d : BitVec 32) : (loadSegment f d s).srate = s.srate := setSegment_srate s _ _ _
@[simp] theorem setSegment_vis (t : BitVec 64) (n w : BitVec 32) : (setSegment t n w s).vis = s.vis := rfl
@[simp] theorem loadSegment_vis (f d : BitVec 32) : (loadSegment f d s).vis = s.vis := setSegment_vis s _ _ _
@[simp] theorem setSegment_height (t : BitVec 64) (n w : BitVec 32) : (setSegment t n w s).height = s.height := rfl
@[simp] theorem loadSegment_height (f d : BitVec 32) : (loadSegment f d s).height = s.height := setSegment_height s _ _ _
@[simp] theorem setSegment_row (t : BitVec 64) (n w : BitVec 32) : (setSegment t n w s).row = s.row := rfl
@[simp] theorem loadSegment_row (f d : BitVec 32) : (loadSegment f d s).row = s.row := setSegment_row s _ _ _
@[simp] theorem setSegment_phase (t : BitVec 64) (n w : BitVec 32) : (setSegment t n w s).phase = s.phase := rfl
@[simp] theorem loadSegment_phase (f d : BitVec 32) : (loadSegment f d s).phase = s.phase := setSegment_phase s _ _ _
@[simp] theorem setSegment_tail (t : BitVec 64) (n w : BitVec 32) : (setSegment t n w s).tail = t := rfl
@[simp] theorem loadSegment_tail (f d : BitVec 32) : (loadSegment f d s).tail = s.tail + BitVec.ofInt 64 (res d s.srate) := setSegment_tail s _ _ _
@[simp] theorem setSegment_txcount (t : BitVec 64) (n w : BitVec 32) : (setSegment t n w s).txcount = s.txcount := rfl
@[simp] theorem loadSegment_txcount (f d : BitVec 32) : (loadSegment f d s).txcount = s.txcount := setSegment_txcount s _ _ _
@[simp] theorem setSegment_total (t : BitVec 64) (n w : BitVec 32) : (setSegment t n w s).total = s.total := rfl
@[simp] theorem loadSegment_total (f d : BitVec 32) : (loadSegment f d s).total = s.total := setSegment_total s _ _ _
@[simp] theorem setSegment_hstep (t : BitVec 64) (n w : BitVec 32) : (setSegment t n w s).hstep = s.hstep := rfl
@[simp] theorem loadSegment_hstep (f d : BitVec 32) : (loadSegment f d s).hstep = s.hstep := setSegment_hstep s _ _ _
@[simp] theorem setSegment_par (t : BitVec 64) (n w : BitVec 32) : (setSegment t n w s).par = s.par := rfl
@[simp] theorem loadSegment_par (f d : BitVec 32) : (loadSegment f d s).par = s.par := setSegment_par s _ _ _
@[simp] theorem setSegment_segcnt (t : BitVec 64) (n w : BitVec 32) : (setSegment t n w s).segcnt = n := rfl
@[simp] theorem loadSegment_segcnt (f d : BitVec 32) : (loadSegment f d s).segcnt = BitVec.ofNat 32 (nsamp d s.srate) := setSegment_segcnt s _ _ _
@[simp] theorem setSegment_segftw (t : BitVec 64) (n w : BitVec 32) : (setSegment t n w s).segftw = w := rfl
@[simp] theorem loadSegment_segftw (f d : BitVec 32) : (loadSegment f d s).segftw = ftw f s.srate := setSegment_segftw s _ _ _
@[simp] theorem setSegment_port (t : BitVec 64) (n w : BitVec 32) : (setSegment t n w s).port = s.port := rfl
@[simp] theorem loadSegment_port (f d : BitVec 32) : (loadSegment f d s).port = s.port := setSegment_port s _ _ _
@[simp] theorem setSegment_wait (t : BitVec 64) (n w : BitVec 32) : (setSegment t n w s).wait = s.wait := rfl
@[simp] theorem loadSegment_wait (f d : BitVec 32) : (loadSegment f d s).wait = s.wait := setSegment_wait s _ _ _
@[simp] theorem setSegment_owed (t : BitVec 64) (n w : BitVec 32) : (setSegment t n w s).owed = s.owed := rfl
@[simp] theorem loadSegment_owed (f d : BitVec 32) : (loadSegment f d s).owed = s.owed := setSegment_owed s _ _ _
@[simp] theorem setSegment_out (t : BitVec 64) (n w : BitVec 32) : (setSegment t n w s).out = s.out := rfl
@[simp] theorem loadSegment_out (f d : BitVec 32) : (loadSegment f d s).out = s.out := setSegment_out s _ _ _
@[simp] theorem setSegment_pinReset (t : BitVec 64) (n w : BitVec 32) : (setSegment t n w s).pinReset = s.pinReset := rfl
@[simp] theorem loadSegment_pinReset (f d : BitVec 32) : (loadSegment f d s).pinReset = s.pinReset := setSegment_pinReset s _ _ _
@[simp] theorem setSegment_pinSinkSrate (t : BitVec 64) (n w : BitVec 32) : (setSegment t n w s).pinSinkSrate = s.pinSinkSrate := rfl
@[simp] theorem loadSegment_pinSinkSrate (f d : BitVec 32) : (loadSegment f d s).pinSinkSrate = s.pinSinkSrate := setSegment_pinSinkSrate s _ _ _
@[simp] theorem setSegment_pinImgHeight (t : BitVec 64) (n w : BitVec 32) : (setSegment t n w s).pinImgHeight = s.pinImgHeight := rfl
@[simp] theorem loadSegment_pinImgHeight (f d : BitVec 32) : (loadSegment f d s).pinImgHeight = s.pinImgHeight := setSegment_pinImgHeight s _ _ _
@[simp] theorem setSegment_pinStratTxcount (t : BitVec 64) (n w : BitVec 32) : (setSegment t n w s).pinStratTxcount = s.pinStratTxcount := rfl
@[simp] theorem loadSegment_pinStratTxcount (f d : BitVec 32) : (loadSegment f d s).pinStratTxcount = s.pinStratTxcount := setSegment_pinStratTxcount s _ _ _
@[simp] theorem setSegment_hcmd (t : BitVec 64) (n w : BitVec 32) : (setSegment t n w s).hcmd = s.hcmd := rfl
@[simp] theorem loadSegment_hcmd (f d : BitVec 32) : (loadSegment f d s).hcmd = s.hcmd := setSegment_hcmd s _ _ _
@[simp] theorem setSegment_scmd (t : BitVec 64) (n w : BitVec 32) : (setSegment t n w s).scmd = s.scmd := rfl
@[simp] theorem loadSegment_scmd (f d : BitVec 32) : (loadSegment f d s).scmd = s.scmd := setSegment_scmd s _ _ _
@[simp] theorem setSegment_sinkAnswers (t : BitVec 64) (n w : BitVec 32) : (setSegment t n w s).sinkAnswers = s.sinkAnswers := rfl
@[simp] theorem loadSegment_sinkAnswers (f d : BitVec 32) : (loadSegment f d s).sinkAnswers = s.sinkAnswers := setSegment_sinkAnswers s _ _ _
@[simp] theorem setSegment_rowScript (t : BitVec 64) (n w : BitVec 32) : (setSegment t n w s).rowScript = s.rowScript := rfl
@[simp] theorem loadSegment_rowScript (f d : BitVec 32) : (loadSegment f d s).rowScript = s.rowScript := setSegment_rowScript s _ _ _
@[simp] theorem setSegment_draws (t : BitVec 64) (n w : BitVec 32) : (setSegment t n w s).draws = s.draws := rfl
@[simp] theorem loadSegment_draws (f d : BitVec 32) : (loadSegment f d s).draws = s.draws := setSegment_draws s _ _ _
@[simp] theorem enterSegment_sstate (k : Nat) (t : HeaderTone) : (enterSegment k t s).sstate = s.sstate := rfl
@[simp] theorem enterSegment_rowbusy (k : Nat) (t : HeaderTone) : (enterSegment k t s).rowbusy = s.rowbusy := rfl
@[simp] theorem enterSegment_srate (k : Nat) (t : HeaderTone) : (enterSegment k t s).srate = s.srate := rfl
@[simp] theorem enterSegment_vis (k : Nat) (t : HeaderTone) : (enterSegment k t s).vis = s.vis := rfl
@[simp] theorem enterSegment_height (k : Nat) (t : HeaderTone) : (enterSegment k t s).height = s.height := rfl
@[simp] theorem enterSegment_row (k : Nat) (t : HeaderTone) : (enterSegment k t s).row = s.row := rfl
@[simp] theorem enterSegment_phase (k : Nat) (t : HeaderTone) : (enterSegment k t s).phase = s.phase := rfl
@[simp] theorem enterSegment_tail (k : Nat) (t : HeaderTone) : (enterSegment k t s).tail = s.tail := rfl
@[simp] theorem enterSegment_txcount (k : Nat) (t : HeaderTone) : (enterSegment k t s).txcount = s.txcount := rfl
@[simp] theorem enterSegment_total (k : Nat) (t : HeaderTone) : (enterSegment k t s).total = s.total := rfl
@[simp] theorem enterSegment_hstep (k : Nat) (t : HeaderTone) : (enterSegment k t s).hstep = BitVec.ofNat 4 k := rfl
@[simp] theorem enterSegment_par (k : Nat) (t : HeaderTone) : (enterSegment k t s).par = parityAt t s.vis s.par := rfl
@[simp] theorem enterSegment_segcnt (k : Nat) (t : HeaderTone) : (enterSegment k t s).segcnt = s.segcnt := rfl
@[simp] theorem enterSegment_segftw (k : Nat) (t : HeaderTone) : (enterSegment k t s).segftw = s.segftw := rfl
@[simp] theorem enterSegment_port (k : Nat) (t : HeaderTone) : (enterSegment k t s).port = s.port := rfl
@[simp] theorem enterSegment_wait (k : Nat) (t : HeaderTone) : (enterSegment k t s).wait = s.wait := rfl
@[simp] theorem enterSegment_owed (k : Nat) (t : HeaderTone) : (enterSegment k t s).owed = s.owed := rfl
@[simp] theorem enterSegment_out (k : Nat) (t : HeaderTone) : (enterSegment k t s).out = s.out := rfl
@[simp] theorem enterSegment_pinReset (k : Nat) (t : HeaderTone) : (enterSegment k t s).pinReset = s.pinReset := rfl
@[simp] theorem enterSegment_pinSinkSrate (k : Nat) (t : HeaderTone) : (enterSegment k t s).pinSinkSrate = s.pinSinkSrate := rfl
@[simp] theorem enterSegment_pinImgHeight (k : Nat) (t : HeaderTone) : (enterSegment k t s).pinImgHeight = s.pinImgHeight := rfl
@[simp] theorem enterSegment_pinStratTxcount (k : Nat) (t : HeaderTone) : (enterSegment k t s).pinStratTxcount = s.pinStratTxcount := rfl
@[simp] theorem enterSegment_hcmd (k : Nat) (t : HeaderTone) : (enterSegment k t s).hcmd = s.hcmd := rfl
@[simp] theorem enterSegment_scmd (k : Nat) (t : HeaderTone) : (enterSegment k t s).scmd = s.scmd := rfl
@[simp] theorem enterSegment_sinkAnswers (k : Nat) (t : HeaderTone) : (enterSegment k t s).sinkAnswers = s.sinkAnswers := rfl
@[simp] theorem enterSegment_rowScript (k : Nat) (t : HeaderTone) : (enterSegment k t s).rowScript = s.rowScript := rfl
@[simp] theorem enterSegment_draws (k : Nat) (t : HeaderTone) : (enterSegment k t s).draws = s.draws := rfl

/-! ## strategyHears and openRow -/

@[simp] theorem strategyHears_sstate (r : BitVec 16) : (strategyHears r s).sstate = s.sstate := rfl
@[simp] theorem strategyHears_rowbusy (r : BitVec 16) : (strategyHears r s).rowbusy = s.rowbusy := rfl
@[simp] theorem strategyHears_srate (r : BitVec 16) : (strategyHears r s).srate = s.srate := rfl
@[simp] theorem strategyHears_vis (r : BitVec 16) : (strategyHears r s).vis = s.vis := rfl
@[simp] theorem strategyHears_height (r : BitVec 16) : (strategyHears r s).height = s.height := rfl
@[simp] theorem strategyHears_row (r : BitVec 16) : (strategyHears r s).row = s.row := rfl
@[simp] theorem strategyHears_phase (r : BitVec 16) : (strategyHears r s).phase = s.phase := rfl
@[simp] theorem strategyHears_tail (r : BitVec 16) : (strategyHears r s).tail = s.tail := rfl
@[simp] theorem strategyHears_txcount (r : BitVec 16) : (strategyHears r s).txcount = s.txcount := rfl
@[simp] theorem strategyHears_total (r : BitVec 16) : (strategyHears r s).total = s.total := rfl
@[simp] theorem strategyHears_hstep (r : BitVec 16) : (strategyHears r s).hstep = s.hstep := rfl
@[simp] theorem strategyHears_par (r : BitVec 16) : (strategyHears r s).par = s.par := rfl
@[simp] theorem strategyHears_segcnt (r : BitVec 16) : (strategyHears r s).segcnt = s.segcnt := rfl
@[simp] theorem strategyHears_segftw (r : BitVec 16) : (strategyHears r s).segftw = s.segftw := rfl
@[simp] theorem strategyHears_port (r : BitVec 16) : (strategyHears r s).port = s.port := rfl
@[simp] theorem strategyHears_wait (r : BitVec 16) : (strategyHears r s).wait = s.wait := rfl
@[simp] theorem strategyHears_owed (r : BitVec 16) : (strategyHears r s).owed = s.owed := rfl
@[simp] theorem strategyHears_out (r : BitVec 16) : (strategyHears r s).out = s.out := rfl
@[simp] theorem strategyHears_pinReset (r : BitVec 16) : (strategyHears r s).pinReset = s.pinReset := rfl
@[simp] theorem strategyHears_pinSinkSrate (r : BitVec 16) : (strategyHears r s).pinSinkSrate = s.pinSinkSrate := rfl
@[simp] theorem strategyHears_pinImgHeight (r : BitVec 16) : (strategyHears r s).pinImgHeight = s.pinImgHeight := rfl
@[simp] theorem strategyHears_pinStratTxcount (r : BitVec 16) : (strategyHears r s).pinStratTxcount = s.pinStratTxcount := rfl
@[simp] theorem strategyHears_hcmd (r : BitVec 16) : (strategyHears r s).hcmd = s.hcmd := rfl
@[simp] theorem strategyHears_scmd (r : BitVec 16) : (strategyHears r s).scmd = s.scmd ++ s.rowScript.getD r.toNat [] := rfl
@[simp] theorem strategyHears_sinkAnswers (r : BitVec 16) : (strategyHears r s).sinkAnswers = s.sinkAnswers := rfl
@[simp] theorem strategyHears_rowScript (r : BitVec 16) : (strategyHears r s).rowScript = s.rowScript := rfl
@[simp] theorem strategyHears_draws (r : BitVec 16) : (strategyHears r s).draws = s.draws := rfl
@[simp] theorem openRow_sstate : (openRow s).sstate = s.sstate := rfl
@[simp] theorem openRow_rowbusy : (openRow s).rowbusy = true := rfl
@[simp] theorem openRow_srate : (openRow s).srate = s.srate := rfl
@[simp] theorem openRow_vis : (openRow s).vis = s.vis := rfl
@[simp] theorem openRow_height : (openRow s).height = s.height := rfl
@[simp] theorem openRow_row : (openRow s).row = s.row := rfl
@[simp] theorem openRow_phase : (openRow s).phase = s.phase := rfl
@[simp] theorem openRow_tail : (openRow s).tail = s.tail := rfl
@[simp] theorem openRow_txcount : (openRow s).txcount = s.txcount := rfl
@[simp] theorem openRow_total : (openRow s).total = s.total := rfl
@[simp] theorem openRow_hstep : (openRow s).hstep = s.hstep := rfl
@[simp] theorem openRow_par : (openRow s).par = s.par := rfl
@[simp] theorem openRow_segcnt : (openRow s).segcnt = s.segcnt := rfl
@[simp] theorem openRow_segftw : (openRow s).segftw = s.segftw := rfl
@[simp] theorem openRow_port : (openRow s).port = s.port := rfl
@[simp] theorem openRow_wait : (openRow s).wait = s.wait := rfl
@[simp] theorem openRow_owed : (openRow s).owed = s.owed := rfl
@[simp] theorem openRow_out : (openRow s).out = s.out ++ [.rowReq s.row] := rfl
@[simp] theorem openRow_pinReset : (openRow s).pinReset = s.pinReset := rfl
@[simp] theorem openRow_pinSinkSrate : (openRow s).pinSinkSrate = s.pinSinkSrate := rfl
@[simp] theorem openRow_pinImgHeight : (openRow s).pinImgHeight = s.pinImgHeight := rfl
@[simp] theorem openRow_pinStratTxcount : (openRow s).pinStratTxcount = s.pinStratTxcount := rfl
@[simp] theorem openRow_hcmd : (openRow s).hcmd = s.hcmd := rfl
@[simp] theorem openRow_scmd : (openRow s).scmd = s.scmd ++ s.rowScript.getD s.row.toNat [] := rfl
@[simp] theorem openRow_sinkAnswers : (openRow s).sinkAnswers = s.sinkAnswers := rfl
@[simp] theorem openRow_rowScript : (openRow s).rowScript = s.rowScript := rfl
@[simp] theorem openRow_draws : (openRow s).draws = s.draws := rfl

/-! ## createSession and initSession -/

@[simp] theorem createSession_sstate (a : BitVec 32) : (createSession a s).sstate = .created := rfl
@[simp] theorem createSession_rowbusy (a : BitVec 32) : (createSession a s).rowbusy = s.rowbusy := rfl
@[simp] theorem createSession_srate (a : BitVec 32) : (createSession a s).srate = s.pinSinkSrate := rfl
@[simp] theorem createSession_vis (a : BitVec 32) : (createSession a s).vis = a.setWidth 7 := rfl
@[simp] theorem createSession_height (a : BitVec 32) : (createSession a s).height = s.pinImgHeight := rfl
@[simp] theorem createSession_row (a : BitVec 32) : (createSession a s).row = 0 := rfl
@[simp] theorem createSession_phase (a : BitVec 32) : (createSession a s).phase = 0 := rfl
@[simp] theorem createSession_tail (a : BitVec 32) : (createSession a s).tail = 0 := rfl
@[simp] theorem createSession_txcount (a : BitVec 32) : (createSession a s).txcount = 0 := rfl
@[simp] theorem createSession_total (a : BitVec 32) : (createSession a s).total = 0 := rfl
@[simp] theorem createSession_hstep (a : BitVec 32) : (createSession a s).hstep = s.hstep := rfl
@[simp] theorem createSession_par (a : BitVec 32) : (createSession a s).par = s.par := rfl
@[simp] theorem createSession_segcnt (a : BitVec 32) : (createSession a s).segcnt = s.segcnt := rfl
@[simp] theorem createSession_segftw (a : BitVec 32) : (createSession a s).segftw = s.segftw := rfl
@[simp] theorem createSession_port (a : BitVec 32) : (createSession a s).port = s.port := rfl
@[simp] theorem createSession_wait (a : BitVec 32) : (createSession a s).wait = s.wait := rfl
@[simp] theorem createSession_owed (a : BitVec 32) : (createSession a s).owed = s.owed := rfl
@[simp] theorem createSession_out (a : BitVec 32) : (createSession a s).out = s.out := rfl
@[simp] theorem createSession_pinReset (a : BitVec 32) : (createSession a s).pinReset = s.pinReset := rfl
@[simp] theorem createSession_pinSinkSrate (a : BitVec 32) : (createSession a s).pinSinkSrate = s.pinSinkSrate := rfl
@[simp] theorem createSession_pinImgHeight (a : BitVec 32) : (createSession a s).pinImgHeight = s.pinImgHeight := rfl
@[simp] theorem createSession_pinStratTxcount (a : BitVec 32) : (createSession a s).pinStratTxcount = s.pinStratTxcount := rfl
@[simp] theorem createSession_hcmd (a : BitVec 32) : (createSession a s).hcmd = s.hcmd := rfl
@[simp] theorem createSession_scmd (a : BitVec 32) : (createSession a s).scmd = s.scmd := rfl
@[simp] theorem createSession_sinkAnswers (a : BitVec 32) : (createSession a s).sinkAnswers = s.sinkAnswers := rfl
@[simp] theorem createSession_rowScript (a : BitVec 32) : (createSession a s).rowScript = s.rowScript := rfl
@[simp] theorem createSession_draws (a : BitVec 32) : (createSession a s).draws = s.draws := rfl
@[simp] theorem initSession_sstate : (initSession s).sstate = s.sstate := rfl
@[simp] theorem initSession_rowbusy : (initSession s).rowbusy = s.rowbusy := rfl
@[simp] theorem initSession_srate : (initSession s).srate = s.srate := rfl
@[simp] theorem initSession_vis : (initSession s).vis = s.vis := rfl
@[simp] theorem initSession_height : (initSession s).height = s.height := rfl
@[simp] theorem initSession_row : (initSession s).row = 0 := rfl
@[simp] theorem initSession_phase : (initSession s).phase = 0 := rfl
@[simp] theorem initSession_tail : (initSession s).tail = 0 := rfl
@[simp] theorem initSession_txcount : (initSession s).txcount = s.pinStratTxcount := rfl
@[simp] theorem initSession_total : (initSession s).total = totalOf s.srate s.pinStratTxcount := rfl
@[simp] theorem initSession_hstep : (initSession s).hstep = s.hstep := rfl
@[simp] theorem initSession_par : (initSession s).par = s.par := rfl
@[simp] theorem initSession_segcnt : (initSession s).segcnt = s.segcnt := rfl
@[simp] theorem initSession_segftw : (initSession s).segftw = s.segftw := rfl
@[simp] theorem initSession_port : (initSession s).port = s.port := rfl
@[simp] theorem initSession_wait : (initSession s).wait = s.wait := rfl
@[simp] theorem initSession_owed : (initSession s).owed = s.owed := rfl
@[simp] theorem initSession_out : (initSession s).out = s.out := rfl
@[simp] theorem initSession_pinReset : (initSession s).pinReset = s.pinReset := rfl
@[simp] theorem initSession_pinSinkSrate : (initSession s).pinSinkSrate = s.pinSinkSrate := rfl
@[simp] theorem initSession_pinImgHeight : (initSession s).pinImgHeight = s.pinImgHeight := rfl
@[simp] theorem initSession_pinStratTxcount : (initSession s).pinStratTxcount = s.pinStratTxcount := rfl
@[simp] theorem initSession_hcmd : (initSession s).hcmd = s.hcmd := rfl
@[simp] theorem initSession_scmd : (initSession s).scmd = s.scmd := rfl
@[simp] theorem initSession_sinkAnswers : (initSession s).sinkAnswers = s.sinkAnswers := rfl
@[simp] theorem initSession_rowScript : (initSession s).rowScript = s.rowScript := rfl
@[simp] theorem initSession_draws : (initSession s).draws = s.draws := rfl

/-! ## The errors -/

/-- The three errors that change nothing: the response is all they do (spec/60_exceptions.md R131, R133, R134). -/
theorem raise_eq_respond (err : Error) (h : err ≠ .sinkFailure) : raise err s = s.respond s.port err.rc 0 := by
  cases err <;> first | rfl | exact absurd rfl h

/-- SinkAbort outside a row: the failed command is INIT (R132). -/
theorem sinkAbort_of_not_rowbusy (h : s.rowbusy = false) :
    sinkAbort s = { s with sstate := .idle, out := s.out ++ [.sinkFinish true, .imgRelease, .hrsp .sinkFailure 0] } := by
  simp [sinkAbort, abortRow, h, endSession, State.respond, State.emit, rspEvent]

/-- SinkAbort in an open row: the failed command is a tone (R132). -/
theorem sinkAbort_of_rowbusy (h : s.rowbusy = true) :
    sinkAbort s = { s with
      sstate := .idle
      rowbusy := false
      out := s.out ++ [.srsp .sinkFailure 0, .rowAbort, .sinkFinish true, .imgRelease, .hrsp .sinkFailure 0] } := by
  simp [sinkAbort, abortRow, h, endSession, State.respond, State.emit, rspEvent]

/-- What an abort leaves, whichever command failed (R132). -/
theorem sinkAbort_eq :
    sinkAbort s = { s with
      sstate := .idle
      rowbusy := false
      out := s.out ++ (if s.rowbusy then [.srsp .sinkFailure 0, .rowAbort] else []) ++
        [.sinkFinish true, .imgRelease, .hrsp .sinkFailure 0] } := by
  cases h : s.rowbusy
  · rw [sinkAbort_of_not_rowbusy s h]
    cases s
    simp_all
  · rw [sinkAbort_of_rowbusy s h]
    simp

end Sys2Proof.Machine
end

