-- ==== Sys2Proof/Laws/Sink.lean ====
section
/-! SUPPORT. What the operations that talk to the sink can do: one law for each, to be cited instead of unfolding it. -/

namespace Sys2Proof.Machine

open Sys2Proof

/-! ## SinkRun -/

section run
variable (s : State) (k : State → SinkRun) (w : Wait) (f : State → State)

@[simp] theorem SinkRun.done_andThen : (SinkRun.done s).andThen k = k s := rfl
@[simp] theorem SinkRun.failed_andThen : (SinkRun.failed s).andThen k = .failed s := rfl
@[simp] theorem SinkRun.waiting_andThen : (SinkRun.waiting s).andThen k = .waiting s := rfl
@[simp] theorem SinkRun.done_mark : (SinkRun.done s).mark w = .done s := rfl
@[simp] theorem SinkRun.failed_mark : (SinkRun.failed s).mark w = .failed s := rfl
@[simp] theorem SinkRun.waiting_mark : (SinkRun.waiting s).mark w = .waiting (s.setWait w) := rfl
@[simp] theorem SinkRun.done_settle : (SinkRun.done s).settle f = .next (f s) := rfl
@[simp] theorem SinkRun.failed_settle : (SinkRun.failed s).settle f = .next (sinkAbort s) := rfl
@[simp] theorem SinkRun.waiting_settle : (SinkRun.waiting s).settle f = .next s := rfl

end run

theorem SinkRun.andThen_assoc (r : SinkRun) (k l : State → SinkRun) :
    (r.andThen k).andThen l = r.andThen fun s => (k s).andThen l := by
  cases r <;> rfl

theorem SinkRun.mark_andThen (r : SinkRun) (w : Wait) (k : State → SinkRun) :
    (r.andThen k).mark w = (r.mark w).andThen fun s => (k s).mark w := by
  cases r <;> rfl

/-- The state a run carries has a property, whichever way the run ends. -/
def SinkRun.Carries (P : State → Prop) : SinkRun → Prop
  | .done s => P s
  | .failed s => P s
  | .waiting s => P s

@[simp] theorem SinkRun.carries_done (P : State → Prop) (s : State) : (SinkRun.done s).Carries P ↔ P s := Iff.rfl
@[simp] theorem SinkRun.carries_failed (P : State → Prop) (s : State) : (SinkRun.failed s).Carries P ↔ P s := Iff.rfl
@[simp] theorem SinkRun.carries_waiting (P : State → Prop) (s : State) : (SinkRun.waiting s).Carries P ↔ P s := Iff.rfl

theorem SinkRun.Carries.imp {P Q : State → Prop} {r : SinkRun} (h : r.Carries P) (hPQ : ∀ s, P s → Q s) : r.Carries Q := by
  cases r <;> exact hPQ _ h

theorem SinkRun.Carries.andThen {P : State → Prop} {r : SinkRun} {k : State → SinkRun} (h : r.Carries P)
    (hk : ∀ s, P s → (k s).Carries P) : (r.andThen k).Carries P := by
  cases r <;> first | exact hk _ h | exact h

/-- Every run that settles gives a next state, and it is one of three. -/
theorem SinkRun.settle_cases (r : SinkRun) (f : State → State) :
    (∃ t, r = .done t ∧ r.settle f = .next (f t)) ∨ (∃ t, r = .failed t ∧ r.settle f = .next (sinkAbort t)) ∨
      ∃ t, r = .waiting t ∧ r.settle f = .next t := by
  cases r with
  | done t => exact .inl ⟨t, rfl, rfl⟩
  | failed t => exact .inr (.inl ⟨t, rfl, rfl⟩)
  | waiting t => exact .inr (.inr ⟨t, rfl, rfl⟩)

/-! ## takeAnswer, sinkEvent, sample -/

section answers
variable {s : State} {rest : List Answer}

theorem takeAnswer_nil (h : s.sinkAnswers = []) : takeAnswer s = .waiting s := by
  simp [takeAnswer, h]

theorem takeAnswer_ack (h : s.sinkAnswers = .ack :: rest) : takeAnswer s = .done { s with sinkAnswers := rest } := by
  simp [takeAnswer, h]

theorem takeAnswer_fail (h : s.sinkAnswers = .fail :: rest) : takeAnswer s = .failed { s with sinkAnswers := rest } := by
  simp [takeAnswer, h]

end answers

/-- A sample answered ACK (R74). -/
theorem sample_ack (w : BitVec 32) {s : State} {rest : List Answer} (h : s.sinkAnswers = .ack :: rest) :
    sample w s = .done { s with
      phase := s.phase + w
      sinkAnswers := rest
      out := s.out ++ [.sinkWrite (sinq (s.phase + w))] } := by
  simp [sample, sinkEvent, takeAnswer, State.emit, h]

/-- A sample answered FAIL: PHASE has already advanced (R74). -/
theorem sample_fail (w : BitVec 32) {s : State} {rest : List Answer} (h : s.sinkAnswers = .fail :: rest) :
    sample w s = .failed { s with
      phase := s.phase + w
      sinkAnswers := rest
      out := s.out ++ [.sinkWrite (sinq (s.phase + w))] } := by
  simp [sample, sinkEvent, takeAnswer, State.emit, h]

/-- A sample without an answer yet. -/
theorem sample_nil (w : BitVec 32) {s : State} (h : s.sinkAnswers = []) :
    sample w s = .waiting { s with
      phase := s.phase + w
      out := s.out ++ [.sinkWrite (sinq (s.phase + w))] } := by
  simp [sample, sinkEvent, takeAnswer, State.emit, h]

/-! ## The events and the phase of a segment -/

@[simp] theorem toneEvents_zero (w p : BitVec 32) : toneEvents 0 w p = [] := rfl

theorem toneEvents_succ (n : Nat) (w p : BitVec 32) :
    toneEvents (n + 1) w p = .sinkWrite (sinq (p + w)) :: toneEvents n w (p + w) := rfl

@[simp] theorem toneEvents_length (n : Nat) (w p : BitVec 32) : (toneEvents n w p).length = n := by
  induction n generalizing p with
  | zero => rfl
  | succ n ih => simp [toneEvents_succ, ih]

@[simp] theorem phaseAfter_zero (w p : BitVec 32) : phaseAfter 0 w p = p := by simp [phaseAfter]

theorem phaseAfter_succ (n : Nat) (w p : BitVec 32) : phaseAfter (n + 1) w p = phaseAfter n w (p + w) := by
  have h : BitVec.ofNat 32 (n + 1) = BitVec.ofNat 32 n + 1#32 := by
    apply BitVec.eq_of_toNat_eq
    simp
  have h1 : (BitVec.ofNat 32 n + 1#32) * w = BitVec.ofNat 32 n * w + w := by
    rw [BitVec.add_mul, BitVec.one_mul]
  rw [phaseAfter, phaseAfter, h, h1, BitVec.add_comm _ w, BitVec.add_assoc]

theorem phaseAfter_add (m n : Nat) (w p : BitVec 32) : phaseAfter (m + n) w p = phaseAfter n w (phaseAfter m w p) := by
  induction m generalizing p with
  | zero => simp
  | succ m ih => rw [Nat.succ_add, phaseAfter_succ, phaseAfter_succ, ih]

/-! ## The samples of a segment -/

/-- A list of answers gives `n` events `n` ACKs, or a FAIL first, or runs out first. -/
theorem answers_cases (n : Nat) (l : List Answer) :
    (∃ rest, l = List.replicate n .ack ++ rest) ∨
      (∃ k rest, k < n ∧ l = List.replicate k .ack ++ .fail :: rest) ∨ ∃ k, k < n ∧ l = List.replicate k .ack := by
  induction n generalizing l with
  | zero => exact .inl ⟨l, rfl⟩
  | succ n ih =>
    match l with
    | [] => exact .inr (.inr ⟨0, by omega, rfl⟩)
    | .fail :: rest => exact .inr (.inl ⟨0, rest, by omega, rfl⟩)
    | .ack :: l =>
      rcases ih l with ⟨rest, h⟩ | ⟨k, rest, hk, h⟩ | ⟨k, hk, h⟩
      · exact .inl ⟨rest, by rw [h]; rfl⟩
      · exact .inr (.inl ⟨k + 1, rest, by omega, by rw [h]; rfl⟩)
      · exact .inr (.inr ⟨k + 1, by omega, by rw [h]; rfl⟩)

/-- Every sample of the segment answered ACK (R75). -/
theorem samples_ack (n : Nat) (s : State) (rest : List Answer) (h : s.sinkAnswers = List.replicate n .ack ++ rest) :
    samples n s = .done { s with
      phase := phaseAfter n s.segftw s.phase
      segcnt := if n = 0 then s.segcnt else 0
      sinkAnswers := rest
      out := s.out ++ toneEvents n s.segftw s.phase } := by
  induction n generalizing s with
  | zero =>
    simp only [List.replicate_zero, List.nil_append] at h
    subst h
    simp [samples]
  | succ n ih =>
    rw [List.replicate_succ, List.cons_append] at h
    rw [samples, sample_ack _ (rest := List.replicate n .ack ++ rest) (by simpa using h), SinkRun.done_andThen, ih _ rfl]
    by_cases hn : n = 0 <;>
      simp [hn, toneEvents_succ, phaseAfter_succ]

/-- The `k`-th sample (counting from 0) of the segment answered FAIL, those before it ACK (R75). -/
theorem samples_fail (n k : Nat) (s : State) (rest : List Answer) (hk : k < n)
    (h : s.sinkAnswers = List.replicate k .ack ++ .fail :: rest) :
    samples n s = .failed { s with
      phase := phaseAfter (k + 1) s.segftw s.phase
      segcnt := BitVec.ofNat 32 (n - 1 - k)
      sinkAnswers := rest
      out := s.out ++ toneEvents (k + 1) s.segftw s.phase } := by
  induction n generalizing s k with
  | zero => omega
  | succ n ih =>
    cases k with
    | zero =>
      rw [samples, sample_fail _ (rest := rest) (by simpa using h)]
      simp [toneEvents_succ, phaseAfter_succ]
    | succ k =>
      rw [List.replicate_succ, List.cons_append] at h
      rw [samples, sample_ack _ (rest := List.replicate k .ack ++ .fail :: rest) (by simpa using h), SinkRun.done_andThen,
        ih k _ (by omega) rfl]
      simp [toneEvents_succ, phaseAfter_succ, show n - 1 - k = n + 1 - 1 - (k + 1) by omega]

/-- The sink stops answering after `k` ACKs: the segment waits at its next sample (R33, R75). -/
theorem samples_wait (n k : Nat) (s : State) (hk : k < n) (h : s.sinkAnswers = List.replicate k .ack) :
    samples n s = .waiting { s with
      phase := phaseAfter (k + 1) s.segftw s.phase
      segcnt := BitVec.ofNat 32 (n - 1 - k)
      sinkAnswers := []
      out := s.out ++ toneEvents (k + 1) s.segftw s.phase } := by
  induction n generalizing s k with
  | zero => omega
  | succ n ih =>
    cases k with
    | zero =>
      rw [samples, sample_nil _ (by simpa using h)]
      simp only [List.replicate_zero] at h
      simp [toneEvents_succ, phaseAfter_succ, h]
    | succ k =>
      rw [List.replicate_succ] at h
      rw [samples, sample_ack _ (rest := List.replicate k .ack) (by simpa using h), SinkRun.done_andThen,
        ih k _ (by omega) rfl]
      simp [toneEvents_succ, phaseAfter_succ, show n - 1 - k = n + 1 - 1 - (k + 1) by omega]

/-! ## What talking to the sink leaves alone -/

/-- `t` differs from `s` only in what the oscillator and the header sequencer write while they talk to the sink: PHASE, TAIL, HSTEP,
PAR, SEGCNT, SEGFTW, the answers taken and the trace, which only grows, by sink events. -/
structure SinkFrame (s t : State) : Prop where
  same : t = { s with
    phase := t.phase
    tail := t.tail
    hstep := t.hstep
    par := t.par
    segcnt := t.segcnt
    segftw := t.segftw
    sinkAnswers := t.sinkAnswers
    out := t.out }
  grows : ∃ es, t.out = s.out ++ es ∧ ∀ e ∈ es, ∃ x, e = .sinkWrite x
  takes : t.sinkAnswers <:+ s.sinkAnswers

theorem SinkFrame.refl (s : State) : SinkFrame s s := ⟨rfl, ⟨[], by simp⟩, List.suffix_rfl⟩

theorem SinkFrame.trans {s t u : State} (h : SinkFrame s t) (k : SinkFrame t u) : SinkFrame s u := by
  obtain ⟨hs, ⟨es, he, hw⟩, ha⟩ := h
  obtain ⟨ks, ⟨fs, ke, kw⟩, ka⟩ := k
  refine ⟨?_, ⟨es ++ fs, by rw [ke, he, List.append_assoc], ?_⟩, ka.trans ha⟩
  · rw [ks, hs]
  · intro e hm
    rcases List.mem_append.mp hm with h1 | h1
    · exact hw e h1
    · exact kw e h1

theorem toneEvents_writes (n : Nat) (w p : BitVec 32) : ∀ e ∈ toneEvents n w p, ∃ x, e = .sinkWrite x := by
  induction n generalizing p with
  | zero => simp
  | succ n ih =>
    intro e he
    rcases List.mem_cons.mp he with h | h
    · exact ⟨_, h⟩
    · exact ih _ e h

theorem samples_frame (n : Nat) (s : State) : (samples n s).Carries (SinkFrame s) := by
  rcases answers_cases n s.sinkAnswers with ⟨rest, h⟩ | ⟨k, rest, hk, h⟩ | ⟨k, hk, h⟩
  · rw [samples_ack n s rest h]
    exact ⟨rfl, ⟨_, rfl, toneEvents_writes _ _ _⟩, by rw [h]; exact List.suffix_append _ _⟩
  · rw [samples_fail n k s rest hk h]
    refine ⟨rfl, ⟨_, rfl, toneEvents_writes _ _ _⟩, ?_⟩
    rw [h]
    exact (List.suffix_cons _ _).trans (List.suffix_append _ _)
  · rw [samples_wait n k s hk h]
    exact ⟨rfl, ⟨_, rfl, toneEvents_writes _ _ _⟩, List.nil_suffix⟩

theorem sample_frame (w : BitVec 32) (s : State) : (sample w s).Carries (SinkFrame s) := by
  match h : s.sinkAnswers with
  | [] =>
    rw [sample_nil w h]
    exact ⟨rfl, ⟨_, rfl, by simp⟩, List.suffix_rfl⟩
  | .ack :: rest =>
    rw [sample_ack w h]
    exact ⟨rfl, ⟨_, rfl, by simp⟩, by rw [h]; exact List.suffix_cons _ _⟩
  | .fail :: rest =>
    rw [sample_fail w h]
    exact ⟨rfl, ⟨_, rfl, by simp⟩, by rw [h]; exact List.suffix_cons _ _⟩

theorem setSegment_frame (t : BitVec 64) (n w : BitVec 32) (s : State) : SinkFrame s (setSegment t n w s) :=
  ⟨rfl, ⟨[], by simp⟩, List.suffix_rfl⟩

theorem loadSegment_frame (f d : BitVec 32) (s : State) : SinkFrame s (loadSegment f d s) :=
  setSegment_frame _ _ _ s

theorem setParity_frame (b : Bool) (s : State) : SinkFrame s { s with par := b } :=
  ⟨rfl, ⟨[], by simp⟩, List.suffix_rfl⟩

theorem enterSegment_frame (k : Nat) (t : HeaderTone) (s : State) : SinkFrame s (enterSegment k t s) :=
  ⟨rfl, ⟨[], by simp⟩, List.suffix_rfl⟩

theorem toneSeg_frame (f d : BitVec 32) (s : State) : (toneSeg f d s).Carries (SinkFrame s) :=
  (samples_frame _ _).imp fun _ h => (loadSegment_frame f d s).trans h

theorem segmentsFrom_frame (k : Nat) (table : List (HeaderTone × BitVec 32)) (s : State) :
    (segmentsFrom k table s).Carries (SinkFrame s) := by
  induction table generalizing k s with
  | nil => exact SinkFrame.refl s
  | cons x rest ih =>
    refine SinkRun.Carries.andThen ?_ fun t ht => (ih (k + 1) t).imp fun u hu => ht.trans hu
    exact (toneSeg_frame _ _ _).imp fun _ h => (enterSegment_frame k x.1 s).trans h

theorem writeHeader_frame (s : State) : (writeHeader s).Carries (SinkFrame s) :=
  (segmentsFrom_frame _ _ _).imp fun _ h => (setParity_frame false s).trans h

theorem resumeHeader_frame (s : State) : (resumeHeader s).Carries (SinkFrame s) :=
  (samples_frame _ _).andThen fun _ ht => (segmentsFrom_frame _ _ _).imp fun _ hu => ht.trans hu

end Sys2Proof.Machine
end

