-- ==== Sys2Proof/Laws/Step.lean ====
section
/-! SUPPORT. What admitting, accepting and one step can do: one inversion law for each, to be cited instead of unfolding it. -/

namespace Sys2Proof.Machine

open Sys2Proof

/-! ## whenAllowed -/

/-- A command is answered ILLEGAL_COMMAND, or ILLEGAL_STATE, or its body runs (spec/30_encoding.md R57). -/
theorem whenAllowed_cases (i : Instr) (s : State) (body : State → Result) :
    ((s.port ∉ i.ports ∨ badOperand i = true) ∧ whenAllowed i s body = .next (s.respond s.port .illegalCommand 0)) ∨
    (s.port ∈ i.ports ∧ badOperand i = false ∧ stateAllows i s = false ∧
      whenAllowed i s body = .next (s.respond s.port .illegalState 0)) ∨
    (s.port ∈ i.ports ∧ badOperand i = false ∧ stateAllows i s = true ∧ whenAllowed i s body = body s) := by
  unfold whenAllowed
  by_cases hp : s.port ∈ i.ports
  · cases hb : badOperand i
    · cases ha : stateAllows i s
      · exact .inr (.inl ⟨hp, rfl, rfl, by simp [hp, raise]⟩)
      · exact .inr (.inr ⟨hp, rfl, rfl, by simp [hp]⟩)
    · exact .inl ⟨.inr rfl, by simp [hp, raise]⟩
  · exact .inl ⟨.inl hp, by simp [hp, raise]⟩

/-- A command whose checks hold runs its body. -/
theorem whenAllowed_body {i : Instr} {s : State} (body : State → Result) (hp : s.port ∈ i.ports) (hb : badOperand i = false)
    (ha : stateAllows i s = true) : whenAllowed i s body = body s := by
  simp [whenAllowed, hp, hb, ha]

theorem withRate_pos {s : State} (body : State → Result) (h : s.srate ≠ 0) : withRate s body = body s :=
  if_neg h

theorem withRate_zero {s : State} (body : State → Result) (h : s.srate = 0) :
    withRate s body = .fault .zeroSampleRate := by
  simp [withRate, h]

/-! ## accept -/

/-- Accepting takes the first word of one port, and touches nothing but that queue, the port in use and the arbitration
(spec/20_memory.md R32). -/
theorem acceptFrom_cases {p : Port} {s t : State} {w : CmdWord} (h : acceptFrom p s = some (w, t)) :
    (p = .hcmd ∧ s.hcmd = w :: t.hcmd ∧ t = { s with hcmd := t.hcmd, port := .hcmd, owed := none }) ∨
    (p = .scmd ∧ s.scmd = w :: t.scmd ∧ t = { s with scmd := t.scmd, port := .scmd, owed := none }) := by
  cases p with
  | hcmd =>
    simp only [acceptFrom] at h
    split at h
    · cases h
    · next heq => cases h; exact .inl ⟨rfl, heq, rfl⟩
  | scmd =>
    simp only [acceptFrom] at h
    split at h
    · cases h
    · next heq => cases h; exact .inr ⟨rfl, heq, rfl⟩

/-- What an accepted command finds: the first word of one port is taken; from HCMD only if no row is open; nothing else changes but
the port in use and the arbitration (spec/20_memory.md R32). -/
theorem accept_cases {s t : State} {w : CmdWord} (h : accept s = some (w, t)) :
    (s.rowbusy = false ∧ s.hcmd = w :: t.hcmd ∧
      t = { s with hcmd := t.hcmd, port := .hcmd, owed := t.owed, draws := t.draws }) ∨
    (s.scmd = w :: t.scmd ∧ t = { s with scmd := t.scmd, port := .scmd, owed := t.owed, draws := t.draws }) := by
  have key : ∀ (p : Port) (u : State), (p = .hcmd → s.rowbusy = false) → acceptFrom p s = some (w, u) →
      (s.rowbusy = false ∧ s.hcmd = w :: u.hcmd ∧
        u = { s with hcmd := u.hcmd, port := .hcmd, owed := u.owed, draws := u.draws }) ∨
      (s.scmd = w :: u.scmd ∧ u = { s with scmd := u.scmd, port := .scmd, owed := u.owed, draws := u.draws }) := by
    intro p u hp hu
    rcases acceptFrom_cases hu with ⟨h1, h2, h3⟩ | ⟨_, h2, h3⟩
    · exact .inl ⟨hp h1, h2, by rw [h3]⟩
    · exact .inr ⟨h2, by rw [h3]⟩
  unfold accept at h
  split at h
  · exact key .scmd t (fun hp => by cases hp) h
  · next hb =>
    have hb' : s.rowbusy = false := by simpa using hb
    split at h
    · exact key .scmd t (fun hp => by cases hp) h
    · split at h
      · exact key .hcmd t (fun _ => hb') h
      · split at h
        · exact key _ t (fun _ => hb') h
        · simp only [acceptDrawn] at h
          rcases hu : acceptFrom (Config.firstPort s.draws) s with _ | ⟨v, u⟩
          · simp [hu] at h
          · simp only [hu, Option.map_some, Option.some.injEq, Prod.mk.injEq] at h
            obtain ⟨rfl, rfl⟩ := h
            rcases key _ u (fun _ => hb') hu with ⟨h1, h2, h3⟩ | ⟨h2, h3⟩
            · exact .inl ⟨h1, h2, by rw [h3]⟩
            · exact .inr ⟨h2, by rw [h3]⟩

/-! ## step -/

/-- Everything one step can do. -/
theorem step_cases {s : State} {r : Result} (h : step s = r) :
    (s.pinReset = true ∧ r = .next (applyReset s)) ∨
    (s.pinReset = false ∧ s.wait ≠ .none ∧ s.sinkAnswers = [] ∧ r = .next s) ∨
    (s.pinReset = false ∧ s.wait ≠ .none ∧ s.sinkAnswers ≠ [] ∧ r = resumeCommand s) ∨
    (s.pinReset = false ∧ s.wait = .none ∧ accept s = none ∧ r = .next s) ∨
    (∃ w t e, s.pinReset = false ∧ s.wait = .none ∧ accept s = some (w, t) ∧ decode w = .error e ∧
      r = .next (t.respond t.port .illegalCommand 0)) ∨
    (∃ w t i, s.pinReset = false ∧ s.wait = .none ∧ accept s = some (w, t) ∧ decode w = .ok i ∧ r = exec i t) := by
  subst h
  cases hr : s.pinReset
  · by_cases hw : s.wait = .none
    · rcases ha : accept s with _ | ⟨w, t⟩
      · exact .inr (.inr (.inr (.inl ⟨rfl, hw, rfl, by simp [step, nextMove, hr, hw, ha]⟩)))
      · rcases hd : decode w with e | i
        · exact .inr (.inr (.inr (.inr (.inl ⟨w, t, e, rfl, hw, rfl, hd, by simp [step, nextMove, hr, hw, ha, hd, raise]⟩))))
        · exact .inr (.inr (.inr (.inr (.inr ⟨w, t, i, rfl, hw, rfl, hd, by simp [step, nextMove, hr, hw, ha, hd]⟩))))
    · by_cases hq : s.sinkAnswers = []
      · exact .inr (.inl ⟨rfl, hw, hq, by simp [step, nextMove, hr, hw, hq]⟩)
      · exact .inr (.inr (.inl ⟨rfl, hw, hq, by simp [step, nextMove, hr, hw, hq]⟩))
  · exact .inl ⟨rfl, by simp [step, nextMove, hr]⟩

end Sys2Proof.Machine
end

