-- ==== Sys2Proof/Laws/Exec.lean ====
section
/-! SUPPORT. What each meaning can answer, once and for all: one inversion law per meaning, over the laws of admitting a command and of
talking to the sink. -/

namespace Sys2Proof.Machine

open Sys2Proof

/-- How a command that talks to the sink ends, from the state `u` in which its first sample is due: it finishes, it is aborted, or it
waits as `w`. -/
inductive SinkEnd (u : State) (finish : State → State) (w : Wait) : Result → Prop where
  | finished (t : State) : SinkFrame u t → SinkEnd u finish w (.next (finish t))
  | aborted (t : State) : SinkFrame u t → SinkEnd u finish w (.next (sinkAbort t))
  | waits (t : State) : SinkFrame u t → SinkEnd u finish w (.next (t.setWait w))

theorem settle_mark_end {r : SinkRun} {u : State} (finish : State → State) (w : Wait) (h : r.Carries (SinkFrame u)) :
    SinkEnd u finish w ((r.mark w).settle finish) := by
  cases r with
  | done t => exact .finished t h
  | failed t => exact .aborted t h
  | waiting t => exact .waits t h

/-- Taking the answer to the last sink event changes the answers alone. -/
theorem takeAnswer_frame (s : State) : (takeAnswer s).Carries (SinkFrame s) := by
  match h : s.sinkAnswers with
  | [] => rw [takeAnswer_nil h]; exact SinkFrame.refl s
  | .ack :: rest =>
    rw [takeAnswer_ack h]
    exact ⟨rfl, ⟨[], by simp⟩, by rw [h]; exact List.suffix_cons _ _⟩
  | .fail :: rest =>
    rw [takeAnswer_fail h]
    exact ⟨rfl, ⟨[], by simp⟩, by rw [h]; exact List.suffix_cons _ _⟩

/-! ## The commands that talk to the sink -/

/-- TONE1 (R76). -/
theorem execTone1_cases (f : BitVec 32) (s : State) :
    execTone1 f s = .next (s.respond s.port .illegalCommand 0) ∨
    execTone1 f s = .next (s.respond s.port .illegalState 0) ∨
    (s.port = .scmd ∧ s.rowbusy = true ∧ s.srate = 0 ∧ execTone1 f s = .fault .zeroSampleRate) ∨
    (s.port = .scmd ∧ s.rowbusy = true ∧ s.srate ≠ 0 ∧ SinkEnd s finishTone1 .tone1 (execTone1 f s)) := by
  rcases whenAllowed_cases (.tone1 f) s (fun s => withRate s fun s =>
      ((sample (ftw f s.srate) s).mark .tone1).settle finishTone1) with ⟨_, h⟩ | ⟨_, _, _, h⟩ | ⟨hp, _, ha, h⟩
  · exact .inl h
  · exact .inr (.inl h)
  · have hp' : s.port = .scmd := by simpa [Instr.ports, Instr.row] using hp
    have hb : s.rowbusy = true := ha
    by_cases hr : s.srate = 0
    · exact .inr (.inr (.inl ⟨hp', hb, hr, h.trans (withRate_zero _ hr)⟩))
    · refine .inr (.inr (.inr ⟨hp', hb, hr, ?_⟩))
      rw [execTone1, h, withRate_pos _ hr]
      exact settle_mark_end _ _ (sample_frame _ _)

/-- TONE (R77). -/
theorem execTone_cases (f d : BitVec 32) (s : State) :
    execTone f d s = .next (s.respond s.port .illegalCommand 0) ∨
    execTone f d s = .next (s.respond s.port .illegalState 0) ∨
    (s.port = .scmd ∧ s.rowbusy = true ∧ s.srate = 0 ∧ execTone f d s = .fault .zeroSampleRate) ∨
    (s.port = .scmd ∧ s.rowbusy = true ∧ s.srate ≠ 0 ∧
      SinkEnd s (finishTone (BitVec.ofNat 32 (nsamp d s.srate))) (.tone (BitVec.ofNat 32 (nsamp d s.srate)))
        (execTone f d s)) := by
  rcases whenAllowed_cases (.tone f d) s (fun s => withRate s fun s =>
      runTone (BitVec.ofNat 32 (nsamp d s.srate)) (toneSeg f d s)) with ⟨_, h⟩ | ⟨_, _, _, h⟩ | ⟨hp, _, ha, h⟩
  · exact .inl h
  · exact .inr (.inl h)
  · have hp' : s.port = .scmd := by simpa [Instr.ports, Instr.row] using hp
    have hb : s.rowbusy = true := ha
    by_cases hr : s.srate = 0
    · exact .inr (.inr (.inl ⟨hp', hb, hr, h.trans (withRate_zero _ hr)⟩))
    · refine .inr (.inr (.inr ⟨hp', hb, hr, ?_⟩))
      rw [execTone, h, withRate_pos _ hr]
      exact settle_mark_end _ _ (toneSeg_frame _ _ _)

/-- The state in which INIT has emitted SINK_INIT (R103). -/
def initAnnounced (s : State) : State := (initSession s).emit (.sinkInit (initSession s).total)

/-- The header run of INIT ends as a command that talks to the sink. -/
theorem headerOfInit_end {u : State} {r : SinkRun} (h : r.Carries (SinkFrame u)) :
    SinkEnd u finishInit .header ((r.andThen headerOfInit).settle finishInit) ∨
      ∃ t, SinkFrame u t ∧ r = .waiting t ∧ (r.andThen headerOfInit).settle finishInit = .next t := by
  cases r with
  | failed t => exact .inl (.aborted t h)
  | waiting t => exact .inr ⟨t, h, rfl, rfl⟩
  | done t => exact .inl (settle_mark_end _ _ ((writeHeader_frame t).imp fun _ k => SinkFrame.trans h k))

/-- INIT once it is admitted: SINK_INIT, then the header. -/
theorem initRun_cases (s : State) (r : Result)
    (hr : r = (((takeAnswer (initAnnounced s)).mark .sinkInit).andThen headerOfInit).settle finishInit) :
    SinkEnd (initAnnounced s) finishInit .header r ∨ r = .next ((initAnnounced s).setWait .sinkInit) := by
  subst hr
  generalize initAnnounced s = u
  have hf := takeAnswer_frame u
  cases hu : takeAnswer u with
  | done t =>
    rw [hu] at hf
    rcases headerOfInit_end hf with h | ⟨_, _, h, _⟩
    · exact .inl h
    · cases h
  | failed t =>
    rw [hu] at hf
    exact .inl (.aborted t hf)
  | waiting t =>
    have : t = u := by
      unfold takeAnswer at hu
      split at hu <;> cases hu
      rfl
    subst this
    exact .inr rfl

/-- INIT (R103): it may wait for the answer to SINK_INIT, or for one to a header sample. -/
theorem execInit_cases (s : State) :
    execInit s = .next (s.respond s.port .illegalCommand 0) ∨
    execInit s = .next (s.respond s.port .illegalState 0) ∨
    (s.port = .hcmd ∧ s.sstate = .created ∧ s.srate = 0 ∧ execInit s = .fault .zeroSampleRate) ∨
    (s.port = .hcmd ∧ s.sstate = .created ∧ s.srate ≠ 0 ∧
      (SinkEnd (initAnnounced s) finishInit .header (execInit s) ∨
        execInit s = .next ((initAnnounced s).setWait .sinkInit))) := by
  rcases whenAllowed_cases .init s (fun s => withRate s fun s =>
      (((sinkEvent (.sinkInit (initSession s).total) (initSession s)).mark .sinkInit).andThen headerOfInit).settle finishInit)
    with ⟨_, h⟩ | ⟨_, _, _, h⟩ | ⟨hp, _, ha, h⟩
  · exact .inl h
  · exact .inr (.inl h)
  · have hp' : s.port = .hcmd := by simpa [Instr.ports, Instr.row] using hp
    have hc : s.sstate = .created := by simpa [stateAllows] using ha
    by_cases hr : s.srate = 0
    · exact .inr (.inr (.inl ⟨hp', hc, hr, h.trans (withRate_zero _ hr)⟩))
    · exact .inr (.inr (.inr ⟨hp', hc, hr, initRun_cases s _ (h.trans (withRate_pos _ hr))⟩))

/-- Going on after an answer (R33): what each waiting command can come to. -/
theorem resumeCommand_cases (s : State) :
    (s.wait = .none ∧ resumeCommand s = .next s) ∨
    ((s.wait = .sinkInit ∨ s.wait = .header) ∧ s.srate = 0 ∧ resumeCommand s = .fault .zeroSampleRate) ∨
    ((s.wait = .sinkInit ∨ s.wait = .header) ∧ s.srate ≠ 0 ∧
      (SinkEnd (s.setWait .none) finishInit .header (resumeCommand s) ∨
        (s.wait = .sinkInit ∧ s.sinkAnswers = [] ∧ resumeCommand s = .next s))) ∨
    (s.wait = .tone1 ∧ SinkEnd (s.setWait .none) finishTone1 .tone1 (resumeCommand s)) ∨
    (∃ n, s.wait = .tone n ∧ SinkEnd (s.setWait .none) (finishTone n) (.tone n) (resumeCommand s)) := by
  have hf := takeAnswer_frame (s.setWait .none)
  cases hw : s.wait with
  | none => exact .inl ⟨rfl, by simp [resumeCommand, hw]⟩
  | sinkInit =>
    by_cases hr : s.srate = 0
    · exact .inr (.inl ⟨.inl rfl, hr, by simp [resumeCommand, hw, withRate, hr]⟩)
    · refine .inr (.inr (.inl ⟨.inl rfl, hr, ?_⟩))
      have he : resumeCommand s =
          (((takeAnswer (s.setWait .none)).mark .sinkInit).andThen headerOfInit).settle finishInit := by
        simp only [resumeCommand, hw]
        exact withRate_pos _ hr
      rw [he]
      match ha : (s.setWait .none).sinkAnswers with
      | [] =>
        rw [takeAnswer_nil (s := s.setWait .none) ha]
        refine .inr ⟨rfl, rfl, ?_⟩
        simp only [SinkRun.waiting_mark, SinkRun.waiting_andThen, SinkRun.waiting_settle, State.setWait, ← hw]
      | .ack :: rest =>
        have := headerOfInit_end hf
        rw [takeAnswer_ack ha] at this ⊢
        rcases this with h1 | ⟨t, _, h2, _⟩
        · exact .inl h1
        · cases h2
      | .fail :: rest =>
        rw [takeAnswer_fail ha] at hf ⊢
        exact .inl (.aborted _ hf)
  | header =>
    by_cases hr : s.srate = 0
    · exact .inr (.inl ⟨.inr rfl, hr, by simp [resumeCommand, hw, withRate, hr]⟩)
    · refine .inr (.inr (.inl ⟨.inr rfl, hr, .inl ?_⟩))
      have he : resumeCommand s =
          (((takeAnswer (s.setWait .none)).andThen resumeHeader).mark .header).settle finishInit := by
        simp only [resumeCommand, hw]
        exact withRate_pos _ hr
      rw [he]
      exact settle_mark_end _ _ (hf.andThen fun t ht => (resumeHeader_frame t).imp fun _ hu => ht.trans hu)
  | tone1 =>
    refine .inr (.inr (.inr (.inl ⟨rfl, ?_⟩)))
    simp only [resumeCommand, hw]
    exact settle_mark_end _ _ hf
  | tone n =>
    refine .inr (.inr (.inr (.inr ⟨n, rfl, ?_⟩)))
    simp only [resumeCommand, hw, runTone]
    exact settle_mark_end _ _ (hf.andThen fun t ht => (samples_frame _ t).imp fun _ hu => ht.trans hu)

/-! ## The other commands -/

/-- CREATE (R102). -/
theorem execCreate_cases (a : BitVec 32) (s : State) :
    execCreate a s = .next (s.respond s.port .illegalCommand 0) ∨
    execCreate a s = .next (s.respond s.port .illegalState 0) ∨
    (s.port = .hcmd ∧ s.sstate = .idle ∧ execCreate a s = .next (s.respond s.port .invalidConfiguration 0)) ∨
    (s.port = .hcmd ∧ s.sstate = .idle ∧ s.pinSinkSrate ≠ 0 ∧
      execCreate a s = .next ((createSession a s).respond .hcmd .ok 0)) := by
  rcases whenAllowed_cases (.create a) s (fun s =>
      if 127 < a.toNat ∨ s.pinSinkSrate = 0 then .next (raise .invalidConfiguration s)
      else .next ((createSession a s).respond .hcmd .ok 0)) with ⟨_, h⟩ | ⟨_, _, _, h⟩ | ⟨hp, _, ha, h⟩
  · exact .inl h
  · exact .inr (.inl h)
  · have hp' : s.port = .hcmd := by simpa [Instr.ports, Instr.row] using hp
    have hi : s.sstate = .idle := by simpa [stateAllows] using ha
    by_cases hc : 127 < a.toNat ∨ s.pinSinkSrate = 0
    · exact .inr (.inr (.inl ⟨hp', hi, h.trans (if_pos hc)⟩))
    · exact .inr (.inr (.inr ⟨hp', hi, fun h0 => hc (.inr h0), h.trans (if_neg hc)⟩))

/-- PROCESS (R104). -/
theorem execProcess_cases (s : State) :
    execProcess s = .next (s.respond s.port .illegalCommand 0) ∨
    execProcess s = .next (s.respond s.port .illegalState 0) ∨
    (s.port = .hcmd ∧ s.sstate = .active ∧ s.height ≤ s.row ∧ execProcess s = .next (s.respond .hcmd .ok 0)) ∨
    (s.port = .hcmd ∧ s.sstate = .active ∧ ¬s.height ≤ s.row ∧ execProcess s = .next (openRow s)) := by
  rcases whenAllowed_cases .process s (fun s => if s.height ≤ s.row then .next (s.respond .hcmd .ok 0) else .next (openRow s))
    with ⟨_, h⟩ | ⟨_, _, _, h⟩ | ⟨hp, _, ha, h⟩
  · exact .inl h
  · exact .inr (.inl h)
  · have hp' : s.port = .hcmd := by simpa [Instr.ports, Instr.row] using hp
    have hi : s.sstate = .active := by simpa [stateAllows] using ha
    by_cases hc : s.height ≤ s.row
    · exact .inr (.inr (.inl ⟨hp', hi, hc, h.trans (if_pos hc)⟩))
    · exact .inr (.inr (.inr ⟨hp', hi, hc, h.trans (if_neg hc)⟩))

/-- ROWDONE (R106). -/
theorem execRowdone_cases (s : State) :
    execRowdone s = .next (s.respond s.port .illegalCommand 0) ∨
    execRowdone s = .next (s.respond s.port .illegalState 0) ∨
    (s.port = .scmd ∧ s.rowbusy = true ∧
      execRowdone s = .next (({ s with row := s.row + 1, rowbusy := false }.respond .scmd .ok 0).respond .hcmd .ok 1)) := by
  rcases whenAllowed_cases .rowdone s (fun s =>
      .next (({ s with row := s.row + 1, rowbusy := false }.respond .scmd .ok 0).respond .hcmd .ok 1))
    with ⟨_, h⟩ | ⟨_, _, _, h⟩ | ⟨hp, _, ha, h⟩
  · exact .inl h
  · exact .inr (.inl h)
  · exact .inr (.inr ⟨by simpa [Instr.ports, Instr.row] using hp, ha, h⟩)

/-- FINISH (R109). -/
theorem execFinish_cases (c : Bool) (s : State) :
    execFinish c s = .next (s.respond s.port .illegalCommand 0) ∨
    execFinish c s = .next (s.respond s.port .illegalState 0) ∨
    (s.port = .hcmd ∧ s.sstate ≠ .idle ∧ execFinish c s = .next ((endSession c s).respond .hcmd .ok 0)) := by
  rcases whenAllowed_cases (.finish c) s (fun s => .next ((endSession c s).respond .hcmd .ok 0))
    with ⟨_, h⟩ | ⟨_, _, _, h⟩ | ⟨hp, _, ha, h⟩
  · exact .inl h
  · exact .inr (.inl h)
  · exact .inr (.inr ⟨by simpa [Instr.ports, Instr.row] using hp, by simpa [stateAllows] using ha, h⟩)

/-- A query adds one response to the trace, on the port it arrived on, and that is all (R41); its value is 0 unless it is OK. -/
theorem query_cases {i : Instr} (s : State)
    (hi : i = .getcount ∨ i = .gettotal ∨ (∃ a, i = .rdreg a) ∨ ∃ a, i = .freqof a) :
    ∃ rc v, (rc = .ok ∨ v = 0) ∧ exec i s = .next (s.respond s.port rc v) := by
  rcases hi with rfl | rfl | ⟨a, rfl⟩ | ⟨a, rfl⟩
  · rcases whenAllowed_cases .getcount s (fun s => .next (s.respond .hcmd .ok (s.height.setWidth 64)))
      with ⟨_, h⟩ | ⟨_, _, _, h⟩ | ⟨hp, _, _, h⟩
    · exact ⟨_, _, .inr rfl, h⟩
    · exact ⟨_, _, .inr rfl, h⟩
    · have hp' : s.port = .hcmd := by simpa [Instr.ports, Instr.row] using hp
      exact ⟨_, _, .inl rfl, by rw [hp']; exact h⟩
  · rcases whenAllowed_cases .gettotal s (fun s => .next (s.respond .hcmd .ok (s.total.setWidth 64)))
      with ⟨_, h⟩ | ⟨_, _, _, h⟩ | ⟨hp, _, _, h⟩
    · exact ⟨_, _, .inr rfl, h⟩
    · exact ⟨_, _, .inr rfl, h⟩
    · have hp' : s.port = .hcmd := by simpa [Instr.ports, Instr.row] using hp
      exact ⟨_, _, .inl rfl, by rw [hp']; exact h⟩
  · rcases whenAllowed_cases (.rdreg a) s (fun s => match memRead a.toNat s with
        | .ok v => .next (s.respond s.port .ok v)
        | .error e => .next (raise e s)) with ⟨_, h⟩ | ⟨_, _, _, h⟩ | ⟨_, _, _, h⟩
    · exact ⟨_, _, .inr rfl, h⟩
    · exact ⟨_, _, .inr rfl, h⟩
    · rcases hm : memRead a.toNat s with e | v
      · have he : e ≠ .sinkFailure := by
          rintro rfl
          unfold memRead at hm
          repeat' split at hm
          all_goals cases hm
        exact ⟨e.rc, 0, .inr rfl, by rw [show exec (.rdreg a) s = _ from h, hm]; simp only [raise_eq_respond s e he]⟩
      · exact ⟨.ok, v, .inl rfl, by rw [show exec (.rdreg a) s = _ from h, hm]⟩
  · rcases whenAllowed_cases (.freqof a) s (fun s => .next (s.respond s.port .ok (BitVec.ofNat 64 (freqOf a.toNat))))
      with ⟨_, h⟩ | ⟨_, _, _, h⟩ | ⟨_, _, _, h⟩
    · exact ⟨_, _, .inr rfl, h⟩
    · exact ⟨_, _, .inr rfl, h⟩
    · exact ⟨_, _, .inl rfl, h⟩

end Sys2Proof.Machine
end

