-- ==== Sys2Proof/Laws/PerInstr.lean ====
section
/-! SUPPORT. A family of statements about every command: the fields of its encoding. -/

namespace Sys2Proof.Laws.Fields

open Sys2Proof

/-- The encoding has the command's opcode in OP and 0 in RSV, sets C for FINISH 1 alone, and is 0 where R54 says "must be 0". -/
def Statement (i : Instr) : Prop :=
  opField (encode i) = i.opcode ∧ rsvField (encode i) = 0 ∧
    (cField (encode i) = true ↔ i = .finish true) ∧
    (bField (encode i) ≠ 0 → ∃ f d, i = .tone f d)

theorem create (a : BitVec 32) : Statement (.create a) := by simp [Statement, encode]
theorem init : Statement .init := by simp [Statement, encode]
theorem process : Statement .process := by simp [Statement, encode]
theorem getcount : Statement .getcount := by simp [Statement, encode]
theorem gettotal : Statement .gettotal := by simp [Statement, encode]
theorem finish (c : Bool) : Statement (.finish c) := by simp [Statement, encode]
theorem rdreg (a : BitVec 32) : Statement (.rdreg a) := by simp [Statement, encode]
theorem freqof (a : BitVec 32) : Statement (.freqof a) := by simp [Statement, encode]
theorem tone1 (f : BitVec 32) : Statement (.tone1 f) := by simp [Statement, encode]
theorem tone (f d : BitVec 32) : Statement (.tone f d) := by simp [Statement, encode]
theorem rowdone : Statement .rowdone := by simp [Statement, encode]

end Sys2Proof.Laws.Fields
end

