-- ==== Sys2Proof/Laws/Phase.lean ====
section
/-! SUPPORT. Which samples the operations that talk to the sink write, and where they leave PHASE (spec/40_oscillator.md R74, R75, R78):
one law for each, in terms of tuning words. -/

namespace Sys2Proof.Machine

open Sys2Proof

/-! ## Lists of tuning words -/

theorem sampleEvents_append (vs ws : List (BitVec 32)) (p : BitVec 32) :
    sampleEvents (vs ++ ws) p = sampleEvents vs p ++ sampleEvents ws (phaseAlong vs p) := by
  induction vs generalizing p with
  | nil => rfl
  | cons v vs ih => exact congrArg _ (ih (p + v))

theorem phaseAlong_append (vs ws : List (BitVec 32)) (p : BitVec 32) :
    phaseAlong (vs ++ ws) p = phaseAlong ws (phaseAlong vs p) :=
  List.foldl_append

/-- The events of a tone are those of as many equal tuning words. -/
theorem toneEvents_eq (n : Nat) (w p : BitVec 32) : toneEvents n w p = sampleEvents (List.replicate n w) p := by
  induction n generalizing p with
  | zero => rfl
  | succ n ih => exact congrArg _ (ih (p + w))

/-- PHASE after a tone is PHASE along as many equal tuning words. -/
theorem phaseAfter_eq (n : Nat) (w p : BitVec 32) : phaseAfter n w p = phaseAlong (List.replicate n w) p := by
  induction n generalizing p with
  | zero => exact phaseAfter_zero w p
  | succ n ih => rw [phaseAfter_succ, ih]; rfl

/-- The sample at place `k` of a tone is the sine of the phase `k + 1` tuning words on (R78). -/
theorem toneEvents_getElem (n k : Nat) (w p : BitVec 32) (h : k < n) :
    (toneEvents n w p)[k]? = some (.sinkWrite (sinq (phaseAfter (k + 1) w p))) := by
  induction n generalizing k p with
  | zero => omega
  | succ n ih =>
    cases k with
    | zero => simp [toneEvents_succ, phaseAfter_succ]
    | succ k => rw [toneEvents_succ, List.getElem?_cons_succ, ih k _ (by omega), phaseAfter_succ (k + 1)]

@[simp] theorem sampleEvents_filter (ws : List (BitVec 32)) (p : BitVec 32) :
    (sampleEvents ws p).filter Event.isWrite = sampleEvents ws p := by
  induction ws generalizing p with
  | nil => rfl
  | cons w ws ih => exact congrArg _ (ih (p + w))

/-! ## Runs -/

/-- `t` has written the samples of `ws` from `s`, and no other event. -/
def Wrote (ws : List (BitVec 32)) (s t : State) : Prop :=
  t.out = s.out ++ sampleEvents ws s.phase ∧ t.phase = phaseAlong ws s.phase

theorem Wrote.nil {s t : State} (ho : t.out = s.out) (hp : t.phase = s.phase) : Wrote [] s t :=
  ⟨by rw [ho]; simp [sampleEvents], hp⟩

theorem Wrote.append {vs ws : List (BitVec 32)} {s t u : State} (h : Wrote vs s t) (k : Wrote ws t u) :
    Wrote (vs ++ ws) s u :=
  ⟨by rw [k.1, h.1, h.2, sampleEvents_append, List.append_assoc], by rw [k.2, h.2, phaseAlong_append]⟩

/-- A run writes the samples of `ws` if nothing cuts it short, else the first of them. -/
def SinkRun.Writes (ws : List (BitVec 32)) (s : State) : SinkRun → Prop
  | .done t => Wrote ws s t
  | .failed t => ∃ vs, vs <+: ws ∧ Wrote vs s t
  | .waiting t => ∃ vs, vs <+: ws ∧ Wrote vs s t

/-- However a run ends, it has written the first of its samples. -/
theorem SinkRun.Writes.some_prefix {ws : List (BitVec 32)} {s : State} {r : SinkRun} (h : r.Writes ws s) :
    r.Carries fun t => ∃ vs, vs <+: ws ∧ Wrote vs s t := by
  cases r with
  | done t => exact ⟨ws, List.prefix_rfl, h⟩
  | failed t => exact h
  | waiting t => exact h

/-- A run that starts from `t`, after the samples of `vs`, writes those of `ws` after them. -/
theorem SinkRun.Writes.after {vs ws : List (BitVec 32)} {s t : State} {r : SinkRun} (h : Wrote vs s t) (k : r.Writes ws t) :
    r.Writes (vs ++ ws) s := by
  cases r with
  | done u => exact h.append k
  | failed u =>
    obtain ⟨us, hu, k⟩ := k
    exact ⟨vs ++ us, (List.prefix_append_right_inj vs).mpr hu, h.append k⟩
  | waiting u =>
    obtain ⟨us, hu, k⟩ := k
    exact ⟨vs ++ us, (List.prefix_append_right_inj vs).mpr hu, h.append k⟩

/-- A run that starts from a state with the same trace and PHASE. -/
theorem SinkRun.Writes.of_same {ws : List (BitVec 32)} {s t : State} {r : SinkRun} (ho : t.out = s.out) (hp : t.phase = s.phase)
    (k : r.Writes ws t) : r.Writes ws s :=
  SinkRun.Writes.after (vs := []) (Wrote.nil ho hp) k

theorem SinkRun.Writes.andThen {vs ws : List (BitVec 32)} {s : State} {r : SinkRun} {k : State → SinkRun} (h : r.Writes vs s)
    (hk : ∀ t, r = .done t → (k t).Writes ws t) : (r.andThen k).Writes (vs ++ ws) s := by
  cases r with
  | done t => exact SinkRun.Writes.after h (hk t rfl)
  | failed t => exact h.imp fun us hu => ⟨hu.1.trans (List.prefix_append vs ws), hu.2⟩
  | waiting t => exact h.imp fun us hu => ⟨hu.1.trans (List.prefix_append vs ws), hu.2⟩

/-- Naming the waiting command changes neither the trace nor PHASE. -/
theorem SinkRun.Writes.mark {ws : List (BitVec 32)} {s : State} {r : SinkRun} (h : r.Writes ws s) (w : Wait) :
    (r.mark w).Writes ws s := by
  cases r with
  | done t => exact h
  | failed t => exact h
  | waiting t => exact h

theorem takeAnswer_writes (s : State) : (takeAnswer s).Writes [] s := by
  match h : s.sinkAnswers with
  | [] => rw [takeAnswer_nil h]; exact ⟨[], List.prefix_rfl, Wrote.nil rfl rfl⟩
  | .ack :: rest => rw [takeAnswer_ack h]; exact Wrote.nil rfl rfl
  | .fail :: rest => rw [takeAnswer_fail h]; exact ⟨[], List.prefix_rfl, Wrote.nil rfl rfl⟩

/-- SAMPLE writes one sample, one tuning word on (R74). -/
theorem sample_writes (w : BitVec 32) (s : State) : (sample w s).Writes [w] s := by
  match h : s.sinkAnswers with
  | [] => rw [sample_nil w h]; exact ⟨[w], List.prefix_rfl, rfl, rfl⟩
  | .ack :: rest => rw [sample_ack w h]; exact ⟨rfl, rfl⟩
  | .fail :: rest => rw [sample_fail w h]; exact ⟨[w], List.prefix_rfl, rfl, rfl⟩

theorem replicate_prefix {k n : Nat} (h : k ≤ n) (w : BitVec 32) : List.replicate k w <+: List.replicate n w :=
  ⟨List.replicate (n - k) w, by rw [List.replicate_append_replicate]; congr 1; omega⟩

/-- The samples of a segment (R75). -/
theorem samples_writes (n : Nat) (s : State) : (samples n s).Writes (List.replicate n s.segftw) s := by
  rcases answers_cases n s.sinkAnswers with ⟨rest, h⟩ | ⟨k, rest, hk, h⟩ | ⟨k, hk, h⟩
  · rw [samples_ack n s rest h]
    exact ⟨by simp only [toneEvents_eq], by simp only [phaseAfter_eq]⟩
  · rw [samples_fail n k s rest hk h]
    exact ⟨_, replicate_prefix hk _, by simp only [toneEvents_eq], by simp only [phaseAfter_eq]⟩
  · rw [samples_wait n k s hk h]
    exact ⟨_, replicate_prefix hk _, by simp only [toneEvents_eq], by simp only [phaseAfter_eq]⟩

/-- TONESEG (R75). -/
theorem toneSeg_writes (f d : BitVec 32) (s : State) : (toneSeg f d s).Writes (segmentWords f d s.srate) s := by
  have h := samples_writes (nsamp d s.srate) (loadSegment f d s)
  rw [loadSegment_segftw] at h
  exact h.of_same (loadSegment_out s f d) (loadSegment_phase s f d)

/-- The registers a sink run keeps. -/
theorem SinkFrame.kept {s t : State} (h : SinkFrame s t) : t.srate = s.srate ∧ t.vis = s.vis := by
  rw [h.same]; exact ⟨rfl, rfl⟩

/-- The samples of a segment leave PAR alone. -/
theorem samples_par (n : Nat) (s : State) : (samples n s).Carries fun t => t.par = s.par := by
  rcases answers_cases n s.sinkAnswers with ⟨rest, h⟩ | ⟨k, rest, hk, h⟩ | ⟨k, hk, h⟩
  · rw [samples_ack n s rest h]; exact rfl
  · rw [samples_fail n k s rest hk h]; exact rfl
  · rw [samples_wait n k s hk h]; exact rfl

/-- A whole segment leaves PAR alone. -/
theorem toneSeg_par (f d : BitVec 32) (s : State) : (toneSeg f d s).Carries fun t => t.par = s.par :=
  (samples_par _ _).imp fun _ h => h.trans (loadSegment_par s f d)

/-- The segments of a table, the parity before the first being PAR (R93). -/
theorem segmentsFrom_writes (k : Nat) (table : List (HeaderTone × BitVec 32)) (s : State) :
    (segmentsFrom k table s).Writes (tableWords table s.vis s.par s.srate) s := by
  induction table generalizing k s with
  | nil => exact Wrote.nil rfl rfl
  | cons x rest ih =>
    rw [segmentsFrom, tableWords]
    refine SinkRun.Writes.of_same (t := enterSegment k x.1 s) rfl rfl ?_
    rw [enterSegment_vis, enterSegment_par]
    have hw := toneSeg_writes (toneOf x.1 s.vis (parityAt x.1 s.vis s.par)) x.2 (enterSegment k x.1 s)
    have hf := toneSeg_frame (toneOf x.1 s.vis (parityAt x.1 s.vis s.par)) x.2 (enterSegment k x.1 s)
    have hp := toneSeg_par (toneOf x.1 s.vis (parityAt x.1 s.vis s.par)) x.2 (enterSegment k x.1 s)
    rw [enterSegment_srate] at hw
    refine hw.andThen fun t ht => ?_
    rw [ht] at hf hp
    have h := ih (k + 1) t
    rw [SinkRun.carries_done] at hf hp
    rw [hp, hf.kept.1, hf.kept.2, enterSegment_vis, enterSegment_par, enterSegment_srate] at h
    exact h

/-- The header table of a code, from parity 0, is the thirteen segments of the code (R90, R92, R93). -/
theorem tableWords_header (v : BitVec 7) (sr : BitVec 24) : tableWords headerTable v false sr = headerWords v sr := by
  have hp : parity v = (false ^^ v.getLsbD 0 ^^ v.getLsbD 1 ^^ v.getLsbD 2 ^^ v.getLsbD 3 ^^ v.getLsbD 4 ^^ v.getLsbD 5 ^^
      v.getLsbD 6) := by simp [parity, List.range, List.range.loop]
  rw [headerWords, headerSegments, hp]
  simp only [headerTable, tableWords, parityAt, toneOf, List.flatMap_cons, List.flatMap_nil]

/-- WRITE_HEADER (R93). -/
theorem writeHeader_writes (s : State) : (writeHeader s).Writes (headerWords s.vis s.srate) s := by
  rw [← tableWords_header, writeHeader]
  exact (segmentsFrom_writes 0 headerTable { s with par := false }).of_same rfl rfl

/-- The rest of WRITE_HEADER (R96). -/
theorem resumeHeader_writes (s : State) :
    (resumeHeader s).Writes (List.replicate s.segcnt.toNat s.segftw ++
      tableWords (headerTable.drop (s.hstep.toNat + 1)) s.vis s.par s.srate) s := by
  refine (samples_writes _ s).andThen fun t ht => ?_
  have hf := samples_frame s.segcnt.toNat s
  have hp := samples_par s.segcnt.toNat s
  rw [ht] at hf hp
  have h := segmentsFrom_writes (s.hstep.toNat + 1) (headerTable.drop (s.hstep.toNat + 1)) t
  rw [show t.par = s.par from hp, (SinkFrame.kept hf).1, (SinkFrame.kept hf).2] at h
  exact h

end Sys2Proof.Machine
end

