-- ==== Sys2Proof/Tests/Slice0.lean ====
section
/-! SUPPORT. The model's own tests. Expected values are the spec's: the worked words of spec/30_encoding.md R67, the examples of the rules,
and spec/95_test_vectors.md. The witnesses at the end meet the hypotheses of the statements. -/

namespace Sys2Proof.Tests

open Sys2Proof Sys2Proof.Machine

/-! ## Helpers -/

/-- The next state of a result, if it is one. -/
def nextState : Result → Option State
  | .next s => some s
  | .fault _ => none
  | .refused _ => none

/-- A view of the next state. -/
def after {α : Type} (r : Result) (f : State → α) : Option α := (nextState r).map f

/-- After RESET, with pins presented (R102's example, R103's transmission count). -/
def idleState : State := { State.reset with pinSinkSrate := 44100, pinImgHeight := 1, pinStratTxcount := 1000 }

/-- After CREATE 8 (R102's example). -/
def createdState : State := { idleState with sstate := .created, srate := 44100, vis := 8, height := 1 }

/-- A session at 1 Hz, whose header has no samples. -/
def slowState : State := { createdState with srate := 1 }

/-- After INIT at 44100 Hz (R103's example, R95). -/
def activeState : State := { createdState with sstate := .active, phase := 0xFFFFC8B0, txcount := 1000, total := 41131 }

/-- A row open at 8000 Hz, PHASE 0 (the examples of R76 and R77). -/
def rowState : State :=
  { activeState with srate := 8000, phase := 0, total := 8280, rowbusy := true, port := .scmd }

/-! ## Well-formedness -/

theorem test_wf_freqof_256_refused : (Instr.freqof 256).wf = false := by decide
theorem test_wf_freqof_255 : (Instr.freqof 255).wf = true := by decide

/-! ## Decoding the words of R67, and illegal words (R58, spec/95_test_vectors.md 2.8) -/

theorem test_decode_create : decode 0x010000000000000800000000 = .ok (.create 8) := by decide
theorem test_decode_init : decode 0x020000000000000000000000 = .ok .init := by decide
theorem test_decode_process : decode 0x030000000000000000000000 = .ok .process := by decide
theorem test_decode_getcount : decode 0x040000000000000000000000 = .ok .getcount := by decide
theorem test_decode_gettotal : decode 0x050000000000000000000000 = .ok .gettotal := by decide
theorem test_decode_finish : decode 0x060000010000000000000000 = .ok (.finish true) := by decide
theorem test_decode_rdreg : decode 0x070000000000000500000000 = .ok (.rdreg 5) := by decide
theorem test_decode_freqof : decode 0x08000000000000FF00000000 = .ok (.freqof 255) := by decide
theorem test_decode_tone1 : decode 0x1000000005DC000000000000 = .ok (.tone1 0x05DC0000) := by decide
theorem test_decode_tone : decode 0x11000000076C0000012C0000 = .ok (.tone 0x076C0000 0x012C0000) := by decide
theorem test_decode_rowdone : decode 0x1F0000000000000000000000 = .ok .rowdone := by decide

theorem test_decode_zero_word : decode 0 = .error .unknownOpcode := by decide
theorem test_decode_reserved_bit : decode 0x020000020000000000000000 = .error .reservedBits := by decide
theorem test_decode_cancel_bit : decode 0x020000010000000000000000 = .error .cancelBit := by decide
theorem test_decode_operand_a : decode 0x020000000000000100000000 = .error .operandA := by decide
theorem test_decode_freqof_256 : decode 0x080000000000010000000000 = .error .channelTooLarge := by decide
theorem test_decode_operand_b : decode 0x1000000005DC000000000001 = .error .operandB := by decide

/-- The twelve bytes of `S: TONE hz(1900), ms(300)` (R38, spec/95_test_vectors.md 2.8). -/
theorem test_bytes_tone :
    encodeBytes (.tone 0x076C0000 0x012C0000) = [0x11, 0, 0, 0, 0x07, 0x6C, 0, 0, 0x01, 0x2C, 0, 0] ∧
    decodeBytes [0x11, 0, 0, 0, 0x07, 0x6C, 0, 0, 0x01, 0x2C, 0, 0, 0x06] =
      .ok (.tone 0x076C0000 0x012C0000, [0x06]) := by decide

theorem test_table_word :
    decodeTableWord 96 0x11000000076C0000012C0000 = some (.tone 0x076C0000 0x012C0000) ∧ decodeTableWord 96 0 = none := by
  decide

/-- The text form of R62, with a comment, a register's name and `ms(0.4576)` (R66: rounded to a multiple of 1/65536). -/
theorem test_assemble :
    assemble "H: RDREG TOTAL ; read".toList = some (.hcmd, 0x070000000000000800000000) ∧
    assemble "S: TONE hz(1500), ms(0.4576)".toList = some (.scmd, 0x1100000005DC000000007525) ∧
    assemble "S: NOISE 1".toList = none ∧ assemble "H: CREATE".toList = none := by decide

/-- R62: FINISH's and RDREG's operands are integers, decimal or hexadecimal, or for RDREG a name. -/
theorem test_assemble_operands :
    assemble "H: FINISH 0x1".toList = some (.hcmd, 0x060000010000000000000000) ∧ assemble "H: FINISH 2".toList = none ∧
    assemble "H: RDREG 0x5".toList = some (.hcmd, 0x070000000000000500000000) ∧ assemble "H: RDREG hz(5)".toList = none := by
  decide

/-- R62's response text; the second value is program P1's answer to GETTOTAL. -/
theorem test_response_text :
    responseText .ok 1 = "-> OK, 1".toList ∧ readResponse "-> OK, 0x1D01".toList = some (.ok, 7425) ∧
    readResponse "-> ILLEGAL_STATE".toList = some (.illegalState, 0) ∧ readResponse "-> BUSY".toList = none := by decide

/-! ## Arithmetic -/

/-- R70's tie, and R71's residual of it. -/
theorem test_nsamp_tie : nsamp ms300 11025 = 3308 ∧ res ms300 11025 = -32768000 := by decide

theorem test_ftw : ftw 0x076C0000 44100 = 0x0B078BE6 ∧ ftw 0x1F400000 8000 = 0 := by decide

theorem test_hdrcnt : hdrcnt 44100 = 40131 ∧ hdrcnt 11025 = 10036 := by decide

/-- R103's first sample, and R74's example. -/
theorem test_sinq : sinq 0x0B078BE6 = 8762 ∧ sinq 0x10000000 = 12539 ∧ sinq 0xC0000000 = -32767 := by decide

theorem test_freqof_values : freqOf 1 = 0x05DF2323 ∧ freqOf 128 = 0x076D9192 := by decide

/-! ## One step of each command -/

theorem test_create_example :
    after (exec (.create 8) idleState) (fun t => (t.sstate, t.srate, t.vis, t.height, t.out)) =
      some (.created, 44100, 8, 1, [.hrsp .ok 0]) := by decide

theorem test_create_128 : after (exec (.create 128) idleState) (fun t => (t.sstate, t.out)) =
    some (.idle, [.hrsp .invalidConfiguration 0]) := by decide

/-- R103's example up to its first sample, where the sink stops answering. -/
theorem test_init_first_sample :
    after (exec .init { createdState with sinkAnswers := [.ack] }) (fun t => (t.out, t.phase, t.total, t.wait)) =
      some ([.sinkInit 41131, .sinkWrite 8762], 0x0B078BE6, 41131, .header) := by decide

/-- INIT refused by the sink (spec/95_test_vectors.md 2.9, first row). -/
theorem test_init_refused :
    after (exec .init { createdState with sinkAnswers := [.fail] }) (fun t => (t.sstate, t.out)) =
      some (.idle, [.sinkInit 41131, .sinkFinish true, .imgRelease, .hrsp .sinkFailure 0]) := by decide

theorem test_process_opens_row : after (exec .process activeState) (fun t => (t.rowbusy, t.row, t.out)) =
    some (true, 0, [.rowReq 0]) := by decide

theorem test_process_at_end : exec .process { activeState with row := 1 } =
    .next { activeState with row := 1, out := [.hrsp .ok 0] } := rfl

theorem test_getcount : after (exec .getcount createdState) State.out = some [.hrsp .ok 1] := by decide

theorem test_gettotal : after (exec .gettotal activeState) State.out = some [.hrsp .ok 0xA0AB] := by decide

/-- Program P3, line 22. -/
theorem test_finish_cancel : after (exec (.finish true) createdState) (fun t => (t.sstate, t.out)) =
    some (.idle, [.sinkFinish true, .imgRelease, .hrsp .ok 0]) := by decide

theorem test_finish_idle : after (exec (.finish true) idleState) State.out = some [.hrsp .illegalState 0] := by decide

/-- R122's example: TAIL is -212992000. -/
theorem test_rdreg_tail : after (exec (.rdreg 6) { activeState with tail := BitVec.ofInt 64 (-212992000) }) State.out =
    some [.hrsp .ok 0xFFFFFFFFF34E0000] := by decide

/-- Program P3, line 8: the number is checked before the state. -/
theorem test_rdreg_9_idle : after (exec (.rdreg 9) idleState) State.out = some [.hrsp .illegalCommand 0] := by decide

theorem test_freqof_128_on_scmd : after (exec (.freqof 128) rowState) State.out = some [.srsp .ok 0x076D9192] := by decide

/-- R76's example. -/
theorem test_tone1_example :
    after (exec (.tone1 0x03E80000) { rowState with sinkAnswers := [.ack] }) (fun t => (t.phase, t.out)) =
      some (0x20000000, [.sinkWrite 23170, .srsp .ok 1]) := by decide

theorem test_tone1_on_hcmd : after (exec (.tone1 0x03E80000) { rowState with port := .hcmd }) State.out =
    some [.hrsp .illegalCommand 0] := by decide

/-- R77's example. -/
theorem test_tone_example :
    after (exec (.tone 0x03E80000 0x00010000) { rowState with sinkAnswers := List.replicate 8 .ack })
        (fun t => (t.phase, t.tail, t.out)) =
      some (0, 0, [.sinkWrite 23170, .sinkWrite 32767, .sinkWrite 23170, .sinkWrite 0, .sinkWrite (-23170),
        .sinkWrite (-32767), .sinkWrite (-23170), .sinkWrite 0, .srsp .ok 8]) := by decide

/-- The order of the abort's events (R132; spec/95_test_vectors.md 2.9, third row). -/
theorem test_tone_abort :
    after (exec (.tone 0x03E80000 0x00010000) { rowState with sinkAnswers := [.fail, .ack] })
        (fun t => (t.sstate, t.rowbusy, t.row, t.sinkAnswers, t.out)) =
      some (.idle, false, 0, [.ack], [.sinkWrite 23170, .srsp .sinkFailure 0, .rowAbort, .sinkFinish true, .imgRelease,
        .hrsp .sinkFailure 0]) := by decide

/-- R106's example. -/
theorem test_rowdone_example : after (exec .rowdone rowState) (fun t => (t.row, t.rowbusy, t.out)) =
    some (1, false, [.srsp .ok 0, .hrsp .ok 1]) := by decide

/-! ## Steps -/

/-- The word of `H: RDREG STATUS` presented to the reset state is run by the next step (R122's example). -/
theorem test_presented_word :
    after (step (State.reset.withFetchWord 96 0x070000000000000000000000)) State.out = some [.hrsp .ok 0] := by decide

/-- A tone that waits goes on when the answers come, and ends as in R77's example. -/
theorem test_tone_resumes :
    (nextState (exec (.tone 0x03E80000 0x00010000) { rowState with sinkAnswers := List.replicate 3 .ack })).bind
        (fun t => after (step { t with sinkAnswers := List.replicate 5 .ack }) fun u => (u.wait, u.phase, u.out.getLast?)) =
      some (.none, 0, some (.srsp .ok 8)) := by decide

/-- A word on HCMD waits while a row is open (R32). -/
theorem test_hcmd_blocked :
    step { rowState with hcmd := [0x060000000000000000000000] } =
      .next { rowState with hcmd := [0x060000000000000000000000] } := rfl

/-! ## Witnesses: states and operands that meet the hypotheses of the statements -/

/-- The word of `H: GETCOUNT`. -/
def hostWord : CmdWord := 0x040000000000000000000000

/-- The word of `S: ROWDONE`. -/
def stratWord : CmdWord := 0x1F0000000000000000000000

theorem witness_DecodeOfEncode : (Instr.freqof 255).wf = true ∧ (Instr.create 0xFFFFFFFF).wf = true := by decide

theorem witness_EncodeOfDecode : decode 0x08000000000000FF00000000 = .ok (.freqof 255) := by decide

theorem witness_DecodeAgreesWithOpcodeTable :
    (∃ w i, decode w = .ok i) ∧ (∃ w r, r ∈ opcodeTable ∧ w &&& r.mask = r.mtch) ∧
    (∃ (w : CmdWord) (q r : OpRow), q ∈ opcodeTable ∧ r ∈ opcodeTable ∧ w &&& q.mask = q.mtch ∧ w &&& r.mask = r.mtch) :=
  ⟨⟨hostWord, .getcount, by decide⟩, ⟨hostWord, Instr.getcount.row, by decide⟩,
    ⟨hostWord, Instr.getcount.row, Instr.getcount.row, by decide⟩⟩

/-- With SCMD empty, and with HCMD owed the turn. -/
theorem witness_StepRunsTheHostCommand :
    (∃ s : State, s.pinReset = false ∧ s.wait = .none ∧ s.rowbusy = false ∧ s.hcmd = [hostWord] ∧ s.scmd = [] ∧
      decode hostWord = .ok .getcount) ∧
    ∃ s : State, s.pinReset = false ∧ s.wait = .none ∧ s.rowbusy = false ∧ s.hcmd = [hostWord] ∧ s.scmd = [stratWord] ∧
      s.owed = some .hcmd ∧ decode hostWord = .ok .getcount :=
  ⟨⟨{ activeState with hcmd := [hostWord] }, by decide⟩,
    ⟨{ activeState with hcmd := [hostWord], scmd := [stratWord], owed := some .hcmd }, by decide⟩⟩

/-- In an open row, with HCMD empty, and with SCMD owed the turn. -/
theorem witness_StepRunsTheStrategyCommand :
    (∃ s : State, s.pinReset = false ∧ s.wait = .none ∧ s.scmd = [stratWord] ∧ s.rowbusy = true ∧ s.hcmd = [hostWord] ∧
      decode stratWord = .ok .rowdone) ∧
    (∃ s : State, s.pinReset = false ∧ s.wait = .none ∧ s.scmd = [stratWord] ∧ s.rowbusy = false ∧ s.hcmd = [] ∧
      decode stratWord = .ok .rowdone) ∧
    ∃ s : State, s.pinReset = false ∧ s.wait = .none ∧ s.scmd = [stratWord] ∧ s.rowbusy = false ∧ s.hcmd = [hostWord] ∧
      s.owed = some .scmd ∧ decode stratWord = .ok .rowdone :=
  ⟨⟨{ rowState with hcmd := [hostWord], scmd := [stratWord] }, by decide⟩,
    ⟨{ activeState with scmd := [stratWord] }, by decide⟩,
    ⟨{ activeState with hcmd := [hostWord], scmd := [stratWord], owed := some .scmd }, by decide⟩⟩

theorem witness_StepDrawsTheFirstPort :
    ∃ s : State, s.pinReset = false ∧ s.wait = .none ∧ s.rowbusy = false ∧ s.owed = none ∧ s.hcmd = [hostWord] ∧
      s.scmd = [stratWord] ∧ decode hostWord = .ok .getcount ∧ decode stratWord = .ok .rowdone :=
  ⟨{ activeState with hcmd := [hostWord], scmd := [stratWord] }, by decide⟩

theorem witness_PresentedWordRuns :
    State.reset.rowbusy = false ∧ decodeTableWord 96 0x040000000000000000000000 = some .getcount := by decide

/-- On HCMD (an unknown OP) and on SCMD in an open row (FREQOF 256). -/
theorem witness_IllegalWordIsAnswered :
    (∃ s t : State, s.pinReset = false ∧ s.wait = .none ∧ accept s = some (0, t) ∧
      ∀ r ∈ opcodeTable, (0 : CmdWord) &&& r.mask ≠ r.mtch) ∧
    ∃ s t : State, s.pinReset = false ∧ s.wait = .none ∧ accept s = some (0x080000000000010000000000, t) ∧
      ∀ r ∈ opcodeTable, (0x080000000000010000000000 : CmdWord) &&& r.mask ≠ r.mtch :=
  ⟨⟨{ State.reset with hcmd := [0] }, State.reset, by decide⟩,
    ⟨{ rowState with scmd := [0x080000000000010000000000] }, rowState, by decide⟩⟩

/-- A row open with a word on HCMD, and a tone that waits with a word on each port. -/
theorem witness_BlockedWordsAreKept :
    (∃ s t : State, step s = .next t ∧ s.rowbusy = true ∧ s.wait = .none ∧ s.hcmd = [hostWord]) ∧
    ∃ s t : State, step s = .next t ∧ s.wait = .tone1 ∧ s.hcmd = [hostWord] ∧ s.scmd = [stratWord] :=
  ⟨⟨{ rowState with hcmd := [hostWord] }, _, rfl, rfl, rfl, rfl⟩,
    ⟨{ rowState with wait := .tone1, hcmd := [hostWord], scmd := [stratWord], sinkAnswers := [.ack] }, _, rfl, rfl, rfl, rfl⟩⟩

/-- Waiting for the sink, for a strategy command in an open row, and for any command. -/
theorem witness_CoreWaitsUnchanged :
    (∃ s : State, s.pinReset = false ∧ s.wait ≠ .none ∧ s.sinkAnswers = []) ∧
    (∃ s : State, s.pinReset = false ∧ s.wait = .none ∧ s.scmd = [] ∧ s.rowbusy = true ∧ s.hcmd = [hostWord]) ∧
    ∃ s : State, s.pinReset = false ∧ s.wait = .none ∧ s.scmd = [] ∧ s.hcmd = [] :=
  ⟨⟨{ rowState with wait := .tone1 }, by decide⟩, ⟨{ rowState with hcmd := [hostWord] }, by decide⟩, ⟨State.reset, by decide⟩⟩

theorem witness_ResetIsIdle : ∃ s : State, s.pinReset = true ∧ s.rowbusy = true ∧ s.wait = .tone1 :=
  ⟨{ rowState with pinReset := true, wait := .tone1 }, by decide⟩

theorem witness_WrongPortIsIllegalCommand :
    (∃ s : State, s.port = .scmd) ∧ ∃ s : State, s.port = .hcmd := ⟨⟨rowState, by decide⟩, ⟨activeState, by decide⟩⟩

/-- Each group of cells: CREATE out of IDLE, INIT out of CREATED, PROCESS and GETTOTAL out of ACTIVE, GETCOUNT and FINISH in IDLE, the
tone commands out of a row, RDREG 1 and 8 in IDLE. -/
theorem witness_WrongStateIsIllegalState :
    (activeState.port = .hcmd ∧ activeState.sstate ≠ .idle ∧ activeState.sstate ≠ .created) ∧
    (createdState.port = .hcmd ∧ createdState.sstate ≠ .active) ∧ (idleState.port = .hcmd ∧ idleState.sstate = .idle) ∧
    (∃ s : State, s.port = .scmd ∧ s.rowbusy = false) ∧
    (idleState.sstate = .idle ∧ 1 ≤ (1 : BitVec 32).toNat ∧ (8 : BitVec 32).toNat ≤ 8) :=
  ⟨by decide, by decide, by decide, ⟨{ activeState with port := .scmd }, by decide⟩, by decide⟩

theorem witness_CreateOpensSession :
    idleState.port = .hcmd ∧ idleState.sstate = .idle ∧ (127 : BitVec 32).toNat ≤ 127 ∧ idleState.pinSinkSrate ≠ 0 := by
  decide

/-- The code too large, and the rate zero. -/
theorem witness_CreateInvalidConfiguration :
    (idleState.port = .hcmd ∧ idleState.sstate = .idle ∧ 127 < (128 : BitVec 32).toNat) ∧
    (State.reset.port = .hcmd ∧ State.reset.sstate = .idle ∧ State.reset.pinSinkSrate = 0) := by decide

/-- At 1 Hz the header has no samples; at 40 Hz it has 34. -/
theorem witness_InitSendsTheHeader :
    (∃ s : State, s.port = .hcmd ∧ s.sstate = .created ∧ s.srate ≠ 0 ∧
      s.sinkAnswers = List.replicate (1 + hdrcnt s.srate) .ack ++ [.fail]) ∧
    ∃ s : State, s.port = .hcmd ∧ s.sstate = .created ∧ s.srate ≠ 0 ∧ hdrcnt s.srate = 34 ∧
      s.sinkAnswers = List.replicate (1 + hdrcnt s.srate) .ack ++ [] :=
  ⟨⟨{ slowState with sinkAnswers := [.ack, .fail] }, by decide⟩,
    ⟨{ createdState with srate := 40, sinkAnswers := List.replicate 35 .ack }, by decide⟩⟩

theorem witness_InitRefusedBySink :
    ∃ s : State, s.port = .hcmd ∧ s.sstate = .created ∧ s.srate ≠ 0 ∧ s.rowbusy = false ∧ s.sinkAnswers = [.fail] :=
  ⟨{ createdState with sinkAnswers := [.fail] }, by decide⟩

/-- The first and the last sample of the header. -/
theorem witness_HeaderFailureAborts :
    (∃ s : State, s.port = .hcmd ∧ s.sstate = .created ∧ s.srate ≠ 0 ∧ s.rowbusy = false ∧ 0 < hdrcnt s.srate ∧
      s.sinkAnswers = List.replicate (1 + 0) .ack ++ .fail :: []) ∧
    ∃ s : State, s.port = .hcmd ∧ s.sstate = .created ∧ s.srate ≠ 0 ∧ s.rowbusy = false ∧ 33 < hdrcnt s.srate ∧
      s.sinkAnswers = List.replicate (1 + 33) .ack ++ .fail :: [] :=
  ⟨⟨{ createdState with sinkAnswers := [.ack, .fail] }, by decide⟩,
    ⟨{ createdState with srate := 40, sinkAnswers := List.replicate 34 .ack ++ [.fail] }, by decide⟩⟩

theorem witness_ProcessOpensRow :
    activeState.port = .hcmd ∧ activeState.sstate = .active ∧ activeState.row.toNat < activeState.height.toNat := by decide

theorem witness_ProcessAtEndAnswersZero :
    ∃ s : State, s.port = .hcmd ∧ s.sstate = .active ∧ s.height.toNat ≤ s.row.toNat := ⟨{ activeState with row := 1 }, by decide⟩

theorem witness_RowdoneClosesRow :
    rowState.port = .scmd ∧ rowState.rowbusy = true ∧ rowState.row.toNat < rowState.height.toNat := by decide

theorem witness_GetcountAnswersHeight : createdState.port = .hcmd ∧ createdState.sstate ≠ .idle := by decide

theorem witness_GettotalAnswersTotal : activeState.port = .hcmd ∧ activeState.sstate = .active := by decide

theorem witness_FinishEndsSession : createdState.port = .hcmd ∧ createdState.sstate ≠ .idle := by decide

/-- STATUS, the first number that is no register, and the first and last register of a session. -/
theorem witness_RdregReadsRegisters :
    (0 : BitVec 32) = 0 ∧ 8 < (9 : BitVec 32).toNat ∧
    (activeState.sstate ≠ .idle ∧ (1 : BitVec 32) = 1 ∧ (44100 : BitVec 64) = BitVec.ofNat 64 activeState.srate.toNat) ∧
    (activeState.sstate ≠ .idle ∧ (8 : BitVec 32) = 8 ∧ (41131 : BitVec 64) = BitVec.ofNat 64 activeState.total.toNat) := by
  decide

theorem witness_FreqofAnswersFrequency : (255 : BitVec 32).toNat ≤ 255 ∧ 255 < (256 : BitVec 32).toNat := by decide

theorem witness_FreqofIsIncreasing : (254 : Nat) ≤ 254 := by decide

theorem witness_Tone1WritesOneSample :
    ∃ s : State, s.port = .scmd ∧ s.rowbusy = true ∧ s.srate ≠ 0 ∧ s.sinkAnswers = [.ack] :=
  ⟨{ rowState with sinkAnswers := [.ack] }, by decide⟩

/-- Eight samples, and none. -/
theorem witness_ToneWritesItsSamples :
    (∃ s : State, s.port = .scmd ∧ s.rowbusy = true ∧ s.srate ≠ 0 ∧ nsamp 0x00010000 s.srate = 8 ∧
      s.sinkAnswers = List.replicate (nsamp 0x00010000 s.srate) .ack ++ [.fail]) ∧
    ∃ s : State, s.port = .scmd ∧ s.rowbusy = true ∧ s.srate ≠ 0 ∧
      s.sinkAnswers = List.replicate (nsamp 0 s.srate) .ack ++ [] :=
  ⟨⟨{ rowState with sinkAnswers := List.replicate 8 .ack ++ [.fail] }, by decide⟩, ⟨rowState, by decide⟩⟩

theorem witness_Tone1FailureAborts :
    ∃ s : State, s.port = .scmd ∧ s.rowbusy = true ∧ s.srate ≠ 0 ∧ s.sinkAnswers = [.fail] :=
  ⟨{ rowState with sinkAnswers := [.fail] }, by decide⟩

/-- The first and the last sample of eight. -/
theorem witness_ToneFailureAborts :
    (∃ s : State, s.port = .scmd ∧ s.rowbusy = true ∧ s.srate ≠ 0 ∧ 0 < nsamp 0x00010000 s.srate ∧
      s.sinkAnswers = List.replicate 0 .ack ++ .fail :: []) ∧
    ∃ s : State, s.port = .scmd ∧ s.rowbusy = true ∧ s.srate ≠ 0 ∧ 7 < nsamp 0x00010000 s.srate ∧
      s.sinkAnswers = List.replicate 7 .ack ++ .fail :: [] :=
  ⟨⟨{ rowState with sinkAnswers := [.fail] }, by decide⟩,
    ⟨{ rowState with sinkAnswers := List.replicate 7 .ack ++ [.fail] }, by decide⟩⟩

/-- The first and the last sample of eight. -/
theorem witness_ToneWaitsForTheSink :
    (∃ s : State, s.port = .scmd ∧ s.rowbusy = true ∧ s.srate ≠ 0 ∧ 0 < nsamp 0x00010000 s.srate ∧
      s.sinkAnswers = List.replicate 0 .ack) ∧
    ∃ s : State, s.port = .scmd ∧ s.rowbusy = true ∧ s.srate ≠ 0 ∧ 7 < nsamp 0x00010000 s.srate ∧
      s.sinkAnswers = List.replicate 7 .ack :=
  ⟨⟨rowState, by decide⟩, ⟨{ rowState with sinkAnswers := List.replicate 7 .ack }, by decide⟩⟩

/-- INIT waiting for SINK_INIT's answer, and TONE1 waiting for its sample's; RESET is released and an answer follows. -/
theorem witness_ResumeEqualsUninterrupted :
    (∃ t, exec .init { slowState with sinkAnswers := [] } = .next t ∧ slowState.wait = .none ∧ t.wait ≠ .none ∧
      slowState.pinReset = false ∧ [Answer.ack] ≠ []) ∧
    ∃ t, exec (.tone1 0x03E80000) { rowState with sinkAnswers := [] } = .next t ∧ rowState.wait = .none ∧ t.wait ≠ .none ∧
      rowState.pinReset = false ∧ [Answer.fail] ≠ [] :=
  ⟨⟨_, rfl, by decide, by decide, by decide, by decide⟩, ⟨_, rfl, by decide, by decide, by decide, by decide⟩⟩

theorem witness_FtwIsModuloOneTurn :
    (44100 : BitVec 24) ≠ 0 ∧ (0x1F400000 : BitVec 32).toNat = (0 : BitVec 32).toNat + (8000 : BitVec 24).toNat * 65536 := by
  decide

theorem witness_ResidualRange :
    (ms300).toNat * (11025 : BitVec 24).toNat < nsamp ms300 11025 * 65536000 := by decide

theorem witness_SinqIsSymmetric : (0x80000000 : BitVec 32).toNat ≤ 2 ^ 31 ∧ (0 : BitVec 32).toNat ≤ 2 ^ 31 := by decide

theorem witness_SinqRisesOnTheFirstQuarter :
    (0x3FFFFFFF : BitVec 32).toNat ≤ (0x40000000 : BitVec 32).toNat ∧ (0x40000000 : BitVec 32).toNat ≤ 2 ^ 30 := by decide

theorem witness_QueriesOnlyRespond :
    (∃ t, exec .getcount activeState = .next t) ∧ (∃ t, exec .gettotal activeState = .next t) ∧
    (∃ t, exec (.rdreg 8) activeState = .next t) ∧ ∃ t, exec (.freqof 255) activeState = .next t :=
  ⟨⟨_, rfl⟩, ⟨_, rfl⟩, ⟨_, rfl⟩, ⟨_, rfl⟩⟩

theorem witness_SessionCommandFrames :
    (∃ t, exec (.create 8) idleState = .next t) ∧ (∃ t, exec .process activeState = .next t) ∧
    (∃ t, exec .rowdone rowState = .next t) ∧ ∃ t, exec (.finish false) activeState = .next t :=
  ⟨⟨_, rfl⟩, ⟨_, rfl⟩, ⟨_, rfl⟩, ⟨_, rfl⟩⟩

theorem witness_SinkCommandFrames :
    (∃ t, exec .init slowState = .next t) ∧ (∃ t, exec (.tone1 0x03E80000) rowState = .next t) ∧
    ∃ t, exec (.tone 0x03E80000 0) rowState = .next t :=
  ⟨⟨_, rfl⟩, ⟨_, rfl⟩, ⟨_, rfl⟩⟩

/-- INIT in progress at 40 Hz, waiting in its parity segment. -/
def headerState : State :=
  { createdState with srate := 40, wait := .header, total := 34, hstep := 11, sinkAnswers := [.ack] }

/-- That state meets the session invariant. -/
theorem inv_headerState : SessionInv headerState := by constructor <;> decide

/-- An open row meets the session invariant. -/
theorem inv_rowState : SessionInv rowState := by constructor <;> decide

/-- An active session with no row open meets the session invariant. -/
theorem inv_activeState : SessionInv activeState := by constructor <;> decide

/-- A tone that waits meets the session invariant. -/
theorem inv_waitingTone : SessionInv { rowState with wait := .tone1, sinkAnswers := [.fail] } := by constructor <;> decide

theorem witness_StepKeepsSessionInvariant :
    ∃ s t : State, SessionInv s ∧ s.pinReset = false ∧ step s = .next t ∧ s.rowbusy = true ∧ t.rowbusy = false :=
  ⟨{ rowState with scmd := [stratWord] }, _, by constructor <;> decide, rfl, rfl, rfl, rfl⟩

theorem witness_StepNeverStops : SessionInv rowState := inv_rowState

theorem witness_SessionStatesPartition : SessionInv rowState := inv_rowState

theorem witness_StepAddsProperEvents :
    ∃ s t : State, s.pinReset = false ∧ step s = .next t ∧ t.out = [.hrsp .illegalCommand 0] :=
  ⟨{ idleState with hcmd := [0] }, _, rfl, rfl, rfl⟩

theorem witness_OneHostResponsePerCommand :
    ∃ s t : State, SessionInv s ∧ s.pinReset = false ∧ step s = .next t ∧ t.hcmd.length + 1 = s.hcmd.length :=
  ⟨{ activeState with hcmd := [hostWord] }, _, by constructor <;> decide, rfl, rfl, rfl⟩

/-- A word taken, and words added as a row is opened. -/
theorem witness_OneStrategyResponsePerCommand :
    (∃ s t : State, SessionInv s ∧ s.pinReset = false ∧ step s = .next t ∧ t.scmd.length + 1 = s.scmd.length) ∧
    ∃ s t : State, SessionInv s ∧ s.pinReset = false ∧ step s = .next t ∧ t.scmd = s.scmd ++ [stratWord] ∧
      s.rowbusy = false ∧ t.rowbusy = true :=
  ⟨⟨{ rowState with scmd := [stratWord] }, _, by constructor <;> decide, rfl, rfl, rfl⟩,
    ⟨{ activeState with hcmd := [0x030000000000000000000000], rowScript := [[stratWord]] }, _, by constructor <;> decide, rfl,
      rfl, rfl, rfl, rfl⟩⟩

/-- A FINISH, and a tone whose sample the sink refuses. -/
theorem witness_SessionEndIsNotifiedOnce :
    (∃ s t : State, SessionInv s ∧ s.pinReset = false ∧ step s = .next t ∧ s.sstate ≠ .idle ∧ t.sstate = .idle) ∧
    ∃ s t : State, SessionInv s ∧ s.pinReset = false ∧ step s = .next t ∧ s.rowbusy = true ∧ t.sstate = .idle :=
  ⟨⟨{ activeState with hcmd := [0x060000000000000000000000] }, _, by constructor <;> decide, rfl, rfl, by decide, rfl⟩,
    ⟨{ rowState with wait := .tone1, sinkAnswers := [.fail] }, _, inv_waitingTone, rfl, rfl, rfl, rfl⟩⟩

/-- INIT begun out of CREATED, and a sample of an INIT in progress. -/
theorem witness_SessionStreamStart :
    (∃ s t : State, SessionInv s ∧ s.pinReset = false ∧ step s = .next t ∧ awaitsInit s ∧
      t.out.countP Event.isStart = s.out.countP Event.isStart + 1) ∧
    ∃ s t : State, SessionInv s ∧ s.pinReset = false ∧ step s = .next t ∧ ∃ x, .sinkWrite x ∈ t.out.drop s.out.length :=
  ⟨⟨{ createdState with hcmd := [0x020000000000000000000000] }, _, by constructor <;> decide, rfl, rfl, ⟨rfl, rfl⟩, rfl⟩,
    ⟨headerState, _, inv_headerState, rfl, rfl, _, List.mem_singleton.mpr rfl⟩⟩

/-- A TONE1 and a TONE of eight samples taken in an open row, an INIT begun at 40 Hz, a TONE that goes on, an INIT that goes on in its
header, and a tone whose failure ends the session. -/
theorem witness_PhaseIsContinuous :
    (∃ s t : State, SessionInv s ∧ s.pinReset = false ∧ step s = .next t ∧ ¬(s.sstate = .idle ∧ t.sstate = .created) ∧
      stepWords s = [0x20000000] ∧ t.phase = 0x20000000) ∧
    (∃ s t : State, SessionInv s ∧ s.pinReset = false ∧ step s = .next t ∧ ¬(s.sstate = .idle ∧ t.sstate = .created) ∧
      stepWords s = List.replicate 8 0x20000000 ∧ t.phase = 0) ∧
    (∃ s t : State, SessionInv s ∧ s.pinReset = false ∧ step s = .next t ∧ ¬(s.sstate = .idle ∧ t.sstate = .created) ∧
      awaitsInit s ∧ t.wait = .header) ∧
    (∃ s t : State, SessionInv s ∧ s.pinReset = false ∧ step s = .next t ∧ ¬(s.sstate = .idle ∧ t.sstate = .created) ∧
      s.wait = .tone 8 ∧ stepWords s = List.replicate 5 0x20000000) ∧
    (∃ s t : State, SessionInv s ∧ s.pinReset = false ∧ step s = .next t ∧ ¬(s.sstate = .idle ∧ t.sstate = .created) ∧
      s.wait = .header ∧ t.wait = .header) ∧
    ∃ s t : State, SessionInv s ∧ s.pinReset = false ∧ step s = .next t ∧ ¬(s.sstate = .idle ∧ t.sstate = .created) ∧
      s.sstate = .active ∧ t.sstate = .idle :=
  ⟨⟨{ rowState with scmd := [0x1000000003E8000000000000] }, _, by constructor <;> decide, rfl, rfl, by decide, by decide,
      by decide⟩,
    ⟨{ rowState with scmd := [0x1100000003E8000000010000], sinkAnswers := List.replicate 8 .ack }, _,
      by constructor <;> decide, rfl, rfl, by decide, by decide, by decide⟩,
    ⟨{ createdState with srate := 40, hcmd := [0x020000000000000000000000], sinkAnswers := [.ack] }, _,
      by constructor <;> decide, rfl, rfl, by decide, ⟨rfl, rfl⟩, rfl⟩,
    ⟨{ rowState with wait := .tone 8, segcnt := 5, segftw := 0x20000000, sinkAnswers := [.ack] }, _,
      by constructor <;> decide, rfl, rfl, by decide, rfl, by decide⟩,
    ⟨headerState, _, inv_headerState, rfl, rfl, by decide, rfl, rfl⟩,
    ⟨{ rowState with wait := .tone1, sinkAnswers := [.fail] }, _, inv_waitingTone, rfl, rfl, by decide, rfl, rfl⟩⟩

theorem witness_SessionEndsWithRunOver :
    ∃ s t : State, SessionInv s ∧ s.pinReset = false ∧ step s = .next t ∧ s.sstate ≠ .idle ∧ t.sstate = .idle :=
  ⟨{ rowState with wait := .tone1, sinkAnswers := [.fail] }, _, inv_waitingTone, rfl, rfl, by decide, rfl⟩

/-- CREATE, INIT completed, a row opened, a row done, and a session ended. -/
theorem witness_SessionTransitions :
    (∃ s t : State, SessionInv s ∧ s.pinReset = false ∧ step s = .next t ∧ s.sstate = .idle ∧ t.sstate = .created) ∧
    (∃ s t : State, SessionInv s ∧ s.pinReset = false ∧ step s = .next t ∧ s.sstate = .created ∧ t.sstate = .active) ∧
    (∃ s t : State, SessionInv s ∧ s.pinReset = false ∧ step s = .next t ∧ s.rowbusy = false ∧ t.rowbusy = true) ∧
    (∃ s t : State, SessionInv s ∧ s.pinReset = false ∧ step s = .next t ∧ t.row.toNat = s.row.toNat + 1) ∧
    ∃ s t : State, SessionInv s ∧ s.pinReset = false ∧ step s = .next t ∧ s.sstate = .active ∧ t.sstate = .idle :=
  ⟨⟨{ idleState with hcmd := [0x010000000000000800000000] }, _, by constructor <;> decide, rfl, rfl, rfl, rfl⟩,
    ⟨{ slowState with hcmd := [0x020000000000000000000000], sinkAnswers := [.ack] }, _, by constructor <;> decide, rfl, rfl, rfl,
      rfl⟩,
    ⟨{ activeState with hcmd := [0x030000000000000000000000] }, _, by constructor <;> decide, rfl, rfl, rfl, rfl⟩,
    ⟨{ rowState with scmd := [stratWord] }, _, by constructor <;> decide, rfl, rfl, by decide⟩,
    ⟨{ activeState with hcmd := [0x060000000000000000000000] }, _, by constructor <;> decide, rfl, rfl, rfl, rfl⟩⟩

theorem witness_TailHasNoEffect : Instr.rdreg 5 ≠ .rdreg 6 ∧ ∃ t, exec (.rdreg 5) activeState = .next t :=
  ⟨by decide, _, rfl⟩

theorem witness_PinsMatterOnlyWhenSampled :
    (∀ a, Instr.getcount ≠ .create a) ∧ Instr.getcount ≠ .init ∧ ∃ t, exec .getcount activeState = .next t :=
  ⟨fun _ h => (by cases h), by decide, _, rfl⟩

end Sys2Proof.Tests
end

section
/-! PROOFS. The session invariant (spec/10_state.md R24): what keeps it, operation by operation, and that every step does. -/

namespace Sys2Proof.Machine

open Sys2Proof

/-! ## What the invariant does not look at -/

/-- The invariant speaks of the session registers and the command in progress: not of the transient registers but HSTEP, nor of the
ports, the trace, the answers, the pins and the arbitration. -/
theorem SessionInv.of_same {s t : State} (h : SessionInv s)
    (e : t = { s with
      par := t.par, segcnt := t.segcnt, segftw := t.segftw, port := t.port, owed := t.owed, out := t.out
      hcmd := t.hcmd, scmd := t.scmd, sinkAnswers := t.sinkAnswers, draws := t.draws }) : SessionInv t := by
  rw [e]
  exact ⟨h.rowOpen, h.session, h.created, h.active, h.initWaits, h.headerWaits, h.toneWaits⟩

theorem SessionInv.respond {s : State} (h : SessionInv s) (p : Port) (rc : RC) (v : BitVec 64) :
    SessionInv (s.respond p rc v) :=
  h.of_same rfl

/-- With nothing in progress and no session the invariant asks for nothing more. -/
theorem SessionInv.of_idle {s : State} (hi : s.sstate = .idle) (hb : s.rowbusy = false) (hw : s.wait = .none) :
    SessionInv s := by
  constructor <;> simp [hi, hb, hw]

theorem SessionInv.sinkAbort {s : State} (hw : s.wait = .none) : SessionInv (sinkAbort s) := by
  rw [sinkAbort_eq]
  exact .of_idle rfl rfl hw

/-- A created session has no row open. -/
theorem SessionInv.rowbusy_of_not_active {s : State} (h : SessionInv s) (ha : s.sstate ≠ .active) : s.rowbusy = false := by
  by_contra hb
  exact ha (h.rowOpen (by simpa using hb)).1

/-- ROW 0 does not pass any HEIGHT. -/
theorem zero_le_height (h : BitVec 16) : 0#16 ≤ h := by simp [BitVec.le_def]

/-! ## The counts of INIT (R94, spec/10_state.md R21) -/

/-- A segment of at most 300 ms has fewer than 2^23 samples at every rate. -/
theorem nsamp_lt_of_le_ms300 {d : BitVec 32} (sr : BitVec 24) (hd : d.toNat ≤ 19660800) : nsamp d sr < 2 ^ 23 := by
  have hm : d.toNat * sr.toNat ≤ 19660800 * 2 ^ 24 := Nat.mul_le_mul hd sr.isLt.le
  unfold nsamp rhu tailDen
  omega

/-- TOTAL is wide enough: the sum of R21 does not wrap. -/
theorem totalOf_toNat (sr : BitVec 24) (tx : BitVec 32) : (totalOf sr tx).toNat = hdrcnt sr + tx.toNat := by
  have h300 := nsamp_lt_of_le_ms300 (d := ms300) sr (by decide)
  have h10 := nsamp_lt_of_le_ms300 (d := ms10) sr (by decide)
  have h30 := nsamp_lt_of_le_ms300 (d := ms30) sr (by decide)
  have htx := tx.isLt
  rw [totalOf, BitVec.toNat_ofNat, hdrcnt]
  omega

/-! ## INIT in progress -/

/-- What holds while an INIT runs, between two of its sink events: the session is created, its counts are latched (R103). -/
structure InitRuns (s : State) : Prop where
  sstate : s.sstate = .created
  rowbusy : s.rowbusy = false
  srate : s.srate ≠ 0
  row : s.row = 0
  total : s.total.toNat = hdrcnt s.srate + s.txcount.toNat
  wait : s.wait = .none

theorem InitRuns.sinkFrame {s t : State} (h : InitRuns s) (f : SinkFrame s t) : InitRuns t := by
  rw [f.same]
  exact ⟨h.sstate, h.rowbusy, h.srate, h.row, h.total, h.wait⟩

/-- INIT begins with its counts latched. -/
theorem initRuns_initAnnounced {s : State} (h : SessionInv s) (hc : s.sstate = .created) (hr : s.srate ≠ 0)
    (hw : s.wait = .none) : InitRuns (initAnnounced s) where
  sstate := hc
  rowbusy := h.rowbusy_of_not_active (by simp [hc])
  srate := hr
  row := rfl
  total := totalOf_toNat _ _
  wait := hw

/-- An INIT that waits goes on with its counts latched. -/
theorem SessionInv.initRuns {s : State} (h : SessionInv s) (hw : s.wait = .sinkInit ∨ s.wait = .header) :
    InitRuns (s.setWait .none) := by
  obtain ⟨hc, hrow, htot⟩ := h.initWaits hw
  exact ⟨hc, h.rowbusy_of_not_active (by simp [hc]), (h.session (by simp [hc])).2, hrow, htot, rfl⟩

/-- INIT's end (R103). -/
theorem InitRuns.finishInit {s : State} (h : InitRuns s) : SessionInv (finishInit s) := by
  obtain ⟨_, hb, hr, hrow, htot, hw⟩ := h
  constructor
  case session => exact fun _ => ⟨by simp [Machine.finishInit, hrow, zero_le_height], hr⟩
  all_goals simp [Machine.finishInit, hb, htot, hw]

/-- INIT left waiting for the sink (R33). -/
theorem InitRuns.setWait {s : State} (h : InitRuns s) {w : Wait} (hw : w = .sinkInit ∨ w = .header)
    (hh : w = .header → s.hstep.toNat ≤ 12) : SessionInv (s.setWait w) := by
  obtain ⟨hc, hb, hr, hrow, htot, _⟩ := h
  constructor
  case session => exact fun _ => ⟨by simp [hrow, zero_le_height], hr⟩
  case headerWaits => exact hh
  all_goals rcases hw with rfl | rfl <;> simp [hc, hb, hrow, htot]

/-- However a run of INIT ends, the invariant holds, if HSTEP names a segment while it waits. -/
theorem InitRuns.sinkEnd {u t : State} {r : Result} (h : InitRuns u) (he : SinkEnd u Machine.finishInit .header r)
    (hr : r = .next t) (hh : t.wait = .header → t.hstep.toNat ≤ 12) : SessionInv t := by
  cases he with
  | finished v f => cases hr; exact (h.sinkFrame f).finishInit
  | aborted v f => cases hr; exact .sinkAbort (h.sinkFrame f).wait
  | waits v f => cases hr; exact (h.sinkFrame f).setWait (.inr rfl) fun _ => hh rfl

/-! ## HSTEP names one of the thirteen segments (spec/41_vis_header.md R96) -/

/-- While a header waits for the sink, HSTEP is the index of one of its segments. -/
def HeaderBounded (s : State) : Prop := s.wait = .header → s.hstep.toNat ≤ 12

theorem HeaderBounded.of_wait {s : State} (h : s.wait ≠ .header) : HeaderBounded s := fun hw => absurd hw h

theorem samples_hstep (n : Nat) (s : State) : (samples n s).Carries fun t => t.hstep = s.hstep := by
  rcases answers_cases n s.sinkAnswers with ⟨rest, h⟩ | ⟨k, rest, hk, h⟩ | ⟨k, hk, h⟩
  · rw [samples_ack n s rest h]; exact rfl
  · rw [samples_fail n k s rest hk h]; exact rfl
  · rw [samples_wait n k s hk h]; exact rfl

theorem toneSeg_hstep (f d : BitVec 32) (s : State) : (toneSeg f d s).Carries fun t => t.hstep = s.hstep :=
  (samples_hstep _ _).imp fun _ h => h.trans (loadSegment_hstep s f d)

/-- Every segment entered has an index below 13, and nothing else writes HSTEP. -/
theorem segmentsFrom_hstep (k : Nat) (table : List (HeaderTone × BitVec 32)) (s : State) (hk : k + table.length ≤ 13)
    (hs : s.hstep.toNat ≤ 12) : (segmentsFrom k table s).Carries fun t => t.hstep.toNat ≤ 12 := by
  induction table generalizing k s with
  | nil => exact hs
  | cons x rest ih =>
    have hlen : k + rest.length + 1 ≤ 13 := hk
    have hentered : (enterSegment k x.1 s).hstep.toNat ≤ 12 := by
      rw [enterSegment_hstep, BitVec.toNat_ofNat]
      omega
    refine SinkRun.Carries.andThen ?_ fun t ht => ih (k + 1) t (by omega) ht
    exact (toneSeg_hstep _ _ _).imp fun t ht => ht ▸ hentered

/-- The header enters segment 0 first, whatever HSTEP was. -/
theorem writeHeader_hstep (s : State) : (writeHeader s).Carries fun t => t.hstep.toNat ≤ 12 :=
  segmentsFrom_hstep 0 headerTable { s with par := false, hstep := 0 } (by decide) (by simp)

theorem resumeHeader_hstep {s : State} (hs : s.hstep.toNat ≤ 12) :
    (resumeHeader s).Carries fun t => t.hstep.toNat ≤ 12 := by
  refine SinkRun.Carries.andThen ((samples_hstep _ s).imp fun t ht => ht ▸ hs) fun t ht => ?_
  refine segmentsFrom_hstep _ _ t ?_ ht
  rw [List.length_drop, show headerTable.length = 13 from rfl]
  omega

theorem SinkRun.Carries.mark_header {r : SinkRun} (h : r.Carries fun t => t.hstep.toNat ≤ 12) :
    (r.mark .header).Carries HeaderBounded := by
  cases r <;> exact fun _ => h

theorem takeAnswer_same_header (s : State) : (takeAnswer s).Carries fun t => t.wait = s.wait ∧ t.hstep = s.hstep := by
  match h : s.sinkAnswers with
  | [] => rw [takeAnswer_nil h]; exact ⟨rfl, rfl⟩
  | .ack :: rest => rw [takeAnswer_ack h]; exact ⟨rfl, rfl⟩
  | .fail :: rest => rw [takeAnswer_fail h]; exact ⟨rfl, rfl⟩

/-- The response to INIT and the abort leave HSTEP and the command in progress alone. -/
theorem SinkRun.Carries.settle_headerBounded {r : SinkRun} {t : State} (h : r.Carries HeaderBounded)
    (hr : r.settle finishInit = .next t) : HeaderBounded t := by
  rcases SinkRun.settle_cases r finishInit with ⟨v, rfl, e⟩ | ⟨v, rfl, e⟩ | ⟨v, rfl, e⟩
  · cases e.symm.trans hr; exact h
  · cases e.symm.trans hr; rw [sinkAbort_eq]; exact h
  · cases e.symm.trans hr; exact h

/-- INIT after SINK_INIT: what is left waiting waits for SINK_INIT's answer, or inside the header. -/
theorem headerOfInit_headerBounded {s t : State} (hw : s.wait ≠ .header)
    (h : (((takeAnswer s).mark .sinkInit).andThen headerOfInit).settle finishInit = .next t) : HeaderBounded t := by
  refine SinkRun.Carries.settle_headerBounded (SinkRun.Carries.andThen ?_ fun v _ => (writeHeader_hstep v).mark_header) h
  have ht := takeAnswer_same_header s
  cases hr : takeAnswer s with
  | done v => rw [hr] at ht; exact .of_wait (ht.1 ▸ hw)
  | failed v => rw [hr] at ht; exact .of_wait (ht.1 ▸ hw)
  | waiting v => exact .of_wait (by simp)

theorem execInit_headerBounded {s t : State} (hw : s.wait = .none) (h : execInit s = .next t) : HeaderBounded t := by
  rcases whenAllowed_cases .init s (fun s => withRate s fun s =>
      (((takeAnswer (initAnnounced s)).mark .sinkInit).andThen headerOfInit).settle finishInit)
    with ⟨_, e⟩ | ⟨_, _, _, e⟩ | ⟨_, _, _, e⟩
  · cases e.symm.trans h; exact .of_wait (by simp [hw])
  · cases e.symm.trans h; exact .of_wait (by simp [hw])
  · have hrun := e.symm.trans h
    by_cases hr : s.srate = 0
    · cases (withRate_zero _ hr).symm.trans hrun
    · exact headerOfInit_headerBounded (s := initAnnounced s) (by simp [initAnnounced, hw])
        ((withRate_pos _ hr).symm.trans hrun)

theorem resumeInit_headerBounded {s t : State} (hw : s.wait = .sinkInit ∨ s.wait = .header) (hs : HeaderBounded s)
    (hr : s.srate ≠ 0) (h : resumeCommand s = .next t) : HeaderBounded t := by
  rcases hw with hw | hw
  · simp only [resumeCommand, hw] at h
    rw [withRate_pos _ (by exact hr)] at h
    exact headerOfInit_headerBounded (by simp) h
  · simp only [resumeCommand, hw] at h
    rw [withRate_pos _ (by exact hr)] at h
    refine SinkRun.Carries.settle_headerBounded (SinkRun.Carries.mark_header ?_) h
    refine SinkRun.Carries.andThen ((takeAnswer_same_header _).imp fun v hv => ?_) fun v hv => resumeHeader_hstep hv
    rw [hv.2]
    exact hs hw

/-! ## The tones -/

/-- The oscillator keeps the invariant while a row is open and no command waits: the session is ACTIVE, so PHASE and TAIL are free
(R24 item 4). -/
theorem SessionInv.sinkFrame {s t : State} (h : SessionInv s) (hb : s.rowbusy = true) (hw : s.wait = .none)
    (f : SinkFrame s t) : SessionInv t := by
  have ha := (h.rowOpen hb).1
  rw [f.same]
  exact ⟨h.rowOpen, h.session, by simp [ha], h.active, by simp [hw], by simp [hw], by simp [hw]⟩

/-- A tone that goes on waits no more: the invariant holds of the open row without it. -/
theorem SessionInv.toneResumes {s : State} (h : SessionInv s) (hb : s.rowbusy = true) :
    SessionInv (s.setWait .none) := by
  have ha := (h.rowOpen hb).1
  exact ⟨h.rowOpen, h.session, by simp [ha], h.active, by simp, by simp, by simp⟩

/-- However a tone ends, the invariant holds: `finish` only responds, `w` names the tone. -/
theorem SessionInv.sinkEnd_tone {u t : State} {finish : State → State} {w : Wait} {r : Result} (h : SessionInv u)
    (hb : u.rowbusy = true) (hw : u.wait = .none) (he : SinkEnd u finish w r) (hr : r = .next t)
    (hf : ∀ v, SessionInv v → SessionInv (finish v)) (hn : w ≠ .none ∧ w ≠ .sinkInit ∧ w ≠ .header) : SessionInv t := by
  cases he with
  | finished v f => cases hr; exact hf v (h.sinkFrame hb hw f)
  | aborted v f =>
    cases hr
    exact .sinkAbort (by rw [f.same]; exact hw)
  | waits v f =>
    cases hr
    have hv := h.sinkFrame hb hw f
    have hvb : v.rowbusy = true := by rw [f.same]; exact hb
    exact ⟨hv.rowOpen, hv.session, fun _ h0 => absurd h0 hn.1, hv.active, fun h0 => absurd h0 (by simp [hn]),
      fun h0 => absurd h0 hn.2.2, fun _ _ _ => hvb⟩

/-! ## The commands -/

theorem execCreate_sessionInv {a : BitVec 32} {s t : State} (h : SessionInv s) (hw : s.wait = .none)
    (he : execCreate a s = .next t) : SessionInv t := by
  rcases execCreate_cases a s with e | e | ⟨_, _, e⟩ | ⟨_, hi, hpin, e⟩
  · cases e.symm.trans he; exact h.respond ..
  · cases e.symm.trans he; exact h.respond ..
  · cases e.symm.trans he; exact h.respond ..
  · cases e.symm.trans he
    have hb := h.rowbusy_of_not_active (by simp [hi])
    constructor
    case session => exact fun _ => ⟨zero_le_height _, hpin⟩
    all_goals simp [hb, hw]

theorem execInit_sessionInv {s t : State} (h : SessionInv s) (hw : s.wait = .none) (he : execInit s = .next t) :
    SessionInv t := by
  rcases execInit_cases s with e | e | ⟨_, _, _, e⟩ | ⟨_, hc, hr, hend | e⟩
  · cases e.symm.trans he; exact h.respond ..
  · cases e.symm.trans he; exact h.respond ..
  · cases e.symm.trans he
  · exact (initRuns_initAnnounced h hc hr hw).sinkEnd hend he (execInit_headerBounded hw he)
  · cases e.symm.trans he
    exact (initRuns_initAnnounced h hc hr hw).setWait (.inl rfl) nofun

/-- PROCESS opens a row below HEIGHT (R104). -/
theorem execProcess_sessionInv {s t : State} (h : SessionInv s) (hw : s.wait = .none) (he : execProcess s = .next t) :
    SessionInv t := by
  rcases execProcess_cases s with e | e | ⟨_, _, _, e⟩ | ⟨_, ha, hlt, e⟩
  · cases e.symm.trans he; exact h.respond ..
  · cases e.symm.trans he; exact h.respond ..
  · cases e.symm.trans he; exact h.respond ..
  · cases e.symm.trans he
    exact ⟨fun _ => ⟨ha, BitVec.not_le.mp hlt⟩, h.session, h.created, h.active, h.initWaits, h.headerWaits,
      fun h0 => absurd hw h0⟩

/-- ROWDONE counts a row that was below HEIGHT (R106). -/
theorem execRowdone_sessionInv {s t : State} (h : SessionInv s) (hw : s.wait = .none) (he : execRowdone s = .next t) :
    SessionInv t := by
  rcases execRowdone_cases s with e | e | ⟨_, hb, e⟩
  · cases e.symm.trans he; exact h.respond ..
  · cases e.symm.trans he; exact h.respond ..
  · cases e.symm.trans he
    obtain ⟨ha, hlt⟩ := h.rowOpen hb
    have hr := (h.session (by simp [ha])).2
    have hle : s.row + 1 ≤ s.height := by bv_omega
    constructor
    case session => exact fun _ => ⟨hle, hr⟩
    all_goals simp [ha, hw, h.active ha]

/-- FINISH arrives on HCMD, which is not served while a row is open (spec/20_memory.md R32). -/
theorem execFinish_sessionInv {c : Bool} {s t : State} (h : SessionInv s) (hw : s.wait = .none)
    (hp : s.port = .hcmd → s.rowbusy = false) (he : execFinish c s = .next t) : SessionInv t := by
  rcases execFinish_cases c s with e | e | ⟨hport, _, e⟩
  · cases e.symm.trans he; exact h.respond ..
  · cases e.symm.trans he; exact h.respond ..
  · cases e.symm.trans he; exact .of_idle rfl (hp hport) hw

theorem execTone1_sessionInv {f : BitVec 32} {s t : State} (h : SessionInv s) (hw : s.wait = .none)
    (he : execTone1 f s = .next t) : SessionInv t := by
  rcases execTone1_cases f s with e | e | ⟨_, _, _, e⟩ | ⟨_, hb, _, hend⟩
  · cases e.symm.trans he; exact h.respond ..
  · cases e.symm.trans he; exact h.respond ..
  · cases e.symm.trans he
  · exact h.sinkEnd_tone hb hw hend he (fun v hv => hv.respond ..) (by simp)

theorem execTone_sessionInv {f d : BitVec 32} {s t : State} (h : SessionInv s) (hw : s.wait = .none)
    (he : execTone f d s = .next t) : SessionInv t := by
  rcases execTone_cases f d s with e | e | ⟨_, _, _, e⟩ | ⟨_, hb, _, hend⟩
  · cases e.symm.trans he; exact h.respond ..
  · cases e.symm.trans he; exact h.respond ..
  · cases e.symm.trans he
  · exact h.sinkEnd_tone hb hw hend he (fun v hv => hv.respond ..) (by simp)

theorem query_sessionInv {i : Instr} {s t : State} (h : SessionInv s)
    (hi : i = .getcount ∨ i = .gettotal ∨ (∃ a, i = .rdreg a) ∨ ∃ a, i = .freqof a) (he : exec i s = .next t) :
    SessionInv t := by
  obtain ⟨rc, v, _, e⟩ := query_cases s hi
  cases e.symm.trans he
  exact h.respond ..

/-- Every command keeps the invariant, from a state in which none waits and in which HCMD is served only between rows. -/
theorem exec_sessionInv {i : Instr} {s t : State} (h : SessionInv s) (hw : s.wait = .none)
    (hp : s.port = .hcmd → s.rowbusy = false) (he : exec i s = .next t) : SessionInv t := by
  cases i with
  | create a => exact execCreate_sessionInv h hw he
  | init => exact execInit_sessionInv h hw he
  | process => exact execProcess_sessionInv h hw he
  | getcount => exact query_sessionInv h (by simp) he
  | gettotal => exact query_sessionInv h (by simp) he
  | finish c => exact execFinish_sessionInv h hw hp he
  | rdreg a => exact query_sessionInv h (by simp) he
  | freqof a => exact query_sessionInv h (by simp) he
  | tone1 f => exact execTone1_sessionInv h hw he
  | tone f d => exact execTone_sessionInv h hw he
  | rowdone => exact execRowdone_sessionInv h hw he

/-- Going on with a command that waited keeps the invariant (R33). -/
theorem resumeCommand_sessionInv {s t : State} (h : SessionInv s) (he : resumeCommand s = .next t) : SessionInv t := by
  rcases resumeCommand_cases s with ⟨_, e⟩ | ⟨_, _, e⟩ | ⟨hw, hr, hend | ⟨_, _, e⟩⟩ | ⟨hw, hend⟩ | ⟨n, hw, hend⟩
  · cases e.symm.trans he; exact h
  · cases e.symm.trans he
  · exact (h.initRuns hw).sinkEnd hend he (resumeInit_headerBounded hw h.headerWaits hr he)
  · cases e.symm.trans he; exact h
  · have hb := h.toneWaits (by simp [hw]) (by simp [hw]) (by simp [hw])
    exact (h.toneResumes hb).sinkEnd_tone hb rfl hend he (fun v hv => hv.respond ..) (by simp)
  · have hb := h.toneWaits (by simp [hw]) (by simp [hw]) (by simp [hw])
    exact (h.toneResumes hb).sinkEnd_tone hb rfl hend he (fun v hv => hv.respond ..) (by simp)

/-! ## Accepting a command, and the step -/

/-- An accepted command finds the invariant, no command waiting, and no row open if it came on HCMD. -/
theorem accept_sessionInv {s t : State} {w : CmdWord} (h : SessionInv s) (hw : s.wait = .none)
    (ha : accept s = some (w, t)) : SessionInv t ∧ t.wait = .none ∧ (t.port = .hcmd → t.rowbusy = false) := by
  rcases accept_cases ha with ⟨hb, _, e⟩ | ⟨_, e⟩
  · rw [e]
    exact ⟨h.of_same rfl, hw, fun _ => hb⟩
  · rw [e]
    exact ⟨h.of_same rfl, hw, nofun⟩

theorem applyReset_sessionInv (s : State) : SessionInv (applyReset s) := .of_idle rfl rfl rfl

/-- Settles O50: RESET leads to an idle state, a waiting step changes nothing, and accepting, executing and resuming a command each
keep the invariant. -/
theorem stepKeepsSessionInvariant : Obligations.StepKeepsSessionInvariant := by
  intro s t h hstep
  rcases step_cases hstep with ⟨_, e⟩ | ⟨_, _, _, e⟩ | ⟨_, _, _, e⟩ | ⟨_, _, _, e⟩ | ⟨w, u, err, _, hw, ha, _, e⟩ |
    ⟨w, u, i, _, hw, ha, _, e⟩
  · cases e; exact applyReset_sessionInv s
  · cases e; exact h
  · exact resumeCommand_sessionInv h e.symm
  · cases e; exact h
  · obtain ⟨hu, _, _⟩ := accept_sessionInv h hw ha
    cases e; exact hu.respond ..
  · obtain ⟨hu, huw, hup⟩ := accept_sessionInv h hw ha
    exact exec_sessionInv hu huw hup e.symm

/-! ## RESET -/

/-- Settles O49: the reset state is IDLE with nothing in progress, which is all the invariant looks at there. -/
theorem resetHasSessionInvariant : Obligations.ResetHasSessionInvariant := SessionInv.of_idle rfl rfl rfl

/-- While RESET is asserted the core stays in the reset state (spec/70_reset_and_hazards.md R150). -/
theorem step_of_pinReset {s : State} (h : s.pinReset = true) : step s = .next (applyReset s) := by
  simp [step, nextMove, h]

/-- Settles O13: each such step is `applyReset`, which keeps the inputs. -/
theorem resetIsIdle : Obligations.ResetIsIdle :=
  ⟨⟨rfl, rfl, rfl, rfl⟩, fun s h => ⟨applyReset s, step_of_pinReset h, rfl, rfl, rfl, rfl, h, rfl, rfl, rfl⟩⟩

end Sys2Proof.Machine
end

section
/-! PROOFS. What a command cannot depend on: TAIL (spec/10_state.md R12, spec/40_oscillator.md R75) and the pins
(spec/10_state.md R22). Both are one change of the state that every command but CREATE and INIT carries along unread. -/

namespace Sys2Proof.Machine

open Sys2Proof

/-! ## A change of TAIL and the pins -/

/-- What is added to TAIL, and what becomes of each pin. -/
structure Change where
  tail : BitVec 64
  sinkSrate : BitVec 24 → BitVec 24
  imgHeight : BitVec 16 → BitVec 16
  stratTxcount : BitVec 32 → BitVec 32

/-- `s` with TAIL and the pins changed. TAIL is changed by an addend, because a segment adds its residual to it (R75). -/
def State.change (c : Change) (s : State) : State :=
  { s with
    tail := s.tail + c.tail
    pinSinkSrate := c.sinkSrate s.pinSinkSrate
    pinImgHeight := c.imgHeight s.pinImgHeight
    pinStratTxcount := c.stratTxcount s.pinStratTxcount }

/-- The change that gives TAIL the value `x` in `s`. -/
def Change.toTail (s : State) (x : BitVec 64) : Change := ⟨x - s.tail, id, id, id⟩

/-- The change that gives the pins these values. -/
def Change.toPins (sr : BitVec 24) (h : BitVec 16) (tx : BitVec 32) : Change := ⟨0, fun _ => sr, fun _ => h, fun _ => tx⟩

theorem State.change_toTail (s t : State) (x : BitVec 64) :
    t.change (.toTail s x) = { t with tail := t.tail + (x - s.tail) } := rfl

theorem State.change_toTail_self (s : State) (x : BitVec 64) : s.change (.toTail s x) = { s with tail := x } := by
  rw [State.change_toTail, BitVec.add_comm, BitVec.sub_add_cancel]

theorem State.change_toPins (s : State) (sr : BitVec 24) (h : BitVec 16) (tx : BitVec 32) :
    s.change (.toPins sr h tx) = { s with pinSinkSrate := sr, pinImgHeight := h, pinStratTxcount := tx } := by
  simp [State.change, Change.toPins]

/-- `f` on the state a run carries. -/
def SinkRun.map (f : State → State) : SinkRun → SinkRun
  | .done s => .done (f s)
  | .failed s => .failed (f s)
  | .waiting s => .waiting (f s)

/-- `f` on the next state. -/
def mapNext (f : State → State) : Result → Result
  | .next s => .next (f s)
  | .fault r => .fault r
  | .refused r => .refused r

@[simp] theorem mapNext_next (f : State → State) (s : State) : mapNext f (.next s) = .next (f s) := rfl

section change
variable (c : Change) (s : State)

/-! ## The operations carry the change along -/

@[simp] theorem State.change_sstate : (s.change c).sstate = s.sstate := rfl
@[simp] theorem State.change_rowbusy : (s.change c).rowbusy = s.rowbusy := rfl
@[simp] theorem State.change_srate : (s.change c).srate = s.srate := rfl
@[simp] theorem State.change_height : (s.change c).height = s.height := rfl
@[simp] theorem State.change_row : (s.change c).row = s.row := rfl
@[simp] theorem State.change_tail : (s.change c).tail = s.tail + c.tail := rfl
@[simp] theorem State.change_total : (s.change c).total = s.total := rfl
@[simp] theorem State.change_segftw : (s.change c).segftw = s.segftw := rfl
@[simp] theorem State.change_port : (s.change c).port = s.port := rfl
@[simp] theorem State.change_sinkAnswers : (s.change c).sinkAnswers = s.sinkAnswers := rfl

theorem respond_change (p : Port) (rc : RC) (v : BitVec 64) :
    (s.change c).respond p rc v = (s.respond p rc v).change c := rfl

theorem openRow_change : openRow (s.change c) = (openRow s).change c := rfl

theorem sinkAbort_change : sinkAbort (s.change c) = (sinkAbort s).change c := by
  rw [sinkAbort_eq, sinkAbort_eq]
  rfl

theorem raise_change (e : Error) : raise e (s.change c) = (raise e s).change c := by
  cases e with
  | sinkFailure => exact sinkAbort_change c s
  | invalidConfiguration => rfl
  | illegalCommand => rfl
  | illegalState => rfl

theorem setSegment_change (t : BitVec 64) (n w : BitVec 32) :
    setSegment (t + c.tail) n w (s.change c) = (setSegment t n w s).change c := rfl

/-- The residual is added to a TAIL that the change has already moved. -/
theorem loadSegment_change (f d : BitVec 32) : loadSegment f d (s.change c) = (loadSegment f d s).change c := by
  rw [loadSegment, loadSegment, State.change_srate, State.change_tail, ← setSegment_change, BitVec.add_assoc, BitVec.add_assoc,
    BitVec.add_comm c.tail]

theorem sample_change (w : BitVec 32) : sample w (s.change c) = (sample w s).map (State.change c) := by
  match h : s.sinkAnswers with
  | [] => rw [sample_nil w h, sample_nil w (s := s.change c) h]; rfl
  | .ack :: rest => rw [sample_ack w h, sample_ack w (s := s.change c) h]; rfl
  | .fail :: rest => rw [sample_fail w h, sample_fail w (s := s.change c) h]; rfl

/-- Continuations that carry the change along, after a run that does. -/
theorem SinkRun.andThen_map (r : SinkRun) {k : State → SinkRun}
    (hk : ∀ t, k (t.change c) = (k t).map (State.change c)) :
    (r.map (State.change c)).andThen k = (r.andThen k).map (State.change c) := by
  cases r with
  | done t => exact hk t
  | failed t => rfl
  | waiting t => rfl

/-- No sample reads TAIL or a pin. -/
theorem samples_change (n : Nat) : samples n (s.change c) = (samples n s).map (State.change c) := by
  induction n generalizing s with
  | zero => rfl
  | succ n ih =>
    have hs := sample_change c { s with segcnt := BitVec.ofNat 32 n } s.segftw
    exact (congrArg (fun r => r.andThen (samples n)) hs).trans (SinkRun.andThen_map c _ ih)

theorem toneSeg_change (f d : BitVec 32) : toneSeg f d (s.change c) = (toneSeg f d s).map (State.change c) := by
  rw [toneSeg, loadSegment_change]
  exact samples_change c _ _

theorem SinkRun.settle_mark_map (r : SinkRun) (w : Wait) {finish : State → State}
    (hf : ∀ t, finish (t.change c) = (finish t).change c) :
    ((r.map (State.change c)).mark w).settle finish = mapNext (State.change c) ((r.mark w).settle finish) := by
  cases r with
  | done t => exact congrArg _ (hf t)
  | failed t => exact congrArg _ (sinkAbort_change c t)
  | waiting t => rfl

/-! ## The commands carry the change along -/

theorem stateAllows_change (i : Instr) : stateAllows i (s.change c) = stateAllows i s := by
  cases i <;> rfl

/-- No check of R57 reads TAIL or a pin: from `s` and from `s` changed a command fails with the same error, or its body runs. -/
theorem whenAllowed_change_rel (i : Instr) {body : State → Result} {P : Result → Result → Prop}
    (herr : ∀ e, P (.next ((raise e s).change c)) (.next (raise e s))) (hb : P (body (s.change c)) (body s)) :
    P (whenAllowed i (s.change c) body) (whenAllowed i s body) := by
  unfold whenAllowed
  rw [State.change_port, stateAllows_change, raise_change, raise_change]
  split
  · exact herr _
  · split
    · exact herr _
    · split
      · exact hb
      · exact herr _

/-- A command carries the change along if its body does. -/
theorem whenAllowed_change (i : Instr) {body : State → Result}
    (hb : body (s.change c) = mapNext (State.change c) (body s)) :
    whenAllowed i (s.change c) body = mapNext (State.change c) (whenAllowed i s body) :=
  whenAllowed_change_rel c s i (P := fun q r => q = mapNext (State.change c) r) (fun _ => rfl) hb

theorem withRate_change {body : State → Result} (hb : body (s.change c) = mapNext (State.change c) (body s)) :
    withRate (s.change c) body = mapNext (State.change c) (withRate s body) := by
  by_cases hr : s.srate = 0
  · rw [withRate_zero _ hr, withRate_zero _ (s := s.change c) hr]; rfl
  · rw [withRate_pos _ hr, withRate_pos _ (s := s.change c) hr]; exact hb

/-- Register 6 alone shows TAIL, and none shows a pin (spec/20_memory.md R36). -/
theorem memRead_change {n : Nat} (h : n = 6 → c.tail = 0) : memRead n (s.change c) = memRead n s := by
  by_cases h6 : n = 6
  · simp [memRead, State.change, h h6, statusWord]
  · simp [memRead, State.change, h6, statusWord]

theorem execRdreg_change {a : BitVec 32} (h : a = 6 → c.tail = 0) :
    execRdreg a (s.change c) = mapNext (State.change c) (execRdreg a s) := by
  refine whenAllowed_change c s _ ?_
  have hn : a.toNat = 6 → c.tail = 0 := fun h6 => h (BitVec.eq_of_toNat_eq h6)
  simp only [memRead_change c s hn]
  split
  · rfl
  · exact congrArg _ (raise_change c s _)

theorem execTone1_change (f : BitVec 32) : execTone1 f (s.change c) = mapNext (State.change c) (execTone1 f s) := by
  refine whenAllowed_change c s _ (withRate_change c s ?_)
  rw [sample_change]
  exact SinkRun.settle_mark_map c _ _ fun t => respond_change c t _ _ _

theorem execTone_change (f d : BitVec 32) : execTone f d (s.change c) = mapNext (State.change c) (execTone f d s) := by
  refine whenAllowed_change c s _ (withRate_change c s ?_)
  rw [toneSeg_change]
  exact SinkRun.settle_mark_map c _ _ fun t => respond_change c t _ _ _

theorem execProcess_change : execProcess (s.change c) = mapNext (State.change c) (execProcess s) := by
  refine whenAllowed_change c s _ ?_
  rw [State.change_height, State.change_row]
  split
  · rfl
  · exact congrArg _ (openRow_change c s)

theorem execGetcount_change : execGetcount (s.change c) = mapNext (State.change c) (execGetcount s) :=
  whenAllowed_change c s _ rfl

theorem execGettotal_change : execGettotal (s.change c) = mapNext (State.change c) (execGettotal s) :=
  whenAllowed_change c s _ rfl

theorem execFinish_change (b : Bool) : execFinish b (s.change c) = mapNext (State.change c) (execFinish b s) :=
  whenAllowed_change c s _ rfl

theorem execFreqof_change (a : BitVec 32) : execFreqof a (s.change c) = mapNext (State.change c) (execFreqof a s) :=
  whenAllowed_change c s _ rfl

theorem execRowdone_change : execRowdone (s.change c) = mapNext (State.change c) (execRowdone s) :=
  whenAllowed_change c s _ rfl

/-- Every command but CREATE and INIT carries a change of TAIL and the pins along, RDREG 6 if TAIL stays. -/
theorem exec_change {i : Instr} (hc : ∀ a, i ≠ .create a) (hi : i ≠ .init) (h6 : i = .rdreg 6 → c.tail = 0) :
    exec i (s.change c) = mapNext (State.change c) (exec i s) := by
  cases i with
  | create a => exact absurd rfl (hc a)
  | init => exact absurd rfl hi
  | process => exact execProcess_change c s
  | getcount => exact execGetcount_change c s
  | gettotal => exact execGettotal_change c s
  | finish b => exact execFinish_change c s b
  | rdreg a => exact execRdreg_change c s fun ha => h6 (ha ▸ rfl)
  | freqof a => exact execFreqof_change c s a
  | tone1 f => exact execTone1_change c s f
  | tone f d => exact execTone_change c s f d
  | rowdone => exact execRowdone_change c s

end change

/-- Settles O60: the pins are a change that leaves TAIL alone. -/
theorem pinsMatterOnlyWhenSampled : Obligations.PinsMatterOnlyWhenSampled := by
  intro i s t sr h tx hc hi he
  have hchange := exec_change (.toPins sr h tx) s hc hi fun _ => rfl
  rw [he, mapNext_next, State.change_toPins, State.change_toPins] at hchange
  exact hchange

/-! ## CREATE and INIT overwrite TAIL -/

/-- If `r` gives a next state, `q` gives the same in everything but TAIL. -/
def SameButTail (q r : Result) : Prop := ∀ t, r = .next t → ∃ y, q = .next { t with tail := y }

theorem SameButTail.refl (r : Result) : SameButTail r r := fun t h => ⟨t.tail, h⟩

section tail
variable (s : State) (x : BitVec 64)

theorem sameButTail_change (u : State) : SameButTail (.next (u.change (.toTail s x))) (.next u) := by
  intro t h
  cases h
  exact ⟨_, rfl⟩

theorem createSession_change_toTail (a : BitVec 32) : createSession a (s.change (.toTail s x)) = createSession a s := rfl

theorem initSession_change_toTail : initSession (s.change (.toTail s x)) = initSession s := rfl

/-- CREATE refused changes nothing, and CREATE that succeeds clears TAIL (R102). -/
theorem execCreate_sameButTail (a : BitVec 32) :
    SameButTail (execCreate a (s.change (.toTail s x))) (execCreate a s) := by
  refine whenAllowed_change_rel _ s _ (fun e => sameButTail_change s x _) ?_
  rw [createSession_change_toTail, raise_change, show (s.change (.toTail s x)).pinSinkSrate = s.pinSinkSrate from rfl]
  split
  · exact sameButTail_change s x _
  · exact .refl _

/-- INIT clears TAIL before its first event (R103). -/
theorem execInit_sameButTail : SameButTail (execInit (s.change (.toTail s x))) (execInit s) := by
  refine whenAllowed_change_rel _ s _ (fun e => sameButTail_change s x _) ?_
  simp only [withRate, State.change_srate, initSession_change_toTail]
  exact .refl _

end tail

/-- Settles O59: CREATE and INIT overwrite TAIL before they could read it; the other commands carry a change of it along. -/
theorem tailHasNoEffect : Obligations.TailHasNoEffect := by
  intro i s t x h6 he
  rw [← State.change_toTail_self s x]
  by_cases hc : ∃ a, i = .create a
  · obtain ⟨a, rfl⟩ := hc
    exact execCreate_sameButTail s x a t he
  · by_cases hi : i = .init
    · subst hi
      exact execInit_sameButTail s x t he
    · rw [exec_change _ s (fun a ha => hc ⟨a, ha⟩) hi (absurd · h6), he]
      exact ⟨_, rfl⟩

end Sys2Proof.Machine
end

section
/-! PROOFS. Which command a step runs, and when it waits (spec/20_memory.md R32, R33; spec/30_encoding.md R57). -/

namespace Sys2Proof.Machine

open Sys2Proof

/-! ## The next move -/

/-- With an answer there a waiting command goes on (R33). -/
theorem step_of_answer {s : State} (hr : s.pinReset = false) (hw : s.wait ≠ .none) (ha : s.sinkAnswers ≠ []) :
    step s = resumeCommand s := by
  simp [step, nextMove, hr, hw, ha]

/-- Without an answer it waits (R33). -/
theorem step_of_no_answer {s : State} (hr : s.pinReset = false) (hw : s.wait ≠ .none) (ha : s.sinkAnswers = []) :
    step s = .next s := by
  simp [step, nextMove, hr, hw, ha]

/-- With no command to accept the core waits (spec/60_exceptions.md R144). -/
theorem step_of_accept_none {s : State} (hr : s.pinReset = false) (hw : s.wait = .none) (ha : accept s = none) :
    step s = .next s := by
  simp [step, nextMove, hr, hw, ha]

/-- An accepted word that decodes is the next move (R57). -/
theorem nextMove_of_accept {s t : State} {w : CmdWord} {i : Instr} (hr : s.pinReset = false) (hw : s.wait = .none)
    (ha : accept s = some (w, t)) (hd : decode w = .ok i) : nextMove s = .run i t := by
  simp [nextMove, hr, hw, ha, hd]

theorem step_of_accept {s t : State} {w : CmdWord} {i : Instr} (hr : s.pinReset = false) (hw : s.wait = .none)
    (ha : accept s = some (w, t)) (hd : decode w = .ok i) : step s = exec i t := by
  rw [step, nextMove_of_accept hr hw ha hd]

/-! ## Which port is served (R32) -/

theorem acceptFrom_hcmd {s : State} {w : CmdWord} {rest : List CmdWord} (h : s.hcmd = w :: rest) :
    acceptFrom .hcmd s = some (w, { s with hcmd := rest, port := .hcmd, owed := none }) := by
  simp [acceptFrom, h]

theorem acceptFrom_scmd {s : State} {w : CmdWord} {rest : List CmdWord} (h : s.scmd = w :: rest) :
    acceptFrom .scmd s = some (w, { s with scmd := rest, port := .scmd, owed := none }) := by
  simp [acceptFrom, h]

/-- HCMD is served between rows, if it presents a word and SCMD presents none or HCMD is owed the turn. -/
theorem accept_eq_hcmd {s : State} (hb : s.rowbusy = false) (hh : s.hcmd ≠ []) (ho : s.scmd = [] ∨ s.owed = some .hcmd) :
    accept s = acceptFrom .hcmd s := by
  by_cases hs : s.scmd = []
  · simp [accept, hb, hh, hs]
  · have hown := ho.resolve_left hs
    simp [accept, hb, hh, hs, hown]

/-- SCMD is served in an open row, or if HCMD presents nothing, or if SCMD presents a word and is owed the turn. -/
theorem accept_eq_scmd {s : State} (ho : s.rowbusy = true ∨ s.hcmd = [] ∨ s.scmd ≠ [] ∧ s.owed = some .scmd) :
    accept s = acceptFrom .scmd s := by
  cases hb : s.rowbusy
  · by_cases hh : s.hcmd = []
    · simp [accept, hb, hh]
    · obtain ⟨hs, hown⟩ := (ho.resolve_left (by simp [hb])).resolve_left hh
      simp [accept, hb, hh, hs, hown]
  · simp [accept, hb]

/-- Between rows, with a word on both ports and no turn owed, a draw decides. -/
theorem accept_eq_drawn {s : State} (hb : s.rowbusy = false) (hh : s.hcmd ≠ []) (hs : s.scmd ≠ []) (ho : s.owed = none) :
    accept s = acceptDrawn s := by
  simp [accept, hb, hh, hs, ho]

/-- A draw accepts from the port the free value names, and owes the other port the next turn (assumption log 9). -/
theorem acceptDrawn_eq {s u : State} {w : CmdWord} {p : Port} (hp : Config.firstPort s.draws = p)
    (h : acceptFrom p s = some (w, u)) :
    acceptDrawn s = some (w, { u with draws := s.draws + 1, owed := some (otherPort p) }) := by
  simp [acceptDrawn, hp, h]

/-- Settles O6: HCMD is the port served. -/
theorem stepRunsTheHostCommand : Obligations.StepRunsTheHostCommand := by
  intro s w rest i hr hw hb hh ho hd
  exact step_of_accept hr hw ((accept_eq_hcmd hb (by simp [hh]) ho).trans (acceptFrom_hcmd hh)) hd

/-- Settles O7: SCMD is the port served. -/
theorem stepRunsTheStrategyCommand : Obligations.StepRunsTheStrategyCommand := by
  intro s w rest i hr hw hs ho hd
  have hserved : s.rowbusy = true ∨ s.hcmd = [] ∨ s.scmd ≠ [] ∧ s.owed = some .scmd :=
    ho.imp_right <| Or.imp_right fun hown => ⟨by simp [hs], hown⟩
  exact step_of_accept hr hw ((accept_eq_scmd hserved).trans (acceptFrom_scmd hs)) hd

/-- Settles O8: the free value is one of the two ports, and the draw accepts from it. -/
theorem stepDrawsTheFirstPort : Obligations.StepDrawsTheFirstPort := by
  intro s v w hrest srest i j hr hw hb ho hh hs hdv hdw
  have hdraw := accept_eq_drawn hb (by simp [hh]) (by simp [hs]) ho
  cases hp : Config.firstPort s.draws with
  | hcmd => exact .inl ⟨rfl, step_of_accept hr hw (hdraw.trans (acceptDrawn_eq hp (acceptFrom_hcmd hh))) hdv⟩
  | scmd => exact .inr ⟨rfl, step_of_accept hr hw (hdraw.trans (acceptDrawn_eq hp (acceptFrom_scmd hs))) hdw⟩

/-- Settles O12: a waiting command without an answer, and a core with no word on a port it serves, do not move. -/
theorem coreWaitsUnchanged : Obligations.CoreWaitsUnchanged := by
  intro s hr
  refine ⟨step_of_no_answer hr, fun hw hs ho => step_of_accept_none hr hw ?_⟩
  rw [accept_eq_scmd (ho.imp_right .inl), acceptFrom, hs]

/-! ## A presented word (assumption log 6) -/

/-- A table word that decodes is the word `withFetchWord` presents. -/
theorem decodeTableWord_eq_some {nbits w : Nat} {i : Instr} (h : decodeTableWord nbits w = some i) :
    decode (BitVec.ofNat 96 (w % 2 ^ nbits)) = .ok i := by
  unfold decodeTableWord tableWord at h
  by_cases hw : nbits ≤ 96 ∧ w < 2 ^ nbits
  · rw [Nat.mod_eq_of_lt hw.2]
    rw [if_pos hw] at h
    cases hd : decode (BitVec.ofNat 96 w) with
    | ok j => simp_all
    | error e => simp_all
  · simp [hw] at h

/-- Between rows a command is presented on a port that accepts it. -/
theorem presentPort_mem_ports {s : State} {word : CmdWord} {i : Instr} (hb : s.rowbusy = false) (hd : decode word = .ok i) :
    presentPort s word ∈ i.ports := by
  simp only [presentPort, hb, hd]
  cases i <;> simp [Instr.ports, Instr.row]

/-- Settles O9: the presented word is the only one, so its port is served. -/
theorem presentedWordRuns : Obligations.PresentedWordRuns := by
  intro s nbits w i hb hdec
  have hd := decodeTableWord_eq_some hdec
  have hports := presentPort_mem_ports hb hd
  unfold State.withFetchWord present
  cases hp : presentPort s (BitVec.ofNat 96 (w % 2 ^ nbits)) with
  | hcmd => exact ⟨_, stepRunsTheHostCommand _ _ [] i rfl rfl hb rfl (.inl rfl) hd, hp ▸ hports, rfl⟩
  | scmd => exact ⟨_, stepRunsTheStrategyCommand _ _ [] i rfl rfl rfl (.inr (.inl rfl)) hd, hp ▸ hports, rfl⟩

end Sys2Proof.Machine
end

section
/-! PROOFS. The queries (spec/42_line_fsm.md R107, R108; spec/43_mapper_debug.md R120, R122), and a TONE that waits for the sink
(spec/41_vis_header.md R96). -/

namespace Sys2Proof.Machine

open Sys2Proof

/-- Settles O46: every outcome of a query is one response on its port. -/
theorem queriesOnlyRespond : Obligations.QueriesOnlyRespond := by
  intro i s t hi he
  obtain ⟨rc, v, _, h⟩ := query_cases s hi
  cases h.symm.trans he
  exact ⟨rc, v, rfl⟩

/-! ## RDREG -/

theorem rdreg_mem_ports (a : BitVec 32) (p : Port) : p ∈ (Instr.rdreg a).ports := by
  cases p <;> simp [Instr.ports, Instr.row]

/-- STATUS as a number: SSTATE + 4 ROWBUSY (spec/10_state.md R17). -/
theorem statusWord_eq (s : State) : statusWord s = BitVec.ofNat 64 (s.sstate.code.toNat + 4 * s.rowbusy.toNat) := by
  unfold statusWord
  cases s.sstate <;> cases s.rowbusy <;> rfl

/-- RDREG of a register that can be read answers its word. -/
theorem execRdreg_ok {a : BitVec 32} {s : State} {v : BitVec 64} (ha : a.toNat ≤ 8) (hs : a = 0 ∨ s.sstate ≠ .idle)
    (hv : memRead a.toNat s = .ok v) : exec (.rdreg a) s = .next (s.respond s.port .ok v) := by
  have hbad : badOperand (.rdreg a) = false := by simp [badOperand, ha]
  have hallow : stateAllows (.rdreg a) s = true := by simpa [stateAllows] using hs
  rw [exec, execRdreg, whenAllowed_body _ (rdreg_mem_ports a s.port) hbad hallow, hv]

/-- RDREG above 8 is ILLEGAL_COMMAND whatever the state. -/
theorem execRdreg_bad {a : BitVec 32} (s : State) (ha : 8 < a.toNat) :
    exec (.rdreg a) s = .next (s.respond s.port .illegalCommand 0) := by
  have hbad : badOperand (.rdreg a) = true := by simp [badOperand, ha]
  rw [exec, execRdreg, whenAllowed, if_neg (not_not_intro (rdreg_mem_ports a s.port)), if_pos hbad, raise]

/-- Settles O27: STATUS in every state, no register above 8, and the eight session registers one by one. -/
theorem rdregReadsRegisters : Obligations.RdregReadsRegisters := by
  intro a s
  refine ⟨?_, execRdreg_bad s, fun hs v hv => ?_⟩
  · rintro rfl
    exact execRdreg_ok (by decide) (.inl rfl) (congrArg _ (statusWord_eq s))
  · rcases hv with ⟨rfl, rfl⟩ | ⟨rfl, rfl⟩ | ⟨rfl, rfl⟩ | ⟨rfl, rfl⟩ | ⟨rfl, rfl⟩ | ⟨rfl, rfl⟩ | ⟨rfl, rfl⟩ | ⟨rfl, rfl⟩
    all_goals exact execRdreg_ok (by decide) (.inr hs) (by simp [memRead, hs])

/-! ## TONE -/

/-- A TONE in an open row plays its segment. -/
theorem execTone_in_row {f d : BitVec 32} {s : State} (hp : s.port = .scmd) (hb : s.rowbusy = true) (hr : s.srate ≠ 0) :
    exec (.tone f d) s = runTone (BitVec.ofNat 32 (nsamp d s.srate)) (toneSeg f d s) := by
  have hport : s.port ∈ (Instr.tone f d).ports := by simp [hp, Instr.ports, Instr.row]
  rw [exec, execTone, whenAllowed_body (i := .tone f d) _ hport rfl hb, withRate_pos _ hr]

/-- Settles O34: its segment waits at sample `k + 1`. -/
theorem toneWaitsForTheSink : Obligations.ToneWaitsForTheSink := by
  intro f d s k hp hb hr hk ha
  have hwaits := samples_wait (nsamp d s.srate) k (loadSegment f d s) hk ((loadSegment_sinkAnswers s f d).trans ha)
  rw [execTone_in_row hp hb hr, toneSeg, hwaits]
  simp [runTone, State.setWait, phaseAfter, Nat.sub_sub, Nat.add_comm]

end Sys2Proof.Machine
end

section
/-! PROOFS. Everything a command can come to, in one inversion law over the laws of the single commands (spec/30_encoding.md R57,
spec/20_memory.md R33). -/

namespace Sys2Proof.Machine

open Sys2Proof

/-- What a command executed in `s` can come to: an error, a query or a PROCESS past the last row only responds; every other outcome
belongs to one command, except that a tone ends in the same ways for TONE1 and TONE. -/
inductive ExecEnd (s : State) : Instr → Result → Prop where
  | responds {i : Instr} (rc : RC) (v : BitVec 64) : rc = .ok ∨ v = 0 → ExecEnd s i (.next (s.respond s.port rc v))
  | creates (a : BitVec 32) : s.sstate = .idle → ExecEnd s (.create a) (.next ((createSession a s).respond .hcmd .ok 0))
  | opensRow : s.sstate = .active → ExecEnd s .process (.next (openRow s))
  | closesRow : s.rowbusy = true →
      ExecEnd s .rowdone (.next (({ s with row := s.row + 1, rowbusy := false }.respond .scmd .ok 0).respond .hcmd .ok 1))
  | finishes (c : Bool) : s.sstate ≠ .idle → ExecEnd s (.finish c) (.next ((endSession c s).respond .hcmd .ok 0))
  | faults {i : Instr} : s.srate = 0 → ExecEnd s i (.fault .zeroSampleRate)
  | announces : s.sstate = .created → ExecEnd s .init (.next ((initAnnounced s).setWait .sinkInit))
  | sendsHeader {r : Result} : s.sstate = .created → SinkEnd (initAnnounced s) finishInit .header r → ExecEnd s .init r
  | tones {i : Instr} {r : Result} {v : BitVec 64} {w : Wait} : ((∃ f, i = .tone1 f) ∨ ∃ f d, i = .tone f d) →
      s.rowbusy = true → w ≠ .none → SinkEnd s (fun t => t.respond .scmd .ok v) w r → ExecEnd s i r

theorem execCreate_end (a : BitVec 32) (s : State) : ExecEnd s (.create a) (execCreate a s) := by
  rcases execCreate_cases a s with e | e | ⟨_, _, e⟩ | ⟨_, hi, _, e⟩
  · rw [e]; exact .responds _ _ (.inr rfl)
  · rw [e]; exact .responds _ _ (.inr rfl)
  · rw [e]; exact .responds _ _ (.inr rfl)
  · rw [e]; exact .creates a hi

theorem execInit_end (s : State) : ExecEnd s .init (execInit s) := by
  rcases execInit_cases s with e | e | ⟨_, _, hr, e⟩ | ⟨_, hc, _, hend | e⟩
  · rw [e]; exact .responds _ _ (.inr rfl)
  · rw [e]; exact .responds _ _ (.inr rfl)
  · rw [e]; exact .faults hr
  · exact .sendsHeader hc hend
  · rw [e]; exact .announces hc

theorem execProcess_end (s : State) : ExecEnd s .process (execProcess s) := by
  rcases execProcess_cases s with e | e | ⟨hp, _, _, e⟩ | ⟨_, ha, _, e⟩
  · rw [e]; exact .responds _ _ (.inr rfl)
  · rw [e]; exact .responds _ _ (.inr rfl)
  · rw [e, ← hp]; exact .responds _ _ (.inl rfl)
  · rw [e]; exact .opensRow ha

theorem execRowdone_end (s : State) : ExecEnd s .rowdone (execRowdone s) := by
  rcases execRowdone_cases s with e | e | ⟨_, hb, e⟩
  · rw [e]; exact .responds _ _ (.inr rfl)
  · rw [e]; exact .responds _ _ (.inr rfl)
  · rw [e]; exact .closesRow hb

theorem execFinish_end (c : Bool) (s : State) : ExecEnd s (.finish c) (execFinish c s) := by
  rcases execFinish_cases c s with e | e | ⟨_, hs, e⟩
  · rw [e]; exact .responds _ _ (.inr rfl)
  · rw [e]; exact .responds _ _ (.inr rfl)
  · rw [e]; exact .finishes c hs

theorem execTone1_end (f : BitVec 32) (s : State) : ExecEnd s (.tone1 f) (execTone1 f s) := by
  rcases execTone1_cases f s with e | e | ⟨_, _, hr, e⟩ | ⟨_, hb, _, hend⟩
  · rw [e]; exact .responds _ _ (.inr rfl)
  · rw [e]; exact .responds _ _ (.inr rfl)
  · rw [e]; exact .faults hr
  · exact .tones (v := 1) (w := .tone1) (.inl ⟨f, rfl⟩) hb (by simp) hend

theorem execTone_end (f d : BitVec 32) (s : State) : ExecEnd s (.tone f d) (execTone f d s) := by
  rcases execTone_cases f d s with e | e | ⟨_, _, hr, e⟩ | ⟨_, hb, _, hend⟩
  · rw [e]; exact .responds _ _ (.inr rfl)
  · rw [e]; exact .responds _ _ (.inr rfl)
  · rw [e]; exact .faults hr
  · exact .tones (v := (BitVec.ofNat 32 (nsamp d s.srate)).setWidth 64) (w := .tone _)
      (.inr ⟨f, d, rfl⟩) hb (by simp) hend

theorem query_end {i : Instr} (s : State)
    (hi : i = .getcount ∨ i = .gettotal ∨ (∃ a, i = .rdreg a) ∨ ∃ a, i = .freqof a) : ExecEnd s i (exec i s) := by
  obtain ⟨rc, v, hv, e⟩ := query_cases s hi
  rw [e]
  exact .responds rc v hv

theorem exec_end (i : Instr) (s : State) : ExecEnd s i (exec i s) := by
  cases i with
  | create a => exact execCreate_end a s
  | init => exact execInit_end s
  | process => exact execProcess_end s
  | getcount => exact query_end s (by simp)
  | gettotal => exact query_end s (by simp)
  | finish c => exact execFinish_end c s
  | rdreg a => exact query_end s (by simp)
  | freqof a => exact query_end s (by simp)
  | tone1 f => exact execTone1_end f s
  | tone f d => exact execTone_end f d s
  | rowdone => exact execRowdone_end s

/-- Only INIT and the tones are left waiting for the sink (spec/20_memory.md R33). -/
theorem exec_waits {i : Instr} {s t : State} (he : exec i s = .next t) (hs : s.wait = .none) (ht : t.wait ≠ .none) :
    i = .init ∨ (∃ f, i = .tone1 f) ∨ ∃ f d, i = .tone f d := by
  cases he ▸ exec_end i s with
  | responds rc v _ => exact absurd hs ht
  | creates a _ => exact absurd hs ht
  | opensRow _ => exact absurd hs ht
  | closesRow _ => exact absurd hs ht
  | finishes c _ => exact absurd hs ht
  | announces _ => exact .inl rfl
  | sendsHeader _ _ => exact .inl rfl
  | tones hi _ _ _ => exact .inr hi

/-- The three ways a command that talks to the sink gives a next state. -/
theorem SinkEnd.next_cases {u t : State} {finish : State → State} {w : Wait} {r : Result} (h : SinkEnd u finish w r)
    (hr : r = .next t) : ∃ v, SinkFrame u v ∧ (t = finish v ∨ t = sinkAbort v ∨ t = v.setWait w) := by
  cases h with
  | finished v hv => cases hr; exact ⟨v, hv, .inl rfl⟩
  | aborted v hv => cases hr; exact ⟨v, hv, .inr (.inl rfl)⟩
  | waits v hv => cases hr; exact ⟨v, hv, .inr (.inr rfl)⟩

end Sys2Proof.Machine
end

section
/-! PROOFS. What every command leaves alone and adds to the trace (spec/20_memory.md R32, R40, R43): RESET and the words on HCMD stay,
and the trace grows by responses as R51 allows them. -/

namespace Sys2Proof.Machine

open Sys2Proof

/-! ## The trace -/

/-- The trace grows from `s` to `t`, by responses as R51 allows them and by other events. -/
def GrowsProperly (s t : State) : Prop := ∃ es, t.out = s.out ++ es ∧ ∀ e ∈ es, e.properResponse = true

theorem GrowsProperly.of_out_eq {s t : State} (h : t.out = s.out) : GrowsProperly s t := ⟨[], by simp [h], nofun⟩

theorem GrowsProperly.trans {s t u : State} (h : GrowsProperly s t) (k : GrowsProperly t u) : GrowsProperly s u := by
  obtain ⟨es, he, hes⟩ := h
  obtain ⟨fs, hf, hfs⟩ := k
  refine ⟨es ++ fs, by rw [hf, he, List.append_assoc], fun e hm => ?_⟩
  rcases List.mem_append.mp hm with hm | hm
  · exact hes e hm
  · exact hfs e hm

theorem GrowsProperly.emit (s : State) {e : Event} (h : e.properResponse = true) : GrowsProperly s (s.emit e) :=
  ⟨[e], rfl, by simpa using h⟩

theorem rspEvent_proper (p : Port) {rc : RC} {v : BitVec 64} (h : rc = .ok ∨ v = 0) : (rspEvent p rc v).properResponse = true := by
  cases p <;> simpa [rspEvent, Event.properResponse] using h

theorem GrowsProperly.respond (s : State) (p : Port) {rc : RC} {v : BitVec 64} (h : rc = .ok ∨ v = 0) :
    GrowsProperly s (s.respond p rc v) :=
  .emit s (rspEvent_proper p h)

/-! ## Commands -/

/-- What every command leaves alone, and what it adds to the trace. -/
structure CommandFrame (s t : State) : Prop where
  pinReset : t.pinReset = s.pinReset
  hcmd : t.hcmd = s.hcmd
  grows : GrowsProperly s t

theorem CommandFrame.trans {s t u : State} (h : CommandFrame s t) (k : CommandFrame t u) : CommandFrame s u :=
  ⟨k.pinReset.trans h.pinReset, k.hcmd.trans h.hcmd, h.grows.trans k.grows⟩

theorem CommandFrame.emit (s : State) {e : Event} (h : e.properResponse = true) : CommandFrame s (s.emit e) :=
  ⟨rfl, rfl, .emit s h⟩

theorem CommandFrame.respond (s : State) (p : Port) {rc : RC} {v : BitVec 64} (h : rc = .ok ∨ v = 0) :
    CommandFrame s (s.respond p rc v) :=
  ⟨rfl, rfl, .respond s p h⟩

theorem SinkFrame.commandFrame {s t : State} (h : SinkFrame s t) : CommandFrame s t := by
  obtain ⟨es, he, hw⟩ := h.grows
  refine ⟨by rw [h.same], by rw [h.same], es, he, fun e hm => ?_⟩
  obtain ⟨x, rfl⟩ := hw e hm
  rfl

theorem endSession_commandFrame (c : Bool) (s : State) : CommandFrame s (endSession c s) :=
  ⟨rfl, rfl, [.sinkFinish c, .imgRelease], by simp [endSession, State.emit], by simp [Event.properResponse]⟩

theorem abortRow_commandFrame (s : State) : CommandFrame s (abortRow s) := by
  cases hb : s.rowbusy
  · rw [abortRow, hb]
    exact ⟨rfl, rfl, .of_out_eq rfl⟩
  · rw [abortRow, hb]
    exact ⟨rfl, rfl, [.srsp .sinkFailure 0, .rowAbort], by simp [State.emit, rspEvent], by simp [Event.properResponse]⟩

theorem sinkAbort_commandFrame (s : State) : CommandFrame s (sinkAbort s) :=
  ((abortRow_commandFrame s).trans (endSession_commandFrame true _)).trans (.respond _ _ (.inr rfl))

theorem setWait_commandFrame (s : State) (w : Wait) : CommandFrame s (s.setWait w) := ⟨rfl, rfl, .of_out_eq rfl⟩

theorem SinkEnd.commandFrame {u t : State} {finish : State → State} {w : Wait} {r : Result} (h : SinkEnd u finish w r)
    (hr : r = .next t) (hf : ∀ v, CommandFrame v (finish v)) : CommandFrame u t := by
  obtain ⟨v, hv, rfl | rfl | rfl⟩ := h.next_cases hr
  · exact hv.commandFrame.trans (hf v)
  · exact hv.commandFrame.trans (sinkAbort_commandFrame v)
  · exact hv.commandFrame.trans (setWait_commandFrame v w)

theorem finishInit_commandFrame (s : State) : CommandFrame s (finishInit s) :=
  ⟨rfl, rfl, [.hrsp .ok 0], rfl, by simp [Event.properResponse]⟩

theorem initAnnounced_commandFrame (s : State) : CommandFrame s (initAnnounced s) :=
  ⟨rfl, rfl, [.sinkInit (initSession s).total], rfl, by simp [Event.properResponse]⟩

/-- Every command keeps RESET and the words on HCMD, and answers properly. -/
theorem exec_commandFrame {i : Instr} {s t : State} (he : exec i s = .next t) : CommandFrame s t := by
  cases he ▸ exec_end i s with
  | responds rc v hv => exact .respond s _ hv
  | creates a _ => exact ⟨rfl, rfl, [.hrsp .ok 0], rfl, by simp [Event.properResponse]⟩
  | opensRow _ => exact ⟨rfl, rfl, [.rowReq s.row], rfl, by simp [Event.properResponse]⟩
  | closesRow _ => exact ⟨rfl, rfl, [.srsp .ok 0, .hrsp .ok 1], by simp [rspEvent], by simp [Event.properResponse]⟩
  | finishes c _ => exact (endSession_commandFrame c s).trans (.respond _ _ (.inl rfl))
  | announces _ => exact (initAnnounced_commandFrame s).trans (setWait_commandFrame _ _)
  | sendsHeader _ hend => exact (initAnnounced_commandFrame s).trans (hend.commandFrame rfl finishInit_commandFrame)
  | tones _ _ _ hend => exact hend.commandFrame rfl fun v => .respond v _ (.inl rfl)

/-! ## Going on after an answer -/

theorem SinkEnd.scmd {u t : State} {finish : State → State} {w : Wait} {r : Result} (h : SinkEnd u finish w r)
    (hr : r = .next t) (hf : ∀ v, (finish v).scmd = v.scmd) : t.scmd = u.scmd := by
  obtain ⟨v, hv, ht⟩ := h.next_cases hr
  have hsame : v.scmd = u.scmd := by rw [hv.same]
  rcases ht with rfl | rfl | rfl
  · exact (hf v).trans hsame
  · rw [sinkAbort_eq]; exact hsame
  · exact hsame

/-- The rest of a command keeps what a command keeps, and the words on SCMD. -/
theorem resumeCommand_commandFrame {s t : State} (he : resumeCommand s = .next t) : CommandFrame s t ∧ t.scmd = s.scmd := by
  have hstart := setWait_commandFrame s .none
  rcases resumeCommand_cases s with ⟨_, e⟩ | ⟨_, _, e⟩ | ⟨_, _, hend | ⟨_, _, e⟩⟩ | ⟨_, hend⟩ | ⟨n, _, hend⟩
  · cases e.symm.trans he; exact ⟨⟨rfl, rfl, .of_out_eq rfl⟩, rfl⟩
  · cases e.symm.trans he
  · exact ⟨hstart.trans (hend.commandFrame he finishInit_commandFrame), hend.scmd he fun _ => rfl⟩
  · cases e.symm.trans he; exact ⟨⟨rfl, rfl, .of_out_eq rfl⟩, rfl⟩
  · exact ⟨hstart.trans (hend.commandFrame he fun v => .respond v _ (.inl rfl)), hend.scmd he fun _ => rfl⟩
  · exact ⟨hstart.trans (hend.commandFrame he fun v => .respond v _ (.inl rfl)), hend.scmd he fun _ => rfl⟩

/-! ## Steps -/

/-- In an open row no word of HCMD is accepted (R32 item 3). -/
theorem accept_hcmd_of_rowbusy {s t : State} {w : CmdWord} (ha : accept s = some (w, t)) (hb : s.rowbusy = true) :
    t.hcmd = s.hcmd := by
  rcases accept_cases ha with ⟨hb', _, _⟩ | ⟨_, e⟩
  · simp [hb] at hb'
  · rw [e]

theorem accept_out {s t : State} {w : CmdWord} (ha : accept s = some (w, t)) : t.out = s.out := by
  rcases accept_cases ha with ⟨_, _, e⟩ | ⟨_, e⟩
  all_goals rw [e]

/-- Settles O11: only a step that accepts a word takes one, which none does while a command waits, and one from SCMD in an open row;
no command touches HCMD, and none that goes on touches SCMD. -/
theorem blockedWordsAreKept : Obligations.BlockedWordsAreKept := by
  intro s t hstep
  rcases step_cases hstep with ⟨_, e⟩ | ⟨_, _, _, e⟩ | ⟨_, _, _, e⟩ | ⟨_, _, _, e⟩ | ⟨w, u, _, _, hw, ha, _, e⟩ |
    ⟨w, u, i, _, hw, ha, _, e⟩
  · cases e; exact ⟨fun _ => rfl, fun _ => rfl⟩
  · cases e; exact ⟨fun _ => rfl, fun _ => rfl⟩
  · obtain ⟨hframe, hscmd⟩ := resumeCommand_commandFrame e.symm
    exact ⟨fun _ => hframe.hcmd, fun _ => hscmd⟩
  · cases e; exact ⟨fun _ => rfl, fun _ => rfl⟩
  · have hkept := fun h : s.rowbusy = true ∨ s.wait ≠ .none => accept_hcmd_of_rowbusy ha (h.resolve_right (· hw))
    cases e
    exact ⟨hkept, fun h => absurd hw h⟩
  · have hkept := fun h : s.rowbusy = true ∨ s.wait ≠ .none => accept_hcmd_of_rowbusy ha (h.resolve_right (· hw))
    exact ⟨fun h => (exec_commandFrame e.symm).hcmd.trans (hkept h), fun h => absurd hw h⟩

/-- Settles O53: every move but RESET lets the trace grow properly. -/
theorem stepAddsProperEvents : Obligations.StepAddsProperEvents := by
  intro s t hr hstep
  have hgrows : GrowsProperly s t := by
    rcases step_cases hstep with ⟨hr', _⟩ | ⟨_, _, _, e⟩ | ⟨_, _, _, e⟩ | ⟨_, _, _, e⟩ | ⟨w, u, _, _, _, ha, _, e⟩ |
      ⟨w, u, i, _, _, ha, _, e⟩
    · simp [hr] at hr'
    · cases e; exact .of_out_eq rfl
    · exact (resumeCommand_commandFrame e.symm).1.grows
    · cases e; exact .of_out_eq rfl
    · cases e; exact .trans (.of_out_eq (accept_out ha)) (.respond u _ (.inr rfl))
    · exact .trans (.of_out_eq (accept_out ha)) (exec_commandFrame e.symm).grows
  obtain ⟨es, he, hes⟩ := hgrows
  rw [he, List.drop_left]
  exact ⟨List.prefix_append _ _, hes⟩

end Sys2Proof.Machine
end

section
/-! PROOFS. Waiting for the sink changes nothing of what a command does (spec/20_memory.md R33, R43): a run with more answers behind it
goes the same way, and where the shorter run waits the longer one takes the next answer and goes on. -/

namespace Sys2Proof.Machine

open Sys2Proof

/-! ## Answers that come later -/

/-- `s` with the answers `b` behind the ones already there. -/
def State.more (s : State) (b : List Answer) : State := { s with sinkAnswers := s.sinkAnswers ++ b }

@[simp] theorem State.more_sinkAnswers (s : State) (b : List Answer) : (s.more b).sinkAnswers = s.sinkAnswers ++ b := rfl
@[simp] theorem State.more_tail (s : State) (b : List Answer) : (s.more b).tail = s.tail := rfl
@[simp] theorem State.more_srate (s : State) (b : List Answer) : (s.more b).srate = s.srate := rfl

theorem raise_wait (e : Error) (s : State) : (raise e s).wait = s.wait := by
  cases e with
  | sinkFailure => rw [raise, sinkAbort_eq]
  | invalidConfiguration => rfl
  | illegalCommand => rfl
  | illegalState => rfl

/-! ## Runs -/

/-- `q` is the run `r` with the answers `b` behind it: it ends as `r` does, and where `r` waits it takes an answer of `b` and goes on
with `go`. A run that waits has used up its answers. -/
def SinkRun.ContinuedBy (b : List Answer) (go : State → SinkRun) (r q : SinkRun) : Prop :=
  match r with
  | .done t => q = .done (t.more b)
  | .failed t => q = .failed (t.more b)
  | .waiting t => t.sinkAnswers = [] ∧ q = (takeAnswer (t.more b)).andThen go

theorem SinkRun.andThen_done (r : SinkRun) : r.andThen .done = r := by
  cases r <;> rfl

/-- After an answer is taken only what happens in states that differ in their answers matters. -/
theorem takeAnswer_andThen_congr {s : State} {k l : State → SinkRun}
    (h : ∀ rest, k { s with sinkAnswers := rest } = l { s with sinkAnswers := rest }) :
    (takeAnswer s).andThen k = (takeAnswer s).andThen l := by
  match ha : s.sinkAnswers with
  | [] => rw [takeAnswer_nil ha]; rfl
  | .ack :: rest => rw [takeAnswer_ack ha]; exact h rest
  | .fail :: rest => rw [takeAnswer_fail ha]; rfl

/-- A run followed by `k`: where the first part waits, `go'` is its rest `go` followed by `k`; where it is done, `go'` is the rest of
`k`. -/
theorem SinkRun.ContinuedBy.andThen {b : List Answer} {go go' k : State → SinkRun} {r q : SinkRun} (h : r.ContinuedBy b go q)
    (hgo : ∀ t rest, r = .waiting t → go' { t with sinkAnswers := rest } = (go { t with sinkAnswers := rest }).andThen k)
    (hk : ∀ t, r = .done t → (k t).ContinuedBy b go' (k (t.more b))) :
    (r.andThen k).ContinuedBy b go' (q.andThen k) := by
  cases r with
  | done t => cases h; exact hk t rfl
  | failed t => cases h; exact rfl
  | waiting t =>
    obtain ⟨hnil, rfl⟩ := h
    rw [SinkRun.andThen_assoc]
    exact ⟨hnil, takeAnswer_andThen_congr fun rest => (hgo t rest rfl).symm⟩

theorem takeAnswer_continuedBy (s : State) (b : List Answer) :
    (takeAnswer s).ContinuedBy b .done (takeAnswer (s.more b)) := by
  match h : s.sinkAnswers with
  | [] => rw [takeAnswer_nil h]; exact ⟨h, (SinkRun.andThen_done _).symm⟩
  | .ack :: rest => rw [takeAnswer_ack h, takeAnswer_ack (rest := rest ++ b) (by simp [h])]; rfl
  | .fail :: rest => rw [takeAnswer_fail h, takeAnswer_fail (rest := rest ++ b) (by simp [h])]; rfl

theorem sample_continuedBy (w : BitVec 32) (s : State) (b : List Answer) :
    (sample w s).ContinuedBy b .done (sample w (s.more b)) :=
  takeAnswer_continuedBy _ b

/-! ## The samples of a segment -/

/-- The samples of the segment that are still to emit (R96). -/
def restOfSegment (t : State) : SinkRun := samples t.segcnt.toNat t

theorem sample_segcnt (w : BitVec 32) (s : State) : (sample w s).Carries fun t => t.segcnt = s.segcnt := by
  match h : s.sinkAnswers with
  | [] => rw [sample_nil w h]; exact rfl
  | .ack :: rest => rw [sample_ack w h]; exact rfl
  | .fail :: rest => rw [sample_fail w h]; exact rfl

/-- A segment that waits goes on with the samples SEGCNT counts, as long as SEGCNT can count them. -/
theorem samples_continuedBy (n : Nat) (s : State) (b : List Answer) (hn : n ≤ 2 ^ 32) :
    (samples n s).ContinuedBy b restOfSegment (samples n (s.more b)) := by
  induction n generalizing s with
  | zero => exact rfl
  | succ n ih =>
    refine (sample_continuedBy s.segftw { s with segcnt := BitVec.ofNat 32 n } b).andThen (fun t rest ht => ?_)
      fun t _ => ih t (by omega)
    have hcnt : t.segcnt = BitVec.ofNat 32 n := by simpa [ht] using sample_segcnt s.segftw { s with segcnt := BitVec.ofNat 32 n }
    rw [restOfSegment, SinkRun.done_andThen, hcnt, BitVec.toNat_ofNat, Nat.mod_eq_of_lt (by omega)]

/-- No segment has more samples than SEGCNT can count (spec/10_state.md R23). -/
theorem nsamp_lt (d : BitVec 32) (sr : BitVec 24) : nsamp d sr < 2 ^ 32 := by
  have hm : d.toNat * sr.toNat ≤ 2 ^ 32 * 2 ^ 24 := Nat.mul_le_mul d.isLt.le sr.isLt.le
  unfold nsamp rhu tailDen
  omega

theorem setSegment_more (t : BitVec 64) (n w : BitVec 32) (s : State) (b : List Answer) :
    setSegment t n w (s.more b) = (setSegment t n w s).more b := rfl

theorem loadSegment_more (f d : BitVec 32) (s : State) (b : List Answer) :
    loadSegment f d (s.more b) = (loadSegment f d s).more b := by
  rw [loadSegment, loadSegment, setSegment_more, State.more_srate, State.more_tail]

theorem toneSeg_continuedBy (f d : BitVec 32) (s : State) (b : List Answer) :
    (toneSeg f d s).ContinuedBy b restOfSegment (toneSeg f d (s.more b)) := by
  rw [toneSeg, toneSeg, loadSegment_more]
  exact samples_continuedBy _ _ b (nsamp_lt d s.srate).le

/-! ## The header -/

/-- Inside segment `k` of the header, where HSTEP is `k`, the rest of the header is the rest of the segment and the segments after
it (R96). -/
theorem resumeHeader_of_hstep {k : Nat} {t : State} (hk : k < 16) (h : t.hstep = BitVec.ofNat 4 k) :
    resumeHeader t = (restOfSegment t).andThen (segmentsFrom (k + 1) (headerTable.drop (k + 1))) := by
  have hnat : t.hstep.toNat = k := by rw [h, BitVec.toNat_ofNat, Nat.mod_eq_of_lt (by omega)]
  rw [resumeHeader, hnat, restOfSegment]

/-- The last segments of the header, from segment `k` on, go on after a wait as `resumeHeader` does. -/
theorem segmentsFrom_continuedBy (table : List (HeaderTone × BitVec 32)) (k : Nat) (s : State) (b : List Answer)
    (htable : table = headerTable.drop k) :
    (segmentsFrom k table s).ContinuedBy b resumeHeader (segmentsFrom k table (s.more b)) := by
  induction table generalizing k s with
  | nil => exact rfl
  | cons x rest ih =>
    have hlt : k < headerTable.length := by
      by_contra hge
      rw [List.drop_eq_nil_of_le (by omega)] at htable
      cases htable
    have hlt' : k < 13 := hlt
    have hrest : rest = headerTable.drop (k + 1) := by
      rw [← List.tail_drop, ← htable, List.tail_cons]
    refine (toneSeg_continuedBy _ _ (enterSegment k x.1 s) b).andThen (fun t u ht => ?_) fun t _ => ih (k + 1) t hrest
    have hstep := toneSeg_hstep (toneOf x.1 (enterSegment k x.1 s).vis (enterSegment k x.1 s).par) x.2 (enterSegment k x.1 s)
    rw [ht, SinkRun.carries_waiting, enterSegment_hstep] at hstep
    rw [hrest]
    exact resumeHeader_of_hstep (t := { t with sinkAnswers := u }) (by omega) hstep

theorem writeHeader_continuedBy (s : State) (b : List Answer) :
    (writeHeader s).ContinuedBy b resumeHeader (writeHeader (s.more b)) :=
  segmentsFrom_continuedBy headerTable 0 { s with par := false } b rfl

/-! ## Commands -/

/-- If the command that came to `r` waits there, going on with the answers `b` comes to `q`. -/
def ResumesTo (b : List Answer) (r q : Result) : Prop :=
  ∀ t, r = .next t → t.wait ≠ .none → resumeCommand { t with sinkAnswers := b } = q

/-- A command that ended has nothing to resume. -/
theorem ResumesTo.of_wait_none {b : List Answer} {s : State} {q : Result} (h : s.wait = .none) : ResumesTo b (.next s) q := by
  intro t ht hw
  cases ht
  exact absurd h hw

theorem resumeCommand_tone1 {s : State} (h : s.wait = .tone1) :
    resumeCommand s = ((takeAnswer (s.setWait .none)).mark .tone1).settle finishTone1 := by
  simp only [resumeCommand, h]

theorem resumeCommand_tone {s : State} {n : BitVec 32} (h : s.wait = .tone n) :
    resumeCommand s = (((takeAnswer (s.setWait .none)).andThen restOfSegment).mark (.tone n)).settle (finishTone n) := by
  simp only [resumeCommand, h]
  rfl

theorem resumeCommand_header {s : State} (h : s.wait = .header) (hr : s.srate ≠ 0) :
    resumeCommand s = (((takeAnswer (s.setWait .none)).andThen resumeHeader).mark .header).settle finishInit := by
  simp only [resumeCommand, h]
  exact withRate_pos _ hr

theorem resumeCommand_sinkInit {s : State} (h : s.wait = .sinkInit) (hr : s.srate ≠ 0) :
    resumeCommand s = (((takeAnswer (s.setWait .none)).mark .sinkInit).andThen headerOfInit).settle finishInit := by
  simp only [resumeCommand, h]
  exact withRate_pos _ hr

/-- A state that waits as `w`, given the answers `b`, is without its wait the state of the run that waited. -/
theorem setWait_none_of_waiting {u : State} (w : Wait) (b : List Answer) (hw : u.wait = .none) (hnil : u.sinkAnswers = []) :
    ({ u.setWait w with sinkAnswers := b } : State).setWait .none = u.more b := by
  simp only [State.setWait, State.more, hnil, List.nil_append, ← hw]

/-- A command whose run goes on with `go` resumes as if its answers had been there, if resuming what waits as `w` is `go` after an
answer. -/
theorem resumesTo_of_continuedBy {b : List Answer} {go : State → SinkRun} {r q : SinkRun} {v : State} {w : Wait}
    {finish : State → State} (h : r.ContinuedBy b go q) (hv : r.Carries (SinkFrame v)) (hw : v.wait = .none)
    (hfinish : ∀ u, (finish u).wait = u.wait)
    (hresume : ∀ t : State, t.wait = w → t.srate = v.srate →
      resumeCommand t = (((takeAnswer (t.setWait .none)).andThen go).mark w).settle finish) :
    ResumesTo b ((r.mark w).settle finish) ((q.mark w).settle finish) := by
  have hwait : r.Carries fun u => u.wait = .none := hv.imp fun u hu => by rw [hu.same]; exact hw
  cases r with
  | done u => exact .of_wait_none ((hfinish u).trans hwait)
  | failed u => exact .of_wait_none ((raise_wait .sinkFailure u).trans hwait)
  | waiting u =>
    obtain ⟨hnil, rfl⟩ := h
    intro t ht _
    cases ht
    rw [hresume { u.setWait w with sinkAnswers := b } rfl hv.kept.1, setWait_none_of_waiting w b hwait hnil]

/-- An error leaves nothing to resume: a command resumes as if its answers had been there if its body does. -/
theorem whenAllowed_resumesTo {b : List Answer} (i : Instr) {s : State} {body : State → Result} (hw : s.wait = .none)
    (hbody : ResumesTo b (body s) (body (s.more b))) : ResumesTo b (whenAllowed i s body) (whenAllowed i (s.more b) body) := by
  rcases whenAllowed_cases i s body with ⟨_, h⟩ | ⟨_, _, _, h⟩ | ⟨hp, hb, ha, h⟩
  · rw [h]; exact .of_wait_none hw
  · rw [h]; exact .of_wait_none hw
  · have ha' : stateAllows i (s.more b) = true := by rw [← ha]; cases i <;> rfl
    rw [h, whenAllowed_body body (s := s.more b) hp hb ha']
    exact hbody

theorem withRate_resumesTo {b : List Answer} {s : State} {body : State → Result}
    (hbody : s.srate ≠ 0 → ResumesTo b (body s) (body (s.more b))) :
    ResumesTo b (withRate s body) (withRate (s.more b) body) := by
  by_cases hr : s.srate = 0
  · rw [withRate_zero _ hr]; exact fun _ h => nomatch h
  · rw [withRate_pos _ hr, withRate_pos _ (s := s.more b) hr]; exact hbody hr

section commands
variable {s : State} (b : List Answer) (hw : s.wait = .none)
include hw

theorem execTone1_resumesTo (f : BitVec 32) : ResumesTo b (execTone1 f s) (execTone1 f (s.more b)) :=
  whenAllowed_resumesTo _ hw <| withRate_resumesTo fun _ =>
    resumesTo_of_continuedBy (sample_continuedBy _ s b) (sample_frame _ s) hw (fun _ => rfl)
      fun t ht _ => by rw [resumeCommand_tone1 ht, SinkRun.andThen_done]

theorem execTone_resumesTo (f d : BitVec 32) : ResumesTo b (execTone f d s) (execTone f d (s.more b)) :=
  whenAllowed_resumesTo _ hw <| withRate_resumesTo fun _ =>
    resumesTo_of_continuedBy (toneSeg_continuedBy f d s b) (toneSeg_frame f d s) hw (fun _ => rfl)
      fun _ ht _ => resumeCommand_tone ht

/-- INIT after SINK_INIT, as seen from the state in which it was emitted: it waits for the answer to SINK_INIT, or in the header. -/
theorem initRun_resumesTo (hr : s.srate ≠ 0) :
    ResumesTo b ((((takeAnswer s).mark .sinkInit).andThen headerOfInit).settle finishInit)
      ((((takeAnswer (s.more b)).mark .sinkInit).andThen headerOfInit).settle finishInit) := by
  match h : s.sinkAnswers with
  | [] =>
    rw [takeAnswer_nil h]
    intro t ht _
    cases ht
    rw [resumeCommand_sinkInit (s := { s.setWait .sinkInit with sinkAnswers := b }) rfl hr,
      setWait_none_of_waiting .sinkInit b hw h]
  | .ack :: rest =>
    rw [takeAnswer_ack h, takeAnswer_ack (rest := rest ++ b) (by simp [h])]
    exact resumesTo_of_continuedBy (writeHeader_continuedBy { s with sinkAnswers := rest } b) (writeHeader_frame _) hw
      (fun _ => rfl) fun t ht hsr => resumeCommand_header ht (hsr ▸ hr)
  | .fail :: rest =>
    rw [takeAnswer_fail h]
    exact .of_wait_none ((raise_wait .sinkFailure _).trans hw)

theorem execInit_resumesTo : ResumesTo b (execInit s) (execInit (s.more b)) :=
  whenAllowed_resumesTo _ hw <| withRate_resumesTo fun hr => initRun_resumesTo (s := initAnnounced s) b hw hr

/-- Only INIT and the tones have anything to resume. -/
theorem exec_resumesTo (i : Instr) : ResumesTo b (exec i s) (exec i (s.more b)) := by
  intro t he ht
  rcases exec_waits he hw ht with rfl | ⟨f, rfl⟩ | ⟨f, d, rfl⟩
  · exact execInit_resumesTo b hw t he ht
  · exact execTone1_resumesTo b hw f t he ht
  · exact execTone_resumesTo b hw f d t he ht

end commands

/-- Settles O35: a command that waits resumes as if its later answers had been there, and the next step resumes it. -/
theorem resumeEqualsUninterrupted : Obligations.ResumeEqualsUninterrupted := by
  intro i s t a b hw he hwait
  have hresume := exec_resumesTo (s := { s with sinkAnswers := a }) b hw i t he hwait
  refine ⟨hresume, fun hr hb => ?_⟩
  have hpin : t.pinReset = false := (exec_commandFrame he).pinReset.trans hr
  exact (step_of_answer (s := { t with sinkAnswers := b }) hpin hwait hb).trans hresume

end Sys2Proof.Machine
end

section
/-! PROOFS. The stream of a session (spec/20_memory.md R40, R43; spec/42_line_fsm.md R103, R109; spec/60_exceptions.md R132): when it
starts, which steps write to it, and that its end is notified once. -/

namespace Sys2Proof.Machine

open Sys2Proof

/-! ## The events of the stream -/

/-- An event of a session's stream: its start, a sample, its end, the release of the image. -/
def Event.isStream (e : Event) : Bool := e.isStart || e.isWrite || e.isFinish || e.isRelease

@[simp] theorem isStart_rspEvent (p : Port) (rc : RC) (v : BitVec 64) : (rspEvent p rc v).isStart = false := by cases p <;> rfl
@[simp] theorem isFinish_rspEvent (p : Port) (rc : RC) (v : BitVec 64) : (rspEvent p rc v).isFinish = false := by cases p <;> rfl
@[simp] theorem isRelease_rspEvent (p : Port) (rc : RC) (v : BitVec 64) : (rspEvent p rc v).isRelease = false := by cases p <;> rfl
@[simp] theorem isStream_rspEvent (p : Port) (rc : RC) (v : BitVec 64) : (rspEvent p rc v).isStream = false := by cases p <;> rfl

@[simp] theorem isStream_hrsp (rc : RC) (v : BitVec 64) : (Event.hrsp rc v).isStream = false := rfl
@[simp] theorem isStream_srsp (rc : RC) (v : BitVec 64) : (Event.srsp rc v).isStream = false := rfl
@[simp] theorem isStream_rowReq (r : BitVec 16) : (Event.rowReq r).isStream = false := rfl

/-- Samples are not counted by what does not hold of a sample. -/
theorem countP_writes {es : List Event} (h : ∀ e ∈ es, ∃ x, e = .sinkWrite x) {p : Event → Bool}
    (hp : ∀ x, p (.sinkWrite x) = false) : es.countP p = 0 := by
  refine List.countP_eq_zero.mpr fun e he => ?_
  obtain ⟨x, rfl⟩ := h e he
  simp [hp]

/-! ## The rest of a stream -/

/-- From `v`, in which a session exists, the events `es` lead to `t`: they start no stream, they end it and release the image if the
session is gone in `t` and not otherwise, and `t` does not await INIT. -/
structure StreamRest (v t : State) (es : List Event) : Prop where
  out : t.out = v.out ++ es
  start : es.countP Event.isStart = 0
  finish : es.countP Event.isFinish + hasSession t = 1
  release : es.countP Event.isRelease + hasSession t = 1
  begun : ¬awaitsInit t

/-- The abort ends the session's stream (R132). -/
theorem sinkAbort_streamRest (v : State) : ∃ es, StreamRest v (sinkAbort v) es := by
  rw [sinkAbort_eq]
  refine ⟨(if v.rowbusy then [.srsp .sinkFailure 0, .rowAbort] else []) ++
    [.sinkFinish true, .imgRelease, .hrsp .sinkFailure 0], by simp, ?_, ?_, ?_, by simp [awaitsInit]⟩
  all_goals split <;> rfl

/-- Samples go before the rest of a stream. -/
theorem StreamRest.after_sinkFrame {u v t : State} {es : List Event} (hf : SinkFrame u v) (h : StreamRest v t es) :
    ∃ fs, StreamRest u t fs := by
  obtain ⟨ws, hout, hws⟩ := hf.grows
  have hcount := fun p hp => countP_writes (p := p) hws hp
  exact ⟨ws ++ es, by rw [h.out, hout, List.append_assoc],
    by rw [List.countP_append, hcount _ fun _ => rfl, h.start],
    by rw [List.countP_append, hcount _ fun _ => rfl, Nat.zero_add, h.finish],
    by rw [List.countP_append, hcount _ fun _ => rfl, Nat.zero_add, h.release], h.begun⟩

/-- A command that talks to the sink in a session: its end is the end of the stream only if it aborts. -/
theorem SinkEnd.streamRest {u t : State} {finish : State → State} {w : Wait} {r : Result} (h : SinkEnd u finish w r)
    (hr : r = .next t) (hu : u.sstate ≠ .idle) (hw : w ≠ .none)
    (hf : ∀ v, v.sstate = u.sstate → (finish v).sstate = .active ∧ ∃ p rc x, (finish v).out = v.out ++ [rspEvent p rc x]) :
    ∃ es, StreamRest u t es := by
  obtain ⟨v, hv, ht⟩ := h.next_cases hr
  have hsame : v.sstate = u.sstate := by rw [hv.same]
  rcases ht with rfl | rfl | rfl
  · obtain ⟨hactive, p, rc, x, hout⟩ := hf v hsame
    exact StreamRest.after_sinkFrame hv (es := [rspEvent p rc x])
      ⟨hout, by simp, by simp [hasSession, hactive], by simp [hasSession, hactive], by simp [awaitsInit, hactive]⟩
  · obtain ⟨es, he⟩ := sinkAbort_streamRest v
    exact he.after_sinkFrame hv
  · exact StreamRest.after_sinkFrame hv (es := [])
      ⟨by simp, rfl, by simp [hasSession, hsame, hu], by simp [hasSession, hsame, hu], fun h => hw h.2⟩

/-- A tone only responds, and its session stays ACTIVE. -/
theorem SinkEnd.streamRest_tone {u t : State} {x : BitVec 64} {w : Wait} {r : Result}
    (h : SinkEnd u (fun v => v.respond .scmd .ok x) w r) (hr : r = .next t) (hu : u.sstate = .active) (hw : w ≠ .none) :
    ∃ es, StreamRest u t es :=
  h.streamRest hr (by simp [hu]) hw fun _ hv => ⟨hv.trans hu, .scmd, .ok, x, rfl⟩

/-- The end of INIT: the session is ACTIVE (R103). -/
theorem finishInit_active (v : State) :
    (finishInit v).sstate = .active ∧ ∃ p rc x, (finishInit v).out = v.out ++ [rspEvent p rc x] :=
  ⟨rfl, .hcmd, .ok, 0, rfl⟩

/-! ## What one command, or the rest of one, does to the stream -/

/-- From `s` to `t` the trace grows by `es`. `starting` tells whether INIT is what is run: only then may the stream start, and only from
a session that awaits INIT. -/
structure StreamStep (starting : Prop) (s t : State) (es : List Event) : Prop where
  out : t.out = s.out ++ es
  start : es.countP Event.isStart = 0 ∨ (awaitsInit s ∧ ¬awaitsInit t ∧ starting ∧ es.countP Event.isStart = 1 ∧
    ∃ fs, es = .sinkInit (totalOf s.srate s.pinStratTxcount) :: fs)
  awaits : awaitsInit t → awaitsInit s ∨ s.sstate = .idle
  writes : (∃ x, Event.sinkWrite x ∈ es) →
    s.rowbusy = true ∨ s.wait = .sinkInit ∨ s.wait = .header ∨ (awaitsInit s ∧ starting)
  finish : es.countP Event.isFinish + hasSession t =
    hasSession s + (if s.sstate = .idle ∧ t.sstate = .created then 1 else 0)
  release : es.countP Event.isRelease + hasSession t =
    hasSession s + (if s.sstate = .idle ∧ t.sstate = .created then 1 else 0)

section
variable {starting : Prop} {s t : State} {es : List Event}

/-- Other events leave the stream as it is, as long as the session and the command in progress stay. -/
theorem StreamStep.quiet (hout : t.out = s.out ++ es) (hs : t.sstate = s.sstate) (hw : t.wait = s.wait)
    (hes : ∀ e ∈ es, e.isStream = false) : StreamStep starting s t es := by
  have hnone : ∀ e ∈ es, e.isStart = false ∧ e.isWrite = false ∧ e.isFinish = false ∧ e.isRelease = false := by
    simpa [Event.isStream, and_assoc] using hes
  have hcreated : ¬(s.sstate = .idle ∧ t.sstate = .created) := by
    rw [hs]
    rintro ⟨h, h'⟩
    simp [h] at h'
  have hsession : hasSession t = hasSession s := by simp [hasSession, hs]
  refine ⟨hout, .inl (List.countP_eq_zero.mpr fun e he => by simp [hnone e he]), fun h => .inl ?_, ?_, ?_, ?_⟩
  · rwa [awaitsInit, ← hs, ← hw]
  · rintro ⟨x, hx⟩
    have := (hnone _ hx).2.1
    simp [Event.isWrite] at this
  all_goals rw [if_neg hcreated, List.countP_eq_zero.mpr fun e he => by simp [hnone e he], hsession, Nat.zero_add, Nat.add_zero]

/-- The rest of a stream, of an INIT in progress or in an open row. -/
theorem StreamRest.streamStep {v : State} (h : StreamRest v t es) (hout : v.out = s.out) (hs : s.sstate ≠ .idle)
    (hbusy : s.rowbusy = true ∨ s.wait = .sinkInit ∨ s.wait = .header) : StreamStep starting s t es := by
  have hsession : hasSession s = 1 := by simp [hasSession, hs]
  refine ⟨by rw [h.out, hout], .inl h.start, fun ht => absurd ht h.begun, fun _ => ?_, ?_, ?_⟩
  · exact hbusy.imp_right (Or.imp_right .inl)
  · rw [h.finish, hsession, if_neg fun hc => hs hc.1]
  · rw [h.release, hsession, if_neg fun hc => hs hc.1]

/-- INIT starts the stream, and goes on with the rest of it. -/
theorem StreamRest.streamStep_init (h : StreamRest (initAnnounced s) t es) (hstart : starting) (hs : awaitsInit s) :
    StreamStep starting s t (.sinkInit (totalOf s.srate s.pinStratTxcount) :: es) := by
  have hidle : s.sstate ≠ .idle := by simp [hs.1]
  have hsession : hasSession s = 1 := by simp [hasSession, hidle]
  have hone : (Event.sinkInit (totalOf s.srate s.pinStratTxcount) :: es).countP Event.isStart = 1 := by
    rw [List.countP_cons_of_pos rfl, h.start]
  refine ⟨by simp [h.out, initAnnounced], .inr ⟨hs, h.begun, hstart, hone, es, rfl⟩, fun ht => absurd ht h.begun,
    fun _ => .inr (.inr (.inr ⟨hs, hstart⟩)), ?_, ?_⟩
  · rw [List.countP_cons_of_neg (by simp [Event.isFinish]), h.finish, hsession, if_neg fun hc => hidle hc.1]
  · rw [List.countP_cons_of_neg (by simp [Event.isRelease]), h.release, hsession, if_neg fun hc => hidle hc.1]

/-- FINISH ends the stream (R109). -/
theorem finish_streamStep (c : Bool) (hs : s.sstate ≠ .idle) :
    StreamStep starting s ((endSession c s).respond .hcmd .ok 0) [.sinkFinish c, .imgRelease, .hrsp .ok 0] := by
  have hsession : hasSession s = 1 := by simp [hasSession, hs]
  refine ⟨by simp [rspEvent], .inl rfl, by simp [awaitsInit], by simp, ?_, ?_⟩
  · rw [hsession, if_neg fun hc => hs hc.1]; rfl
  · rw [hsession, if_neg fun hc => hs hc.1]; rfl

/-- CREATE makes a session whose stream has not started (R102). -/
theorem create_streamStep (a : BitVec 32) (hs : s.sstate = .idle) :
    StreamStep starting s ((createSession a s).respond .hcmd .ok 0) [.hrsp .ok 0] := by
  refine ⟨by simp [rspEvent], .inl rfl, fun _ => .inr hs, by simp, ?_, ?_⟩
  · simp [hasSession, hs, Event.isFinish]
  · simp [hasSession, hs, Event.isRelease]

end

/-- What a command does to the stream, from a sound state in which none waits. -/
theorem exec_streamStep {i : Instr} {s t : State} {starting : Prop} (h : SessionInv s) (hw : s.wait = .none)
    (hi : i = .init → starting) (he : exec i s = .next t) : ∃ es, StreamStep starting s t es := by
  cases he ▸ exec_end i s with
  | responds rc v _ => exact ⟨[rspEvent s.port rc v], .quiet rfl rfl rfl (by simp)⟩
  | creates a hidle => exact ⟨_, create_streamStep a hidle⟩
  | opensRow _ => exact ⟨[.rowReq s.row], .quiet rfl rfl rfl (by simp)⟩
  | closesRow _ => exact ⟨[.srsp .ok 0, .hrsp .ok 1], .quiet (by simp [rspEvent]) rfl rfl (by simp)⟩
  | finishes c hs => exact ⟨_, finish_streamStep c hs⟩
  | announces hc =>
    have hrest : StreamRest (initAnnounced s) ((initAnnounced s).setWait .sinkInit) [] :=
      ⟨by simp, rfl, by simp [hasSession, initAnnounced, hc], by simp [hasSession, initAnnounced, hc], by simp [awaitsInit]⟩
    exact ⟨_, hrest.streamStep_init (hi rfl) ⟨hc, hw⟩⟩
  | sendsHeader hc hend =>
    obtain ⟨es, hrest⟩ := hend.streamRest rfl (by simp [initAnnounced, hc]) (by simp) fun v _ => finishInit_active v
    exact ⟨_, hrest.streamStep_init (hi rfl) ⟨hc, hw⟩⟩
  | tones _ hb hwait hend =>
    have hactive := (h.rowOpen hb).1
    obtain ⟨es, hrest⟩ := hend.streamRest_tone rfl hactive hwait
    exact ⟨es, hrest.streamStep rfl (by simp [hactive]) (.inl hb)⟩

/-- What the rest of a waiting command does to the stream: it does not start it. -/
theorem resumeCommand_streamStep {s t : State} (starting : Prop) (h : SessionInv s) (he : resumeCommand s = .next t) :
    ∃ es, StreamStep starting s t es := by
  have hquiet : StreamStep starting s s [] := .quiet (by simp) rfl rfl (by simp)
  have htone : s.wait ≠ .none → s.wait ≠ .sinkInit → s.wait ≠ .header → s.rowbusy = true ∧ s.sstate = .active :=
    fun h0 h1 h2 => ⟨h.toneWaits h0 h1 h2, (h.rowOpen (h.toneWaits h0 h1 h2)).1⟩
  rcases resumeCommand_cases s with ⟨_, e⟩ | ⟨_, _, e⟩ | ⟨hw, _, hend | ⟨_, _, e⟩⟩ | ⟨hw, hend⟩ | ⟨n, hw, hend⟩
  · cases e.symm.trans he; exact ⟨[], hquiet⟩
  · cases e.symm.trans he
  · have hs : s.sstate ≠ .idle := by simp [(h.initWaits hw).1]
    obtain ⟨es, hrest⟩ := hend.streamRest he hs (by simp) fun v _ => finishInit_active v
    exact ⟨es, hrest.streamStep rfl hs (.inr hw)⟩
  · cases e.symm.trans he; exact ⟨[], hquiet⟩
  · obtain ⟨hb, ha⟩ := htone (by simp [hw]) (by simp [hw]) (by simp [hw])
    obtain ⟨es, hrest⟩ := SinkEnd.streamRest_tone (x := 1) hend he ha (by simp)
    exact ⟨es, hrest.streamStep rfl (by simp [ha]) (.inl hb)⟩
  · obtain ⟨hb, ha⟩ := htone (by simp [hw]) (by simp [hw]) (by simp [hw])
    obtain ⟨es, hrest⟩ := SinkEnd.streamRest_tone (x := n.setWidth 64) hend he ha (by simp)
    exact ⟨es, hrest.streamStep rfl (by simp [ha]) (.inl hb)⟩

/-! ## Steps -/

/-- Accepting a word does nothing to the stream. -/
theorem StreamStep.of_accept {starting : Prop} {s u t : State} {w : CmdWord} {es : List Event} (ha : accept s = some (w, u))
    (h : StreamStep starting u t es) : StreamStep starting s t es := by
  rcases accept_cases ha with ⟨_, _, e⟩ | ⟨_, e⟩
  all_goals
    rw [e] at h
    exact ⟨h.out, h.start, h.awaits, h.writes, h.finish, h.release⟩

/-- What a step without RESET does to the stream, from a sound state. -/
theorem step_streamStep {s t : State} (h : SessionInv s) (hr : s.pinReset = false) (hstep : step s = .next t) :
    ∃ es, StreamStep (∃ u, nextMove s = .run .init u) s t es := by
  have hquiet : StreamStep (∃ u, nextMove s = .run .init u) s s [] := .quiet (by simp) rfl rfl (by simp)
  rcases step_cases hstep with ⟨hr', _⟩ | ⟨_, _, _, e⟩ | ⟨_, _, _, e⟩ | ⟨_, _, _, e⟩ | ⟨w, u, _, _, _, ha, _, e⟩ |
    ⟨w, u, i, _, hw, ha, hd, e⟩
  · simp [hr] at hr'
  · cases e; exact ⟨[], hquiet⟩
  · exact resumeCommand_streamStep _ h e.symm
  · cases e; exact ⟨[], hquiet⟩
  · cases e; exact ⟨[rspEvent u.port .illegalCommand 0], .of_accept ha (.quiet rfl rfl rfl (by simp))⟩
  · obtain ⟨hu, huw, _⟩ := accept_sessionInv h hw ha
    obtain ⟨es, hes⟩ := exec_streamStep (starting := ∃ u, nextMove s = .run .init u) hu huw
      (fun hi => ⟨u, hi ▸ nextMove_of_accept hr hw ha hd⟩) e.symm
    exact ⟨es, hes.of_accept ha⟩

/-- Settles O56: the events a step adds are the ones `StreamStep` describes. -/
theorem sessionEndIsNotifiedOnce : Obligations.SessionEndIsNotifiedOnce := by
  intro s t h hr hstep
  obtain ⟨es, hes⟩ := step_streamStep h hr hstep
  obtain ⟨hout, hstart, hawaits, hwrites, hfinish, hrelease⟩ := hes
  rw [hout, List.drop_left, List.countP_append, List.countP_append, List.countP_append]
  refine ⟨?_, hawaits, hwrites, by rw [Nat.add_assoc, hfinish, Nat.add_assoc],
    by rw [Nat.add_assoc, hrelease, Nat.add_assoc]⟩
  rcases hstart with hzero | ⟨hs, ht, hrun, hone, fs, hfs⟩
  · exact .inl (by rw [hzero, Nat.add_zero])
  · exact .inr ⟨hs, ht, hrun, by rw [hone], fs, by rw [hfs]⟩

end Sys2Proof.Machine
end

section
/-! PROOFS. The codec (spec/30_encoding.md R50, R54, R56, R58): a command is its five fields, the decoder reads exactly the
encodings of well-formed commands, and R56's rows name the same words. -/

namespace Sys2Proof

/-! ## A command as fields -/

/-- C of a command (R54). -/
def Instr.cancelBit : Instr → Bool
  | .finish c => c
  | _ => false

/-- A of a command (R54). -/
def Instr.operandA : Instr → BitVec 32
  | .create a | .rdreg a | .freqof a | .tone1 a | .tone a _ => a
  | _ => 0

/-- B of a command (R54). -/
def Instr.operandB : Instr → BitVec 32
  | .tone _ d => d
  | _ => 0

/-- `w` has the fields of the command `i`. -/
structure HasFields (w : CmdWord) (i : Instr) : Prop where
  op : opField w = i.opcode
  rsv : rsvField w = 0
  cancel : cField w = i.cancelBit
  a : aField w = i.operandA
  b : bField w = i.operandB

theorem encode_eq_packCmd (i : Instr) : encode i = packCmd i.opcode i.cancelBit i.operandA i.operandB := by
  cases i <;> rfl

theorem hasFields_iff (w : CmdWord) (i : Instr) : HasFields w i ↔ encode i = w := by
  rw [encode_eq_packCmd]
  constructor
  · rintro ⟨hop, hrsv, hc, ha, hb⟩
    rw [← hop, ← hc, ← ha, ← hb, packCmd_fields hrsv]
  · rintro rfl
    constructor <;> simp

/-- A word with the fields of a well-formed command passes the checks of its opcode. -/
theorem HasFields.decode {w : CmdWord} {i : Instr} (h : HasFields w i) (hwf : i.wf = true) : decode w = .ok i := by
  obtain ⟨hop, hrsv, hc, ha, hb⟩ := h
  unfold Sys2Proof.decode
  rw [hop, hrsv, hc, ha, hb]
  cases i with
  | freqof a =>
    have ha : a.toNat ≤ 255 := by simpa [Instr.wf] using hwf
    simp [Instr.opcode, Instr.cancelBit, Instr.operandA, Instr.operandB, requireZero, ha]
  | _ => simp [Instr.opcode, Instr.cancelBit, Instr.operandA, Instr.operandB, requireZero]

/-- The checks of each opcode are that the fields the command does not have are 0, and R54's bound on FREQOF's channel. -/
theorem hasFields_of_decode {w : CmdWord} {i : Instr} (h : decode w = .ok i) : HasFields w i ∧ i.wf = true := by
  simp only [decode, ite_eq_iff, requireZero_eq_ok, List.forall_mem_cons, beq_iff_eq, Bool.not_eq_true', decide_eq_true_eq,
    reduceCtorEq, and_false, or_false] at h
  rcases h with h | ⟨-, h | ⟨-, h | ⟨-, h | ⟨-, h | ⟨-, h | ⟨-, h | ⟨-, h | ⟨-, h | ⟨-, h | ⟨-, h⟩⟩⟩⟩⟩⟩⟩⟩⟩⟩
  all_goals
    obtain ⟨hop, hz, rfl⟩ := h
    refine ⟨⟨hop, hz.1, ?_, ?_, ?_⟩, ?_⟩
    all_goals simp [hz, Instr.cancelBit, Instr.operandA, Instr.operandB, Instr.wf]

/-- The decoder reads exactly the encodings of well-formed commands. -/
theorem decode_eq_ok_iff (w : CmdWord) (i : Instr) : decode w = .ok i ↔ i.wf = true ∧ encode i = w := by
  rw [← hasFields_iff]
  exact ⟨fun h => (hasFields_of_decode h).symm, fun h => h.2.decode h.1⟩

/-- Settles O1: the encoding of a command has the command's fields, so it passes the decoder's checks. -/
theorem decodeOfEncode : Obligations.DecodeOfEncode :=
  fun i hwf => (decode_eq_ok_iff _ i).mpr ⟨hwf, rfl⟩

/-- Settles O2: a word with the fields of a command is its encoding. -/
theorem encodeOfDecode : Obligations.EncodeOfDecode :=
  fun w i => (decode_eq_ok_iff w i).mp

/-! ## The opcode map (R56) -/

theorem cField_and (v w : CmdWord) : cField (v &&& w) = (cField v && cField w) := BitVec.getLsbD_and

/-- Words are equal when their fields are (R50). -/
theorem word_ext_iff {v w : CmdWord} : v = w ↔
    opField v = opField w ∧ rsvField v = rsvField w ∧ cField v = cField w ∧ aField v = aField w ∧ bField v = bField w := by
  constructor
  · rintro rfl
    simp
  · rintro ⟨hop, hrsv, hc, ha, hb⟩
    exact BitVec.eq_of_toNat_eq (by rw [word_toNat, word_toNat, hop, hrsv, hc, ha, hb])

/-- A mask selects bits field by field. -/
theorem and_eq_iff_fields (w mask mtch : CmdWord) : w &&& mask = mtch ↔
    opField w &&& opField mask = opField mtch ∧ rsvField w &&& rsvField mask = rsvField mtch ∧
    (cField w && cField mask) = cField mtch ∧ aField w &&& aField mask = aField mtch ∧
    bField w &&& bField mask = bField mtch := by
  rw [word_ext_iff, cField_and]
  simp only [opField, rsvField, aField, bField, BitVec.extractLsb'_and]

/-- The bits outside a mask are 0 when the mask keeps the whole word. -/
theorem and_not_eq_zero_iff {n : Nat} (a m : BitVec n) : a &&& ~~~m = 0 ↔ a &&& m = a := by
  simp only [BitVec.eq_of_getElem_eq_iff, BitVec.getElem_and, BitVec.getElem_not, BitVec.ofNat_eq_ofNat, BitVec.getElem_zero]
  refine forall₂_congr fun k hk => ?_
  cases a[k] <;> cases m[k] <;> simp

/-- FREQOF's row leaves the low byte of A free, which is R54's bound on the channel value. -/
theorem and_freqofMask_eq_zero_iff (a : BitVec 32) : a &&& 0xFFFFFF00#32 = 0 ↔ a.toNat ≤ 255 := by
  rw [show 0xFFFFFF00#32 = ~~~0xFF#32 from rfl, and_not_eq_zero_iff, ← BitVec.toNat_inj, BitVec.toNat_and,
    show (0xFF#32).toNat = 2 ^ 8 - 1 from rfl, Nat.and_two_pow_sub_one_eq_mod]
  omega

/-- The bits of C that a row fixes. -/
def Instr.maskC : Instr → Bool
  | .finish _ => false
  | _ => true

/-- The bits of A that a row fixes. -/
def Instr.maskA : Instr → BitVec 32
  | .create _ | .rdreg _ | .tone1 _ | .tone _ _ => 0
  | .freqof _ => 0xFFFFFF00#32
  | _ => .allOnes 32

/-- The bits of B that a row fixes. -/
def Instr.maskB : Instr → BitVec 32
  | .tone _ _ => 0
  | _ => .allOnes 32

/-- A row fixes OP and RSV whole. -/
theorem row_mask_fields (i : Instr) : opField i.row.mask = BitVec.allOnes 8 ∧ rsvField i.row.mask = BitVec.allOnes 23 ∧
    cField i.row.mask = i.maskC ∧ aField i.row.mask = i.maskA ∧ bField i.row.mask = i.maskB := by
  cases i
  all_goals
    dsimp only [Instr.row, Instr.maskC, Instr.maskA, Instr.maskB]
    decide

/-- A row asks for the opcode, and for 0 elsewhere. -/
theorem row_mtch_fields (i : Instr) : opField i.row.mtch = i.opcode ∧ rsvField i.row.mtch = 0 ∧ cField i.row.mtch = false ∧
    aField i.row.mtch = 0 ∧ bField i.row.mtch = 0 := by
  cases i
  all_goals
    dsimp only [Instr.row, Instr.opcode]
    decide

theorem matches_row_iff (w : CmdWord) (i : Instr) : w &&& i.row.mask = i.row.mtch ↔
    opField w = i.opcode ∧ rsvField w = 0 ∧ (cField w && i.maskC) = false ∧ aField w &&& i.maskA = 0 ∧
      bField w &&& i.maskB = 0 := by
  obtain ⟨hop, hrsv, hc, ha, hb⟩ := row_mask_fields i
  obtain ⟨kop, krsv, kc, ka, kb⟩ := row_mtch_fields i
  rw [and_eq_iff_fields, hop, hrsv, hc, ha, hb, kop, krsv, kc, ka, kb, BitVec.and_allOnes, BitVec.and_allOnes]

/-- The operands of a well-formed command stand in the bits its row leaves free. -/
theorem matches_row_of_decode {w : CmdWord} {i : Instr} (h : decode w = .ok i) : w &&& i.row.mask = i.row.mtch := by
  obtain ⟨⟨hop, hrsv, hc, ha, hb⟩, hwf⟩ := hasFields_of_decode h
  rw [matches_row_iff, hc, ha, hb]
  refine ⟨hop, hrsv, ?_⟩
  cases i with
  | freqof a =>
    have ha : a &&& 0xFFFFFF00#32 = 0#32 := (and_freqofMask_eq_zero_iff a).mpr (by simpa [Instr.wf] using hwf)
    simp [Instr.cancelBit, Instr.operandA, Instr.operandB, Instr.maskA, ha]
  | _ => simp [Instr.cancelBit, Instr.operandA, Instr.operandB, Instr.maskC, Instr.maskA, Instr.maskB]

/-- The command of `i`'s row with these operands. -/
def Instr.withOperands (c : Bool) (a b : BitVec 32) : Instr → Instr
  | .create _ => .create a
  | .init => .init
  | .process => .process
  | .getcount => .getcount
  | .gettotal => .gettotal
  | .finish _ => .finish c
  | .rdreg _ => .rdreg a
  | .freqof _ => .freqof a
  | .tone1 _ => .tone1 a
  | .tone _ _ => .tone a b
  | .rowdone => .rowdone

/-- A word that matches a row decodes to the command of the row with the word's operands. -/
theorem decode_of_matches_row {w : CmdWord} {i : Instr} (h : w &&& i.row.mask = i.row.mtch) :
    decode w = .ok (i.withOperands (cField w) (aField w) (bField w)) := by
  obtain ⟨hop, hrsv, hc, ha, hb⟩ := (matches_row_iff w i).mp h
  cases i
  all_goals
    simp only [Instr.maskC, Instr.maskA, Instr.maskB, Bool.and_true, BitVec.and_allOnes, and_freqofMask_eq_zero_iff] at hc ha hb
    refine HasFields.decode ⟨hop, hrsv, ?_, ?_, ?_⟩ ?_
    all_goals simp [*, Instr.withOperands, Instr.cancelBit, Instr.operandA, Instr.operandB, Instr.wf]

@[simp] theorem Instr.withOperands_row (i : Instr) (c : Bool) (a b : BitVec 32) : (i.withOperands c a b).row = i.row := by
  cases i <;> rfl

theorem mem_opcodeTable_iff (r : OpRow) : r ∈ opcodeTable ↔ ∃ i : Instr, i.row = r := by
  constructor
  · intro h
    obtain ⟨i, _, hi⟩ := List.mem_map.mp h
    exact ⟨i, hi⟩
  · rintro ⟨i, rfl⟩
    cases i <;> simp [opcodeTable, rowSamples, Instr.row]

/-- Settles O3: a word has a command's opcode and zeros exactly when it matches the command's row, and it decodes to one
command. -/
theorem decodeAgreesWithOpcodeTable : Obligations.DecodeAgreesWithOpcodeTable := by
  have hdecodes : ∀ (w : CmdWord) (r : OpRow), r ∈ opcodeTable → w &&& r.mask = r.mtch →
      ∃ i, decode w = .ok i ∧ i.row = r := by
    intro w r hr h
    obtain ⟨i, rfl⟩ := (mem_opcodeTable_iff r).mp hr
    exact ⟨_, decode_of_matches_row h, i.withOperands_row _ _ _⟩
  refine ⟨fun w i h => ⟨(mem_opcodeTable_iff _).mpr ⟨i, rfl⟩, matches_row_of_decode h⟩, hdecodes, ?_⟩
  intro w q r hq hr hwq hwr
  obtain ⟨i, hi, rfl⟩ := hdecodes w q hq hwq
  obtain ⟨j, hj, rfl⟩ := hdecodes w r hr hwr
  cases hi.symm.trans hj
  rfl

end Sys2Proof
end

section
/-! PROOFS. The worked encodings (spec/30_encoding.md R67), and the words of the events as numbers (R51 to R53, R55). -/

namespace Sys2Proof.Machine

open Sys2Proof

/-- A field above another: the number the two make. -/
theorem append_eq_ofNat {m n : Nat} (x : BitVec m) (y : BitVec n) : x ++ y = BitVec.ofNat (m + n) (x.toNat * 2 ^ n + y.toNat) := by
  apply BitVec.eq_of_toNat_eq
  have hval : (x ++ y).toNat = x.toNat * 2 ^ n + y.toNat := by
    rw [BitVec.toNat_append, ← Nat.shiftLeft_add_eq_or_of_lt y.isLt, Nat.shiftLeft_eq]
  rw [BitVec.toNat_ofNat, ← hval, Nat.mod_eq_of_lt (x ++ y).isLt]

theorem rspWord_eq (rc : RC) (v : BitVec 64) : rspWord rc v = BitVec.ofNat 72 (rc.code.toNat * 2 ^ 64 + v.toNat) :=
  append_eq_ofNat _ _

/-- A payload narrower than its field fills the low bits of SINK66. -/
theorem sinkWord_setWidth {n : Nat} (kind : BitVec 2) (x : BitVec n) (h : n ≤ 64) :
    sinkWord kind (x.setWidth 64) = BitVec.ofNat 66 (kind.toNat * 2 ^ 64 + x.toNat) := by
  rw [sinkWord, append_eq_ofNat, BitVec.toNat_setWidth_of_le h]

theorem rowWord_eq (kind : BitVec 2) (r : BitVec 16) : rowWord kind r = BitVec.ofNat 18 (kind.toNat * 2 ^ 16 + r.toNat) :=
  append_eq_ofNat _ _

/-- Settles O5: each word is its KIND or RC field above its payload. -/
theorem eventWordLayout : Obligations.EventWordLayout := by
  refine ⟨fun rc v => ⟨congrArg _ (rspWord_eq rc v), congrArg _ (rspWord_eq rc v)⟩, by decide, fun t => ?_, fun x => ?_,
    fun c => ?_, fun r => ?_, rfl, rfl⟩
  · rw [Event.word, sinkWord_setWidth 0 t (by omega)]
    simp
  · rw [Event.word, sinkWord_setWidth 1 x (by omega)]
    simp
  · rw [Event.word, sinkWord_setWidth 2 (BitVec.ofBool c) (by omega)]
    cases c <;> rfl
  · rw [Event.word, rowWord_eq]
    simp

/-- A line is written as the table has it if its text and its command give the same word: that the word decodes to the command is
O1. -/
theorem writtenAs_of_encode {line : String} {p : Port} {i : Instr} {w : CmdWord}
    (h : assemble line.toList = some (p, w) ∧ encode i = w ∧ i.wf = true ∧ p ∈ i.ports) : writtenAs line p i w := by
  obtain ⟨ha, he, hwf, hp⟩ := h
  exact ⟨ha, he, he ▸ decodeOfEncode i hwf, hp⟩

/-- Settles O4: the assembler and the encoder run on each line. -/
theorem workedEncodings : Obligations.WorkedEncodings := by
  refine ⟨?_, ?_, ?_, ?_, ?_, ?_, ?_, ?_, ?_, ?_, ?_, ?_, by decide⟩
  all_goals exact writtenAs_of_encode (by decide)

end Sys2Proof.Machine
end

section
/-! PROOFS. What is answered ILLEGAL_COMMAND: a word that matches no row (spec/30_encoding.md R58), and a command on a port without
the right to it (R59). -/

namespace Sys2Proof.Machine

open Sys2Proof

/-- An accepted word that does not decode is answered on its port (R58). -/
theorem step_of_illegal_word {s t : State} {w : CmdWord} {e : DecodeError} (hr : s.pinReset = false) (hw : s.wait = .none)
    (ha : accept s = some (w, t)) (hd : decode w = .error e) : step s = .next (t.respond t.port .illegalCommand 0) := by
  simp [step, nextMove, hr, hw, ha, hd, raise]

theorem whenAllowed_wrong_port {i : Instr} {s : State} (body : State → Result) (h : s.port ∉ i.ports) :
    whenAllowed i s body = .next (s.respond s.port .illegalCommand 0) :=
  if_pos h

/-- A command on a port without the right to it is answered ILLEGAL_COMMAND (R57 step 2). -/
theorem exec_wrong_port {i : Instr} {s : State} (h : s.port ∉ i.ports) :
    exec i s = .next (s.respond s.port .illegalCommand 0) := by
  cases i <;> exact if_pos h

/-- Settles O10: a word that matches no row does not decode (O3), and accepting it writes only its queue, the port in use and the
arbitration. -/
theorem illegalWordIsAnswered : Obligations.IllegalWordIsAnswered := by
  intro s t w hr hw ha hrows
  have hsame : t = { s with hcmd := t.hcmd, scmd := t.scmd, port := t.port, owed := t.owed, draws := t.draws } := by
    rcases accept_cases ha with ⟨_, _, e⟩ | ⟨_, e⟩
    all_goals rw [e]
  refine ⟨?_, hsame⟩
  cases hd : decode w with
  | error e => exact step_of_illegal_word hr hw ha hd
  | ok i =>
    obtain ⟨hmem, hmatch⟩ := decodeAgreesWithOpcodeTable.1 w i hd
    exact absurd hmatch (hrows _ hmem)

/-- Settles O14: the ports of the nine commands exclude the port. -/
theorem wrongPortIsIllegalCommand : Obligations.WrongPortIsIllegalCommand := by
  intro s i
  refine ⟨fun hp hi => ?_, fun hp hi => ?_⟩
  · have hport : s.port ∉ i.ports := by
      rcases hi with ⟨a, rfl⟩ | rfl | rfl | rfl | rfl | ⟨c, rfl⟩ <;> simp [hp, Instr.ports, Instr.row]
    simp [exec_wrong_port hport, State.respond, State.emit, hp]
  · have hport : s.port ∉ i.ports := by
      rcases hi with ⟨f, rfl⟩ | ⟨f, d, rfl⟩ | rfl <;> simp [hp, Instr.ports, Instr.row]
    simp [exec_wrong_port hport, State.respond, State.emit, hp]

end Sys2Proof.Machine
end

section
/-! PROOFS. Every command is answered once (spec/30_encoding.md R51): an account for each port, of the responses in the trace and
the commands in progress, that a command accepted on the port raises by one, and that nothing else moves. -/

namespace Sys2Proof.Machine

open Sys2Proof

/-! ## The account of a port -/

/-- A response to a command that arrived on port `p`. -/
def Event.isResponseOn (p : Port) : Event → Bool :=
  match p with
  | .hcmd => Event.isHostResponse
  | .scmd => Event.isStrategyResponse

/-- How many commands of port `p` are accepted and not yet answered. -/
def pendingOn : Port → State → Nat
  | .hcmd => hostPending
  | .scmd => strategyPending

/-- How many commands of port `p` are answered or in progress. -/
def account (p : Port) (s : State) : Nat := s.out.countP (Event.isResponseOn p) + pendingOn p s

/-- From `s` to `t` one command of port `q` comes to be answered or in progress. -/
def Accounts (q : Port) (s t : State) : Prop := ∀ p, account p t = account p s + if p = q then 1 else 0

theorem Accounts.of_account_eq {q : Port} {s u t : State} (h : Accounts q u t) (hu : ∀ p, account p u = account p s) :
    Accounts q s t := fun p => by rw [h p, hu p]

/-- Events that are no responses, with nothing else changed. -/
theorem account_of_no_responses {s t : State} {es : List Event} (ho : t.out = s.out ++ es)
    (hes : ∀ e ∈ es, e.isHostResponse = false ∧ e.isStrategyResponse = false) (hb : t.rowbusy = s.rowbusy) (hw : t.wait = s.wait)
    (p : Port) : account p t = account p s := by
  have hcount : es.countP (Event.isResponseOn p) = 0 :=
    List.countP_eq_zero.mpr fun e he => by cases p <;> simp [Event.isResponseOn, hes e he]
  have hpend : pendingOn p t = pendingOn p s := by cases p <;> simp [pendingOn, hostPending, strategyPending, hb, hw]
  rw [account, account, ho, List.countP_append, hcount, hpend, Nat.add_zero]

/-- Neither responses nor commands in progress change. -/
theorem account_congr {s t : State} (ho : t.out = s.out) (hb : t.rowbusy = s.rowbusy) (hw : t.wait = s.wait) (p : Port) :
    account p t = account p s :=
  account_of_no_responses (es := []) (by simp [ho]) nofun hb hw p

theorem isResponseOn_rspEvent (p q : Port) (rc : RC) (v : BitVec 64) : (rspEvent q rc v).isResponseOn p = decide (p = q) := by
  cases p <;> cases q <;> rfl

/-- A response accounts for a command of its port. -/
theorem accounts_respond (q : Port) (s : State) (rc : RC) (v : BitVec 64) : Accounts q s (s.respond q rc v) := by
  intro p
  have hpend : pendingOn p (s.respond q rc v) = pendingOn p s := by cases p <;> rfl
  rw [account, account, hpend, State.respond_out, List.countP_append, List.countP_singleton, isResponseOn_rspEvent,
    Nat.add_right_comm]
  simp only [decide_eq_true_eq]

theorem SinkFrame.account_eq {s t : State} (h : SinkFrame s t) (p : Port) : account p t = account p s := by
  obtain ⟨es, hout, hes⟩ := h.grows
  refine account_of_no_responses hout (fun e he => ?_) (by rw [h.same]) (by rw [h.same]) p
  obtain ⟨x, rfl⟩ := hes e he
  exact ⟨rfl, rfl⟩

theorem endSession_account (c : Bool) (s : State) (p : Port) : account p (endSession c s) = account p s :=
  account_of_no_responses (endSession_out s c) (by simp [Event.isHostResponse, Event.isStrategyResponse]) rfl rfl p

/-! ## The sink commands -/

/-- The port that the command in execution came from: SCMD in an open row, where HCMD is not served (spec/20_memory.md R32). -/
def servedPort (s : State) : Port := if s.rowbusy then .scmd else .hcmd

/-- The port of a command that waits for the sink. -/
def Wait.port : Wait → Option Port
  | .none => Option.none
  | .sinkInit => some .hcmd
  | .header => some .hcmd
  | .tone1 => some .scmd
  | .tone _ => some .scmd

/-- A command of the served port begins to wait. -/
theorem accounts_setWait {q : Port} {s : State} {w : Wait} (hs : s.wait = .none) (hq : servedPort s = q) (hw : w.port = some q) :
    Accounts q s (s.setWait w) := by
  subst hq
  intro p
  cases hb : s.rowbusy <;> cases w <;> simp [Wait.port, servedPort, hb] at hw
  all_goals cases p <;> simp [account, pendingOn, hostPending, strategyPending, servedPort, hb, hs]

/-- The abort answers the command that failed, and in an open row the PROCESS in progress too (R132). -/
theorem accounts_sinkAbort {q : Port} {s : State} (hs : s.wait = .none) (hq : servedPort s = q) : Accounts q s (sinkAbort s) := by
  subst hq
  intro p
  rw [sinkAbort_eq]
  cases hb : s.rowbusy <;> cases p <;>
    simp [account, pendingOn, hostPending, strategyPending, servedPort, hb, hs, Event.isResponseOn, Event.isHostResponse,
      Event.isStrategyResponse, List.countP_cons]

theorem SinkFrame.servedPort_eq {s t : State} (h : SinkFrame s t) : servedPort t = servedPort s := by
  rw [h.same]; rfl

/-- However a command that talks to the sink ends, it is accounted for. -/
theorem SinkEnd.accounts {q : Port} {u t : State} {finish : State → State} {w : Wait} {r : Result} (h : SinkEnd u finish w r)
    (hr : r = .next t) (hu : u.wait = .none) (hq : servedPort u = q) (hw : w.port = some q)
    (hf : ∀ v, Accounts q v (finish v)) : Accounts q u t := by
  obtain ⟨v, hv, ht⟩ := h.next_cases hr
  have hport : servedPort v = q := hv.servedPort_eq.trans hq
  have hwait : v.wait = .none := by rw [hv.same]; exact hu
  refine Accounts.of_account_eq ?_ hv.account_eq
  rcases ht with rfl | rfl | rfl
  · exact hf v
  · exact accounts_sinkAbort hwait hport
  · exact accounts_setWait hwait hport hw

/-! ## Commands -/

/-- A command responds on the port it came from, so it is accounted for. -/
theorem accounts_of_respond {s t : State} {rc : RC} {v : BitVec 64} {r : Result} (e : r = .next (s.respond s.port rc v))
    (he : r = .next t) : Accounts s.port s t := by
  cases e.symm.trans he
  exact accounts_respond _ _ _ _

theorem execCreate_accounts {a : BitVec 32} {s t : State} (he : execCreate a s = .next t) : Accounts s.port s t := by
  rcases execCreate_cases a s with e | e | ⟨_, _, e⟩ | ⟨hp, _, _, e⟩
  · exact accounts_of_respond e he
  · exact accounts_of_respond e he
  · exact accounts_of_respond e he
  · cases e.symm.trans he
    exact hp ▸ (accounts_respond _ _ _ _).of_account_eq (account_congr rfl rfl rfl)

/-- INIT once SINK_INIT is emitted accounts as before. -/
theorem initAnnounced_account (s : State) (p : Port) : account p (initAnnounced s) = account p s :=
  account_of_no_responses (s := s) (t := initAnnounced s) (es := [.sinkInit (initSession s).total]) rfl
    (by simp [Event.isHostResponse, Event.isStrategyResponse]) rfl rfl p

theorem finishInit_accounts (s : State) : Accounts .hcmd s (finishInit s) :=
  (accounts_respond _ _ _ _).of_account_eq (account_congr rfl rfl rfl)

theorem execInit_accounts {s t : State} (hw : s.wait = .none) (hb : s.port = .hcmd → s.rowbusy = false)
    (he : execInit s = .next t) : Accounts s.port s t := by
  rcases execInit_cases s with e | e | ⟨_, _, _, e⟩ | ⟨hp, _, _, hend⟩
  · exact accounts_of_respond e he
  · exact accounts_of_respond e he
  · cases e.symm.trans he
  · have hserved : servedPort (initAnnounced s) = .hcmd := by simp [servedPort, initAnnounced, hb hp]
    rw [hp]
    refine Accounts.of_account_eq ?_ (initAnnounced_account s)
    rcases hend with hend | e
    · exact hend.accounts he hw hserved rfl finishInit_accounts
    · cases e.symm.trans he
      exact accounts_setWait hw hserved rfl

/-- PROCESS that opens a row is in progress until ROWDONE (R104). -/
theorem openRow_accounts {s : State} (hw : s.wait = .none) (hb : s.rowbusy = false) : Accounts .hcmd s (openRow s) := by
  intro p
  cases p <;> simp [account, pendingOn, hostPending, strategyPending, hb, hw, Event.isResponseOn, Event.isHostResponse,
    Event.isStrategyResponse]

/-- ROWDONE is answered, and so is the PROCESS that was in progress (R106). -/
theorem closeRow_accounts {s : State} (hw : s.wait = .none) (hb : s.rowbusy = true) : Accounts .scmd s
    (({ s with row := s.row + 1, rowbusy := false }.respond .scmd .ok 0).respond .hcmd .ok 1) := by
  intro p
  cases p <;> simp [account, pendingOn, hostPending, strategyPending, hb, hw, Event.isResponseOn, Event.isHostResponse,
    Event.isStrategyResponse, List.countP_cons]

theorem execProcess_accounts {s t : State} (hw : s.wait = .none) (hp : s.port = .hcmd → s.rowbusy = false)
    (he : execProcess s = .next t) : Accounts s.port s t := by
  rcases execProcess_cases s with e | e | ⟨hport, _, _, e⟩ | ⟨hport, _, _, e⟩
  · exact accounts_of_respond e he
  · exact accounts_of_respond e he
  · exact accounts_of_respond (hport ▸ e) he
  · cases e.symm.trans he
    exact hport ▸ openRow_accounts hw (hp hport)

theorem execRowdone_accounts {s t : State} (hw : s.wait = .none) (he : execRowdone s = .next t) : Accounts s.port s t := by
  rcases execRowdone_cases s with e | e | ⟨hport, hb, e⟩
  · exact accounts_of_respond e he
  · exact accounts_of_respond e he
  · cases e.symm.trans he
    exact hport ▸ closeRow_accounts hw hb

theorem execFinish_accounts {c : Bool} {s t : State} (he : execFinish c s = .next t) : Accounts s.port s t := by
  rcases execFinish_cases c s with e | e | ⟨hport, _, e⟩
  · exact accounts_of_respond e he
  · exact accounts_of_respond e he
  · cases e.symm.trans he
    exact hport ▸ (accounts_respond _ _ _ _).of_account_eq (endSession_account c s)

theorem execTone1_accounts {f : BitVec 32} {s t : State} (hw : s.wait = .none) (he : execTone1 f s = .next t) :
    Accounts s.port s t := by
  rcases execTone1_cases f s with e | e | ⟨_, _, _, e⟩ | ⟨hport, hb, _, hend⟩
  · exact accounts_of_respond e he
  · exact accounts_of_respond e he
  · cases e.symm.trans he
  · exact hport ▸ hend.accounts he hw (if_pos hb) rfl fun _ => accounts_respond _ _ _ _

theorem execTone_accounts {f d : BitVec 32} {s t : State} (hw : s.wait = .none) (he : execTone f d s = .next t) :
    Accounts s.port s t := by
  rcases execTone_cases f d s with e | e | ⟨_, _, _, e⟩ | ⟨hport, hb, _, hend⟩
  · exact accounts_of_respond e he
  · exact accounts_of_respond e he
  · cases e.symm.trans he
  · exact hport ▸ hend.accounts he hw (if_pos hb) rfl fun _ => accounts_respond _ _ _ _

theorem query_accounts {i : Instr} {s t : State}
    (hi : i = .getcount ∨ i = .gettotal ∨ (∃ a, i = .rdreg a) ∨ ∃ a, i = .freqof a) (he : exec i s = .next t) :
    Accounts s.port s t := by
  obtain ⟨rc, v, _, e⟩ := query_cases s hi
  exact accounts_of_respond e he

/-- Every command is accounted for on its port, from a state in which none waits and in which HCMD is served only between rows. -/
theorem exec_accounts {i : Instr} {s t : State} (hw : s.wait = .none)
    (hp : s.port = .hcmd → s.rowbusy = false) (he : exec i s = .next t) : Accounts s.port s t := by
  cases i with
  | create a => exact execCreate_accounts he
  | init => exact execInit_accounts hw hp he
  | process => exact execProcess_accounts hw hp he
  | getcount => exact query_accounts (by simp) he
  | gettotal => exact query_accounts (by simp) he
  | finish c => exact execFinish_accounts he
  | rdreg a => exact query_accounts (by simp) he
  | freqof a => exact query_accounts (by simp) he
  | tone1 f => exact execTone1_accounts hw he
  | tone f d => exact execTone_accounts hw he
  | rowdone => exact execRowdone_accounts hw he

/-! ## Going on after an answer -/

/-- What a waiting command accounts for is the command that waits. -/
theorem accounts_of_waiting {q : Port} {s : State} (hq : servedPort s = q) (hw : s.wait.port = some q) :
    Accounts q (s.setWait .none) s :=
  accounts_setWait (s := s.setWait .none) rfl hq hw

theorem Accounts.account_eq {q : Port} {u s t : State} (ht : Accounts q u t) (hs : Accounts q u s) (p : Port) :
    account p t = account p s :=
  (ht p).trans (hs p).symm

/-- Going on with a command that waited moves no account: it is answered, or still in progress. -/
theorem resumeCommand_account {s t : State} (h : SessionInv s) (he : resumeCommand s = .next t) :
    ∀ p, account p t = account p s := by
  have htone : s.wait ≠ .none → s.wait ≠ .sinkInit → s.wait ≠ .header → servedPort s = .scmd :=
    fun h0 h1 h2 => if_pos (h.toneWaits h0 h1 h2)
  rcases resumeCommand_cases s with ⟨_, e⟩ | ⟨_, _, e⟩ | ⟨hw, _, hend | ⟨_, _, e⟩⟩ | ⟨hw, hend⟩ | ⟨n, hw, hend⟩
  · cases e.symm.trans he; exact fun _ => rfl
  · cases e.symm.trans he
  · have hq : servedPort s = .hcmd := by simp [servedPort, h.rowbusy_of_not_active (by simp [(h.initWaits hw).1])]
    have hport : s.wait.port = some .hcmd := by rcases hw with hw | hw <;> rw [hw] <;> rfl
    exact (hend.accounts he rfl hq rfl finishInit_accounts).account_eq (accounts_of_waiting hq hport)
  · cases e.symm.trans he; exact fun _ => rfl
  · have hq := htone (by simp [hw]) (by simp [hw]) (by simp [hw])
    exact (hend.accounts he rfl hq rfl fun _ => accounts_respond _ _ _ _).account_eq
      (accounts_of_waiting hq (by rw [hw]; rfl))
  · have hq := htone (by simp [hw]) (by simp [hw]) (by simp [hw])
    exact (hend.accounts he rfl hq rfl fun _ => accounts_respond _ _ _ _).account_eq
      (accounts_of_waiting hq (by rw [hw]; rfl))

/-! ## Steps -/

/-- What a command leaves of the words on SCMD: all of them, and behind them those a row brings as it is opened (R105). -/
def KeepsScmd (s t : State) : Prop :=
  ∃ added, t.scmd = s.scmd ++ added ∧ (added = [] ∨ (s.rowbusy = false ∧ t.rowbusy = true))

theorem KeepsScmd.of_eq {s t : State} (h : t.scmd = s.scmd) : KeepsScmd s t := ⟨[], by simp [h], .inl rfl⟩

theorem execProcess_keepsScmd {s t : State} (hp : s.port = .hcmd → s.rowbusy = false) (he : execProcess s = .next t) :
    KeepsScmd s t := by
  rcases execProcess_cases s with e | e | ⟨_, _, _, e⟩ | ⟨hport, _, _, e⟩
  · cases e.symm.trans he; exact .of_eq rfl
  · cases e.symm.trans he; exact .of_eq rfl
  · cases e.symm.trans he; exact .of_eq rfl
  · cases e.symm.trans he; exact ⟨_, rfl, .inr ⟨hp hport, rfl⟩⟩

/-- No command takes a word of SCMD, and PROCESS alone brings words. -/
theorem exec_keepsScmd {i : Instr} {s t : State} (hp : s.port = .hcmd → s.rowbusy = false) (he : exec i s = .next t) :
    KeepsScmd s t := by
  by_cases hi : i = .process
  · subst hi
    exact execProcess_keepsScmd hp he
  · cases he ▸ exec_end i s with
    | responds _ _ _ => exact .of_eq rfl
    | creates _ _ => exact .of_eq rfl
    | opensRow _ => exact absurd rfl hi
    | closesRow _ => exact .of_eq rfl
    | finishes _ _ => exact .of_eq rfl
    | announces _ => exact .of_eq rfl
    | sendsHeader _ hend => exact .of_eq (hend.scmd rfl fun _ => rfl)
    | tones _ _ _ hend => exact .of_eq (hend.scmd rfl fun _ => rfl)

/-- Accepting a word moves no account. -/
theorem accept_account {s t : State} {w : CmdWord} (ha : accept s = some (w, t)) (p : Port) : account p t = account p s := by
  rcases accept_cases ha with ⟨_, _, e⟩ | ⟨_, e⟩
  all_goals exact account_congr (by rw [e]) (by rw [e]) (by rw [e]) p

/-- A step without RESET, from a sound state, goes on with a command, or accepts a word and accounts for it on its port. -/
theorem step_account_cases {s t : State} (h : SessionInv s) (hr : s.pinReset = false) (hstep : step s = .next t) :
    ((∀ p, account p t = account p s) ∧ t.hcmd = s.hcmd ∧ t.scmd = s.scmd) ∨
    ∃ w u, accept s = some (w, u) ∧ Accounts u.port s t ∧ t.hcmd = u.hcmd ∧ KeepsScmd u t := by
  rcases step_cases hstep with ⟨hr', _⟩ | ⟨_, _, _, e⟩ | ⟨_, _, _, e⟩ | ⟨_, _, _, e⟩ | ⟨w, u, _, _, _, ha, _, e⟩ |
    ⟨w, u, i, _, hw, ha, _, e⟩
  · simp [hr] at hr'
  · cases e; exact .inl ⟨fun _ => rfl, rfl, rfl⟩
  · obtain ⟨hframe, hscmd⟩ := resumeCommand_commandFrame e.symm
    exact .inl ⟨resumeCommand_account h e.symm, hframe.hcmd, hscmd⟩
  · cases e; exact .inl ⟨fun _ => rfl, rfl, rfl⟩
  · cases e
    exact .inr ⟨w, u, ha, (accounts_respond _ _ _ _).of_account_eq (accept_account ha), rfl, .of_eq rfl⟩
  · obtain ⟨_, huw, hup⟩ := accept_sessionInv h hw ha
    exact .inr ⟨w, u, ha, (exec_accounts huw hup e.symm).of_account_eq (accept_account ha), (exec_commandFrame e.symm).hcmd,
      exec_keepsScmd hup e.symm⟩

/-- Settles O54: the account of HCMD grows by the word taken. -/
theorem oneHostResponsePerCommand : Obligations.OneHostResponsePerCommand := by
  intro s t h hr hstep
  change account .hcmd t + _ = account .hcmd s + _
  rcases step_account_cases h hr hstep with ⟨hacc, hh, _⟩ | ⟨w, u, ha, hacc, hh, _⟩
  · rw [hacc, hh]
  · rw [hacc, hh]
    rcases accept_cases ha with ⟨_, hs, e⟩ | ⟨_, e⟩
    · rw [hs, show u.port = .hcmd by rw [e], if_pos rfl, List.length_cons]
      omega
    · rw [e]
      rfl

/-- Settles O55: the account of SCMD grows by the word taken; what is added comes with a row. -/
theorem oneStrategyResponsePerCommand : Obligations.OneStrategyResponsePerCommand := by
  intro s t h hr hstep
  change ∃ (n : Nat) (added : List CmdWord), _ ∧ _ ∧ _ ∧ account .scmd t = account .scmd s + n
  rcases step_account_cases h hr hstep with ⟨hacc, _, hs⟩ | ⟨w, u, ha, hacc, _, added, hs, hadded⟩
  · exact ⟨0, [], by omega, by simp [hs], .inl rfl, hacc .scmd⟩
  · have hbusy : u.rowbusy = s.rowbusy := by
      rcases accept_cases ha with ⟨_, _, e⟩ | ⟨_, e⟩
      all_goals rw [e]
    rw [hbusy] at hadded
    rcases accept_cases ha with ⟨_, _, e⟩ | ⟨hw, e⟩
    · have hport : u.port = .hcmd := by rw [e]
      have hsame : u.scmd = s.scmd := by rw [e]
      exact ⟨0, added, by omega, by rw [hs, hsame]; rfl, hadded, by rw [hacc, hport]; rfl⟩
    · have hport : u.port = .scmd := by rw [e]
      exact ⟨1, added, by simp [hw], by rw [hs, hw]; rfl, hadded, by rw [hacc, hport]; rfl⟩

end Sys2Proof.Machine
end

section
/-! PROOFS. The phase is continuous (spec/40_oscillator.md R78): the samples of every command, of the rest of a waiting one, and of every
step go along the tuning words it has to emit. -/

namespace Sys2Proof.Machine

open Sys2Proof

/-! ## Going along tuning words -/

/-- From `s` to `t` the trace grows, its samples are the first of those of `ws`, and PHASE is left at the last of them. -/
def GoesAlong (ws : List (BitVec 32)) (s t : State) : Prop :=
  ∃ vs es, vs <+: ws ∧ t.out = s.out ++ es ∧ es.filter Event.isWrite = sampleEvents vs s.phase ∧ t.phase = phaseAlong vs s.phase

/-- The trace grows from `s` to `t` by other events than samples, and PHASE stays. -/
def AddsNoSample (s t : State) : Prop :=
  ∃ es, t.out = s.out ++ es ∧ es.filter Event.isWrite = [] ∧ t.phase = s.phase

theorem GoesAlong.of_addsNoSample {ws : List (BitVec 32)} {s t : State} (h : AddsNoSample s t) : GoesAlong ws s t := by
  obtain ⟨es, ho, hes, hp⟩ := h
  exact ⟨[], es, List.nil_prefix, ho, hes, hp⟩

/-- Other events may come before and behind the samples. -/
theorem GoesAlong.between {ws : List (BitVec 32)} {s u v t : State} (hs : AddsNoSample s u) (h : GoesAlong ws u v)
    (ht : AddsNoSample v t) : GoesAlong ws s t := by
  obtain ⟨as, hao, ha, hap⟩ := hs
  obtain ⟨vs, es, hvs, heo, he, hep⟩ := h
  obtain ⟨bs, hbo, hb, hbp⟩ := ht
  refine ⟨vs, as ++ es ++ bs, hvs, by rw [hbo, heo, hao]; simp, ?_, by rw [hbp, hep, hap]⟩
  rw [List.filter_append, List.filter_append, ha, hb, he, hap, List.nil_append, List.append_nil]

theorem AddsNoSample.refl (s : State) : AddsNoSample s s := ⟨[], by simp, rfl, rfl⟩

@[simp] theorem isWrite_rspEvent (p : Port) (rc : RC) (v : BitVec 64) : (rspEvent p rc v).isWrite = false := by cases p <;> rfl

theorem addsNoSample_respond (s : State) (p : Port) (rc : RC) (v : BitVec 64) : AddsNoSample s (s.respond p rc v) :=
  ⟨[rspEvent p rc v], rfl, by simp, rfl⟩

theorem addsNoSample_finishInit (s : State) : AddsNoSample s (finishInit s) := ⟨[.hrsp .ok 0], rfl, rfl, rfl⟩

/-- The abort writes no sample (R132). -/
theorem addsNoSample_sinkAbort (s : State) : AddsNoSample s (sinkAbort s) := by
  rw [sinkAbort_eq]
  exact ⟨_, List.append_assoc _ _ _, by split <;> rfl, rfl⟩

/-! ## Commands that talk to the sink -/

theorem Wrote.goesAlong {vs ws : List (BitVec 32)} {s t : State} (h : Wrote vs s t) (hvs : vs <+: ws) : GoesAlong ws s t := by
  obtain ⟨hout, hphase⟩ := h
  exact ⟨vs, _, hvs, hout, sampleEvents_filter _ _, hphase⟩

/-- A run goes along the words it writes, however it ends. -/
theorem SinkRun.Writes.settle_goesAlong {ws : List (BitVec 32)} {s t : State} {r : SinkRun} {finish : State → State}
    (h : r.Writes ws s) (hf : ∀ v, AddsNoSample v (finish v)) (hr : r.settle finish = .next t) : GoesAlong ws s t := by
  have hsome := h.some_prefix
  rcases SinkRun.settle_cases r finish with ⟨v, rfl, e⟩ | ⟨v, rfl, e⟩ | ⟨v, rfl, e⟩
  all_goals
    cases e.symm.trans hr
    obtain ⟨vs, hvs, hv⟩ := hsome
  · exact (hv.goesAlong hvs).between (.refl s) (hf v)
  · exact (hv.goesAlong hvs).between (.refl s) (addsNoSample_sinkAbort v)
  · exact hv.goesAlong hvs

/-- A run that follows the answer to the last sink event writes its own samples. -/
theorem takeAnswer_andThen_writes {ws : List (BitVec 32)} {s : State} {k : State → SinkRun}
    (hk : ∀ rest, (k { s with sinkAnswers := rest }).Writes ws { s with sinkAnswers := rest }) :
    ((takeAnswer s).andThen k).Writes ws s := by
  match h : s.sinkAnswers with
  | [] => rw [takeAnswer_nil h]; exact ⟨[], List.nil_prefix, .nil rfl rfl⟩
  | .ack :: rest => rw [takeAnswer_ack h]; exact (hk rest).of_same rfl rfl
  | .fail :: rest => rw [takeAnswer_fail h]; exact ⟨[], List.nil_prefix, .nil rfl rfl⟩

/-- Naming the waiting command changes neither the trace nor PHASE, wherever in the run it waits. -/
theorem SinkRun.Writes.mark_andThen {ws : List (BitVec 32)} {s : State} {r : SinkRun} {k : State → SinkRun}
    (h : (r.andThen k).Writes ws s) (w : Wait) : ((r.mark w).andThen k).Writes ws s := by
  cases r with
  | done t => exact h
  | failed t => exact h
  | waiting t => exact h

/-- The samples of INIT, after the answer to SINK_INIT. -/
theorem headerOfInit_writes (s : State) :
    (((takeAnswer s).mark .sinkInit).andThen headerOfInit).Writes (headerWords s.vis s.srate) s :=
  (takeAnswer_andThen_writes fun rest => (writeHeader_writes { s with sinkAnswers := rest }).mark .header).mark_andThen _

/-- INIT in a created session is SINK_INIT, then the header. -/
theorem exec_init_created {s : State} (hp : s.port = .hcmd) (hc : s.sstate = .created) (hr : s.srate ≠ 0) :
    exec .init s = (((takeAnswer (initAnnounced s)).mark .sinkInit).andThen headerOfInit).settle finishInit := by
  have hport : s.port ∈ Instr.init.ports := by simp [hp, Instr.ports, Instr.row]
  rw [exec, execInit, whenAllowed_body (i := .init) _ hport rfl (by simp [stateAllows, hc]), withRate_pos _ hr]
  rfl

/-- A TONE1 in an open row plays its sample. -/
theorem execTone1_in_row {f : BitVec 32} {s : State} (hp : s.port = .scmd) (hb : s.rowbusy = true) (hr : s.srate ≠ 0) :
    exec (.tone1 f) s = ((sample (ftw f s.srate) s).mark .tone1).settle finishTone1 := by
  have hport : s.port ∈ (Instr.tone1 f).ports := by simp [hp, Instr.ports, Instr.row]
  rw [exec, execTone1, whenAllowed_body (i := .tone1 f) _ hport rfl hb, withRate_pos _ hr]

/-- INIT begins from PHASE 0, which `initSession` writes (R24 item 4, R103). -/
theorem addsNoSample_initAnnounced {s : State} (h : SessionInv s) (hw : s.wait = .none) (hc : s.sstate = .created) :
    AddsNoSample s (initAnnounced s) := by
  obtain ⟨_, hphase, _⟩ := h.created hc hw
  exact ⟨[.sinkInit (initSession s).total], rfl, rfl, hphase.symm⟩

theorem execInit_goesAlong {s t : State} (h : SessionInv s) (hw : s.wait = .none) (he : exec .init s = .next t) :
    GoesAlong (headerWords s.vis s.srate) s t := by
  rcases execInit_cases s with e | e | ⟨_, _, _, e⟩ | ⟨hp, hc, hr, _⟩
  · cases e.symm.trans he; exact .of_addsNoSample (addsNoSample_respond ..)
  · cases e.symm.trans he; exact .of_addsNoSample (addsNoSample_respond ..)
  · cases e.symm.trans he
  · rw [exec_init_created hp hc hr] at he
    exact ((headerOfInit_writes _).settle_goesAlong addsNoSample_finishInit he).between
      (addsNoSample_initAnnounced h hw hc) (.refl t)

theorem execTone1_goesAlong {f : BitVec 32} {s t : State} (he : exec (.tone1 f) s = .next t) :
    GoesAlong [ftw f s.srate] s t := by
  rcases execTone1_cases f s with e | e | ⟨_, _, _, e⟩ | ⟨hp, hb, hr, _⟩
  · cases e.symm.trans he; exact .of_addsNoSample (addsNoSample_respond ..)
  · cases e.symm.trans he; exact .of_addsNoSample (addsNoSample_respond ..)
  · cases e.symm.trans he
  · rw [execTone1_in_row hp hb hr] at he
    exact ((sample_writes _ s).mark .tone1).settle_goesAlong (fun v => addsNoSample_respond v ..) he

theorem execTone_goesAlong {f d : BitVec 32} {s t : State} (he : exec (.tone f d) s = .next t) :
    GoesAlong (segmentWords f d s.srate) s t := by
  rcases execTone_cases f d s with e | e | ⟨_, _, _, e⟩ | ⟨hp, hb, hr, _⟩
  · cases e.symm.trans he; exact .of_addsNoSample (addsNoSample_respond ..)
  · cases e.symm.trans he; exact .of_addsNoSample (addsNoSample_respond ..)
  · cases e.symm.trans he
  · rw [execTone_in_row hp hb hr] at he
    exact ((toneSeg_writes f d s).mark _).settle_goesAlong (fun v => addsNoSample_respond v ..) he

/-! ## Every command -/

/-- `s` to `t` goes along `ws`, unless it is the CREATE that begins a session, which writes no sample (R102). -/
def PhaseStep (ws : List (BitVec 32)) (s t : State) : Prop :=
  GoesAlong ws s t ∨ s.sstate = .idle ∧ t.sstate = .created ∧ t.out = s.out ++ [.hrsp .ok 0]

theorem exec_phaseStep {i : Instr} {s t : State} (h : SessionInv s) (hw : s.wait = .none) (he : exec i s = .next t) :
    PhaseStep (commandWords i s) s t := by
  have hend := exec_end i s
  rw [he] at hend
  cases hend with
  | responds rc v _ => exact .inl (.of_addsNoSample (addsNoSample_respond ..))
  | creates a hi => exact .inr ⟨hi, rfl, rfl⟩
  | opensRow _ => exact .inl (.of_addsNoSample ⟨[.rowReq s.row], rfl, rfl, rfl⟩)
  | closesRow _ => exact .inl (.of_addsNoSample ⟨[.srsp .ok 0, .hrsp .ok 1], by simp [rspEvent], rfl, rfl⟩)
  | finishes c _ =>
    exact .inl (.of_addsNoSample ⟨[.sinkFinish c, .imgRelease, .hrsp .ok 0], by simp [rspEvent], rfl, rfl⟩)
  | announces _ => exact .inl (execInit_goesAlong h hw he)
  | sendsHeader _ _ => exact .inl (execInit_goesAlong h hw he)
  | tones hi _ _ _ =>
    rcases hi with ⟨f, rfl⟩ | ⟨f, d, rfl⟩
    · exact .inl (execTone1_goesAlong he)
    · exact .inl (execTone_goesAlong he)

/-! ## Going on after an answer -/

/-- The rest of a waiting command goes along what it has still to emit (assumption log 14). -/
theorem resumeCommand_goesAlong {s t : State} (h : SessionInv s) (he : resumeCommand s = .next t) :
    GoesAlong (waitingWords s) s t := by
  have hstart : AddsNoSample s (s.setWait .none) := ⟨[], by simp, rfl, rfl⟩
  have hrate : s.wait = .sinkInit ∨ s.wait = .header → s.srate ≠ 0 := fun hw => (h.initRuns hw).srate
  refine GoesAlong.between hstart ?_ (.refl t)
  cases hw : s.wait with
  | none =>
    simp only [resumeCommand, hw] at he
    cases he
    exact .of_addsNoSample ⟨[], by simp, rfl, rfl⟩
  | sinkInit =>
    rw [resumeCommand_sinkInit hw (hrate (.inl hw))] at he
    rw [waitingWords, hw]
    exact (headerOfInit_writes (s.setWait .none)).settle_goesAlong addsNoSample_finishInit he
  | header =>
    rw [resumeCommand_header hw (hrate (.inr hw))] at he
    rw [waitingWords, hw]
    exact ((takeAnswer_andThen_writes fun rest => resumeHeader_writes { s.setWait .none with sinkAnswers := rest }).mark
      .header).settle_goesAlong addsNoSample_finishInit he
  | tone1 =>
    rw [resumeCommand_tone1 hw] at he
    rw [waitingWords, hw]
    exact ((takeAnswer_writes _).mark .tone1).settle_goesAlong (fun v => addsNoSample_respond v ..) he
  | tone n =>
    rw [resumeCommand_tone hw] at he
    rw [waitingWords, hw]
    exact ((takeAnswer_andThen_writes fun rest => samples_writes _ { s.setWait .none with sinkAnswers := rest }).mark
      (.tone n)).settle_goesAlong (fun v => addsNoSample_respond v ..) he

/-! ## Steps -/

/-- Accepting a word moves neither the trace nor PHASE nor what a tone or a header is made of. -/
theorem accept_same {s t : State} {w : CmdWord} (ha : accept s = some (w, t)) :
    t.out = s.out ∧ t.phase = s.phase ∧ t.sstate = s.sstate ∧ ∀ i, commandWords i t = commandWords i s := by
  rcases accept_cases ha with ⟨_, _, e⟩ | ⟨_, e⟩
  all_goals
    rw [e]
    exact ⟨rfl, rfl, rfl, fun i => by cases i <;> rfl⟩

/-- A step without RESET goes along the words it has to emit. -/
theorem step_phaseStep {s t : State} (h : SessionInv s) (hr : s.pinReset = false) (hstep : step s = .next t) :
    PhaseStep (stepWords s) s t := by
  rcases step_cases hstep with ⟨hr', _⟩ | ⟨_, _, _, e⟩ | ⟨_, hw, ha, e⟩ | ⟨_, _, _, e⟩ | ⟨w, u, _, _, _, ha, _, e⟩ |
    ⟨w, u, i, _, hw, ha, hd, e⟩
  · simp [hr] at hr'
  · cases e; exact .inl (.of_addsNoSample (.refl s))
  · have hwords : stepWords s = waitingWords s := by simp [stepWords, nextMove, hr, hw, ha]
    rw [hwords]
    exact .inl (resumeCommand_goesAlong h e.symm)
  · cases e; exact .inl (.of_addsNoSample (.refl s))
  · obtain ⟨hout, hphase, _⟩ := accept_same ha
    cases e
    exact .inl (.of_addsNoSample ⟨[rspEvent u.port .illegalCommand 0], by simp [hout], by simp, hphase⟩)
  · obtain ⟨hout, hphase, hsstate, hwords⟩ := accept_same ha
    obtain ⟨hu, huw, _⟩ := accept_sessionInv h hw ha
    have hstep := exec_phaseStep hu huw e.symm
    rw [PhaseStep, GoesAlong, hout, hphase, hsstate, hwords] at hstep
    rw [stepWords, nextMove_of_accept hr hw ha hd]
    exact hstep

/-- Settles O45: a step goes along its words, and CREATE alone moves PHASE otherwise. -/
theorem phaseIsContinuous : Obligations.PhaseIsContinuous := by
  intro s t h hr hstep
  rcases step_phaseStep h hr hstep with ⟨vs, es, hvs, hout, hes, hphase⟩ | ⟨hidle, hcreated, hout⟩
  · exact ⟨vs, hvs, by rw [hout, List.drop_left, hes], fun _ => hphase⟩
  · exact ⟨[], List.nil_prefix, by rw [hout, List.drop_left]; rfl, fun hn => absurd ⟨hidle, hcreated⟩ hn⟩

end Sys2Proof.Machine
end

section
/-! PROOFS. No step faults (spec/40_oscillator.md R79, spec/60_exceptions.md R137): the one fault needs SRATE 0 as a divisor, and only
commands of a session divide by it. -/

namespace Sys2Proof.Machine

open Sys2Proof

/-- A command gives a next state if its body does where the state allows it. -/
theorem whenAllowed_next {i : Instr} {s : State} {body : State → Result}
    (h : stateAllows i s = true → ∃ t, body s = .next t) : ∃ t, whenAllowed i s body = .next t := by
  rcases whenAllowed_cases i s body with ⟨_, e⟩ | ⟨_, _, _, e⟩ | ⟨_, _, ha, e⟩
  · exact ⟨_, e⟩
  · exact ⟨_, e⟩
  · rw [e]; exact h ha

theorem SinkRun.settle_next (r : SinkRun) (finish : State → State) : ∃ t, r.settle finish = .next t := by
  cases r <;> exact ⟨_, rfl⟩

theorem withRate_settle_next {s : State} {run : State → SinkRun} {finish : State → State → State} (h : s.srate ≠ 0) :
    ∃ t, withRate s (fun s => (run s).settle (finish s)) = .next t := by
  rw [withRate_pos _ h]
  exact SinkRun.settle_next _ _

/-- In an open row there is a sample rate (spec/10_state.md R24). -/
theorem SessionInv.srate_of_rowbusy {s : State} (h : SessionInv s) (hb : s.rowbusy = true) : s.srate ≠ 0 :=
  (h.session (by simp [(h.rowOpen hb).1])).2

/-- A created session has a sample rate (R24). -/
theorem SessionInv.srate_of_created {s : State} (h : SessionInv s) (hc : s.sstate = .created) : s.srate ≠ 0 :=
  (h.session (by simp [hc])).2

/-- Every command gives a next state: INIT and the tones, which divide by SRATE, are allowed only in a session. -/
theorem exec_next {s : State} (h : SessionInv s) (i : Instr) : ∃ t, exec i s = .next t := by
  cases i
  all_goals
    rw [exec]
    refine whenAllowed_next fun ha => ?_
  case init => exact withRate_settle_next (h.srate_of_created (by simpa [stateAllows] using ha))
  case tone1 f => exact withRate_settle_next (h.srate_of_rowbusy ha)
  case tone f d => exact withRate_settle_next (h.srate_of_rowbusy ha)
  case create a => split <;> exact ⟨_, rfl⟩
  case process => split <;> exact ⟨_, rfl⟩
  case rdreg a => split <;> exact ⟨_, rfl⟩
  all_goals exact ⟨_, rfl⟩

theorem SinkEnd.exists_next {u : State} {finish : State → State} {w : Wait} {r : Result} (h : SinkEnd u finish w r) :
    ∃ t, r = .next t := by
  cases h <;> exact ⟨_, rfl⟩

/-- A waiting command goes on to a next state: an INIT in progress belongs to a session. -/
theorem resumeCommand_next {s : State} (h : SessionInv s) : ∃ t, resumeCommand s = .next t := by
  rcases resumeCommand_cases s with ⟨_, e⟩ | ⟨hw, hr, _⟩ | ⟨_, _, hend | ⟨_, _, e⟩⟩ | ⟨_, hend⟩ | ⟨n, _, hend⟩
  · exact ⟨_, e⟩
  · exact absurd hr (h.srate_of_created (h.initWaits hw).1)
  · exact hend.exists_next
  · exact ⟨_, e⟩
  · exact hend.exists_next
  · exact hend.exists_next

/-- Settles O51: the moves that execute or resume a command do so from a state that meets the invariant. -/
theorem stepNeverStops : Obligations.StepNeverStops := by
  intro s h
  rcases step_cases (s := s) rfl with ⟨_, e⟩ | ⟨_, _, _, e⟩ | ⟨_, _, _, e⟩ | ⟨_, _, _, e⟩ | ⟨w, u, err, _, _, _, _, e⟩ |
    ⟨w, u, i, _, hw, ha, _, e⟩
  · exact ⟨_, e⟩
  · exact ⟨_, e⟩
  · rw [e]; exact resumeCommand_next h
  · exact ⟨_, e⟩
  · exact ⟨_, e⟩
  · rw [e]; exact exec_next (accept_sessionInv h hw ha).1 i

end Sys2Proof.Machine
end

section
/-! PROOFS. TONE1 and TONE with every sample answered (spec/40_oscillator.md R74 to R77), and what INIT and the tones leave alone. -/

namespace Sys2Proof.Machine

open Sys2Proof

/-- Settles O30: the sample is answered ACK, and the response follows. -/
theorem tone1WritesOneSample : Obligations.Tone1WritesOneSample := by
  intro f s rest hp hb hr ha
  rw [execTone1_in_row hp hb hr, sample_ack _ ha]
  simp [finishTone1, State.respond, State.emit]

/-- Settles O31: the segment plays to its end, and the count of its samples fits the response (`nsamp_lt`). -/
theorem toneWritesItsSamples : Obligations.ToneWritesItsSamples := by
  intro f d s rest hp hb hr ha
  have hplayed := samples_ack (nsamp d s.srate) (loadSegment f d s) rest ((loadSegment_sinkAnswers s f d).trans ha)
  have hcount : (BitVec.ofNat 32 (nsamp d s.srate)).setWidth 64 = BitVec.ofNat 64 (nsamp d s.srate) :=
    BitVec.setWidth_ofNat_of_le_of_lt (by omega) (nsamp_lt d s.srate)
  have hsegcnt : (if nsamp d s.srate = 0 then BitVec.ofNat 32 (nsamp d s.srate) else 0#32) = 0#32 := by
    split
    · simp [*]
    · rfl
  rw [execTone_in_row hp hb hr, toneSeg, hplayed]
  simp [runTone, finishTone, State.respond, State.emit, phaseAfter, hcount, hsegcnt]

/-! ## What INIT and the tones leave alone -/

/-- A command that talks to the sink finishes, is aborted or waits, from a state its run carries. -/
theorem SinkRun.Carries.settle_mark_cases {P : State → Prop} {r : SinkRun} (h : r.Carries P) {w : Wait} {finish : State → State}
    {t : State} (hr : (r.mark w).settle finish = .next t) : ∃ v, P v ∧ (t = finish v ∨ t = sinkAbort v ∨ t = v.setWait w) := by
  cases r with
  | done v => cases hr; exact ⟨v, h, .inl rfl⟩
  | failed v => cases hr; exact ⟨v, h, .inr (.inl rfl)⟩
  | waiting v => cases hr; exact ⟨v, h, .inr (.inr rfl)⟩

/-- SAMPLE writes PHASE and the trace (R74). -/
theorem sample_same (w : BitVec 32) (s : State) :
    (sample w s).Carries fun t => t = { s with phase := t.phase, sinkAnswers := t.sinkAnswers, out := t.out } := by
  match h : s.sinkAnswers with
  | [] => rw [sample_nil w h]; rfl
  | .ack :: rest => rw [sample_ack w h]; rfl
  | .fail :: rest => rw [sample_fail w h]; rfl

/-- The samples of a segment count SEGCNT down too (R75, spec/41_vis_header.md R96). -/
theorem samples_same (n : Nat) (s : State) : (samples n s).Carries fun t =>
    t = { s with phase := t.phase, segcnt := t.segcnt, sinkAnswers := t.sinkAnswers, out := t.out } := by
  rcases answers_cases n s.sinkAnswers with ⟨rest, h⟩ | ⟨k, rest, hk, h⟩ | ⟨k, hk, h⟩
  · rw [samples_ack n s rest h]; rfl
  · rw [samples_fail n k s rest hk h]; rfl
  · rw [samples_wait n k s hk h]; rfl

/-- Loading a segment writes TAIL, SEGCNT and SEGFTW before its samples. -/
theorem samples_setSegment_same (k : Nat) (x : BitVec 64) (n w : BitVec 32) (s : State) :
    (samples k (setSegment x n w s)).Carries fun t => t = { s with
      phase := t.phase, tail := t.tail, segcnt := t.segcnt, segftw := t.segftw, sinkAnswers := t.sinkAnswers, out := t.out } :=
  (samples_same _ _).imp fun t ht => by rw [ht]; rfl

/-- TONESEG (R75). -/
theorem toneSeg_same (f d : BitVec 32) (s : State) : (toneSeg f d s).Carries fun t => t = { s with
      phase := t.phase, tail := t.tail, segcnt := t.segcnt, segftw := t.segftw, sinkAnswers := t.sinkAnswers, out := t.out } :=
  samples_setSegment_same _ _ _ _ s

theorem execInit_frame {s t : State} (he : exec .init s = .next t) : t = { s with
    sstate := t.sstate, rowbusy := t.rowbusy, row := t.row, phase := t.phase, tail := t.tail, txcount := t.txcount
    total := t.total, hstep := t.hstep, par := t.par, segcnt := t.segcnt, segftw := t.segftw, wait := t.wait
    sinkAnswers := t.sinkAnswers, out := t.out } := by
  rcases execInit_cases s with e | e | ⟨_, _, _, e⟩ | ⟨_, _, _, hend | e⟩
  · cases e.symm.trans he; rfl
  · cases e.symm.trans he; rfl
  · cases e.symm.trans he
  · obtain ⟨v, hv, rfl | rfl | rfl⟩ := hend.next_cases he
    · rw [hv.same]; rfl
    · rw [sinkAbort_eq, hv.same]; rfl
    · rw [hv.same]; rfl
  · cases e.symm.trans he; rfl

theorem execTone1_frame {f : BitVec 32} {s t : State} (he : exec (.tone1 f) s = .next t) : t = { s with
    sstate := t.sstate, rowbusy := t.rowbusy, phase := t.phase, wait := t.wait, sinkAnswers := t.sinkAnswers, out := t.out } := by
  rcases execTone1_cases f s with e | e | ⟨_, _, _, e⟩ | ⟨hp, hb, hr, _⟩
  · cases e.symm.trans he; rfl
  · cases e.symm.trans he; rfl
  · cases e.symm.trans he
  · rw [execTone1_in_row hp hb hr] at he
    obtain ⟨v, hv, rfl | rfl | rfl⟩ := (sample_same _ s).settle_mark_cases he
    · rw [hv]; rfl
    · rw [sinkAbort_eq, hv]
    · rw [hv]; rfl

theorem execTone_frame {f d : BitVec 32} {s t : State} (he : exec (.tone f d) s = .next t) : t = { s with
    sstate := t.sstate, rowbusy := t.rowbusy, phase := t.phase, tail := t.tail, segcnt := t.segcnt, segftw := t.segftw
    wait := t.wait, sinkAnswers := t.sinkAnswers, out := t.out } := by
  rcases execTone_cases f d s with e | e | ⟨_, _, _, e⟩ | ⟨hp, hb, hr, _⟩
  · cases e.symm.trans he; rfl
  · cases e.symm.trans he; rfl
  · cases e.symm.trans he
  · rw [execTone_in_row hp hb hr] at he
    obtain ⟨v, hv, rfl | rfl | rfl⟩ := (toneSeg_same f d s).settle_mark_cases he
    · rw [hv]; rfl
    · rw [sinkAbort_eq, hv]
    · rw [hv]; rfl

/-- Settles O48: the frames of the three commands. -/
theorem sinkCommandFrames : Obligations.SinkCommandFrames :=
  fun _ _ => ⟨execInit_frame, fun _ => execTone1_frame, fun _ _ => execTone_frame⟩

end Sys2Proof.Machine
end

section
/-! PROOFS. The oscillator's arithmetic (spec/40_oscillator.md R70 to R72): NSAMP, RES and FTW are roundings of exact quotients. -/

namespace Sys2Proof.Machine

open Sys2Proof

/-! ## Rounding half up (spec/00_scope.md R7) -/

/-- `rhu` is within half a unit of the exact quotient, and below by less than a half. -/
theorem rhu_bounds (n : Nat) {d : Nat} (hd : 0 < d) : 2 * (rhu n d * d) ≤ 2 * n + d ∧ 2 * n < 2 * (rhu n d * d) + d := by
  have hle := Nat.div_mul_le_self (d + 2 * n) (2 * d)
  have hlt := Nat.lt_div_mul_add (a := d + 2 * n) (b := 2 * d) (by omega)
  have hmul : rhu n d * (2 * d) = 2 * (rhu n d * d) := Nat.mul_left_comm _ _ _
  rw [← rhu, hmul] at hle hlt
  omega

/-- Whole units pass through the rounding. -/
theorem rhu_add_mul (n k : Nat) {d : Nat} (hd : 0 < d) : rhu (n + d * k) d = rhu n d + k := by
  rw [rhu, show d + 2 * (n + d * k) = d + 2 * n + 2 * d * k by ring, Nat.add_mul_div_left _ _ (by omega), rhu]

theorem rhu_zero {d : Nat} (hd : 0 < d) : rhu 0 d = 0 :=
  Nat.div_eq_of_lt (by omega)

/-! ## NSAMP and RES -/

theorem nsamp_bounds (d : BitVec 32) (sr : BitVec 24) :
    2 * (nsamp d sr * 65536000) ≤ 2 * (d.toNat * sr.toNat) + 65536000 ∧
    2 * (d.toNat * sr.toNat) < 2 * (nsamp d sr * 65536000) + 65536000 :=
  rhu_bounds (d.toNat * sr.toNat) (d := 65536000) (by decide)

/-- The product has at most 56 bits (R70). -/
theorem dur_mul_srate_le (d : BitVec 32) (sr : BitVec 24) : d.toNat * sr.toNat ≤ (2 ^ 32 - 1) * (2 ^ 24 - 1) :=
  Nat.mul_le_mul (Nat.le_pred_of_lt d.isLt) (Nat.le_pred_of_lt sr.isLt)

/-- Settles O36: NSAMP is a rounding of a product of at most 56 bits. -/
theorem nsampRoundsHalfUp : Obligations.NsampRoundsHalfUp := by
  refine ⟨fun d sr => ?_, by decide, fun sr => ?_, by decide, by decide, by decide, by decide⟩
  · obtain ⟨hle, hlt⟩ := nsamp_bounds d sr
    have hprod := dur_mul_srate_le d sr
    refine ⟨?_, hle, hlt, by omega⟩
    rw [nsamp, rhu, tailDen, Nat.add_comm, Nat.mul_assoc]
  · rw [nsamp, BitVec.ofNat_eq_ofNat, BitVec.toNat_ofNat, Nat.zero_mod, Nat.zero_mul, rhu_zero (by decide)]

/-- Settles O37: the residual is what the rounding of NSAMP adds or leaves. -/
theorem residualRange : Obligations.ResidualRange := by
  refine ⟨fun d sr => ?_, by decide, by decide, by decide⟩
  obtain ⟨hle, hlt⟩ := nsamp_bounds d sr
  have hres : res d sr = (d.toNat : Int) * sr.toNat - (nsamp d sr : Int) * 65536000 := by
    rw [res, tailDen, Nat.cast_mul, Nat.cast_mul]
    rfl
  zify at hle hlt ⊢
  exact ⟨hres, by omega, by omega, by omega⟩

/-! ## FTW -/

theorem ftw_toNat (f : BitVec 32) (sr : BitVec 24) : (ftw f sr).toNat = rhu (f.toNat * 65536) sr.toNat % 2 ^ 32 :=
  BitVec.toNat_ofNat _ _

theorem srate_pos {sr : BitVec 24} (h : sr ≠ 0) : 0 < sr.toNat :=
  Nat.pos_of_ne_zero fun h0 => h (BitVec.eq_of_toNat_eq h0)

/-- A frequency one sample rate higher advances one whole turn more per sample, which does not show. -/
theorem ftw_alias {f g : BitVec 32} {sr : BitVec 24} (h : sr ≠ 0) (hg : g.toNat = f.toNat + sr.toNat * 65536) :
    ftw g sr = ftw f sr := by
  apply BitVec.eq_of_toNat_eq
  have hturn : (f.toNat + sr.toNat * 65536) * 65536 = f.toNat * 65536 + sr.toNat * 2 ^ 32 := by ring
  rw [ftw_toNat, ftw_toNat, hg, hturn, rhu_add_mul _ _ (srate_pos h), Nat.add_mod_right]

theorem ftw_zero {sr : BitVec 24} (h : sr ≠ 0) : ftw 0 sr = 0 := by
  apply BitVec.eq_of_toNat_eq
  rw [ftw_toNat, BitVec.ofNat_eq_ofNat, BitVec.toNat_ofNat, Nat.zero_mod, Nat.zero_mul, rhu_zero (srate_pos h)]
  rfl

/-- Settles O38: FTW is a rounding reduced modulo one turn. -/
theorem ftwIsModuloOneTurn : Obligations.FtwIsModuloOneTurn := by
  refine ⟨fun f sr h => ⟨rhu (f.toNat * 65536) sr.toNat, ?_, ftw_toNat f sr, ?_⟩, fun f g sr => ftw_alias, fun sr => ftw_zero,
    by decide, by decide, by decide, by decide⟩
  · rw [rhu, Nat.add_comm, Nat.mul_assoc 2]
  · obtain ⟨hle, hlt⟩ := rhu_bounds (f.toNat * 65536) (srate_pos h)
    exact ⟨hle, hlt.le⟩

end Sys2Proof.Machine
end

section
/-! PROOFS. SINQ's quarter wave (spec/40_oscillator.md R73): it rounds two real polynomials, one that rises and one that falls. -/

namespace Sys2Proof.Machine

open Sys2Proof

/-! ## The model's fractions as real polynomials -/

/-- `alternating` over the reals, with whole coefficients. -/
noncomputable def horner : List Int → ℝ → ℝ
  | [], _ => 0
  | k :: ks, z => k - z * horner ks z

/-- The angle of `q` phase units that the model computes with, in radians. -/
noncomputable def modelAngle (q : Nat) : ℝ := (piScaled * q : Int) / (angleDen : Int)

/-- The sine's Taylor polynomial up to degree 17. -/
noncomputable def sinePoly (x : ℝ) : ℝ := x * horner sineFactors (x ^ 2) / 355687428096000

/-- The cosine's Taylor polynomial up to degree 18. -/
noncomputable def cosinePoly (x : ℝ) : ℝ := horner cosineFactors (x ^ 2) / 6402373705728000

theorem angleDen_pos : (0 : ℝ) < angleDen := by
  rw [angleDen]
  positivity

theorem modelAngle_mul (q : Nat) : ((piScaled * q : Int) : ℝ) = modelAngle q * angleDen :=
  (div_mul_cancel₀ _ angleDen_pos.ne').symm

/-- Homogeneous coefficients evaluated at `r * angleDen` are the plain ones evaluated at `r`, scaled. -/
theorem alternating_homogeneous (ks : List Int) {x : Int} {r : ℝ} (hx : x = r * angleDen) :
    (alternating (homogeneous ks) (x * x) : ℝ) * angleDen ^ 2 = angleDen ^ (2 * ks.length) * horner ks (r ^ 2) := by
  induction ks with
  | nil => simp [homogeneous, alternating, horner]
  | cons k ks ih =>
    simp only [homogeneous, alternating, horner, Int.cast_sub, Int.cast_mul, Int.cast_pow, List.length_cons] at *
    rw [hx] at *
    linear_combination -(r * angleDen) ^ 2 * ih

/-- The scale of `n + 1` coefficients. -/
theorem alternating_modelAngle {ks : List Int} {n : Nat} (hn : ks.length = n + 1) (q : Nat) :
    (alternating (homogeneous ks) (piScaled * q * (piScaled * q)) : ℝ) = angleDen ^ (2 * n) * horner ks (modelAngle q ^ 2) := by
  have h := alternating_homogeneous ks (modelAngle_mul q)
  refine mul_right_cancel₀ (pow_ne_zero 2 angleDen_pos.ne') (h.trans ?_)
  rw [hn]
  ring

theorem sineFrac_eq (q : Nat) : ((sineFrac q).1 : ℝ) / (sineFrac q).2 = sinePoly (modelAngle q) := by
  have hden := angleDen_pos.ne'
  rw [sineFrac, sinePoly, Int.cast_mul, modelAngle_mul, alternating_modelAngle (n := 8) rfl]
  push_cast
  field_simp

theorem cosineFrac_eq (q : Nat) : ((cosineFrac q).1 : ℝ) / (cosineFrac q).2 = cosinePoly (modelAngle q) := by
  have hden := angleDen_pos.ne'
  rw [cosineFrac, cosinePoly, alternating_modelAngle (n := 9) rfl]
  push_cast
  field_simp

/-- `scaleRound` is the rounding of R73: the floor of the scaled value plus one half. -/
theorem scaleRound_eq_floor {f : Int × Int} (h : 0 < f.2) : scaleRound f = ⌊32767 * ((f.1 : ℝ) / f.2) + 1 / 2⌋ := by
  have hpos : (0 : ℝ) < f.2 := Int.cast_pos.mpr h
  have hquot : 32767 * ((f.1 : ℝ) / f.2) + 1 / 2 = ((2 * amp * f.1 + f.2 : Int) : ℝ) / (2 * f.2 : Int) := by
    rw [amp]
    push_cast
    field_simp
    ring
  rw [hquot, Int.floor_div_cast_of_nonneg (by omega), Int.floor_intCast, scaleRound]

theorem sineFrac_den_pos (q : Nat) : 0 < (sineFrac q).2 :=
  Int.mul_pos (by decide) (pow_pos (by decide) 17)

theorem cosineFrac_den_pos (q : Nat) : 0 < (cosineFrac q).2 :=
  Int.mul_pos (by decide) (pow_pos (by decide) 18)

theorem quarterSine_low {q : Nat} (h : q ≤ 2 ^ 29) : quarterSine q = ⌊32767 * sinePoly (modelAngle q) + 1 / 2⌋ := by
  rw [quarterSine, if_pos h, scaleRound_eq_floor (sineFrac_den_pos q), sineFrac_eq]

theorem quarterSine_high {q : Nat} (h : 2 ^ 29 < q) :
    quarterSine q = ⌊32767 * cosinePoly (modelAngle (2 ^ 30 - q)) + 1 / 2⌋ := by
  rw [quarterSine, if_neg (not_le.mpr h), scaleRound_eq_floor (cosineFrac_den_pos _), cosineFrac_eq]

/-! ## The polynomials rise and fall -/

theorem modelAngle_mono {p q : Nat} (h : p ≤ q) : modelAngle p ≤ modelAngle q := by
  have hpi : (0 : Int) ≤ piScaled := by decide
  refine div_le_div_of_nonneg_right (Int.cast_le.mpr ?_) angleDen_pos.le
  exact Int.mul_le_mul_of_nonneg_left (Int.ofNat_le.mpr h) hpi

theorem modelAngle_nonneg (q : Nat) : 0 ≤ modelAngle q := by
  simpa [modelAngle] using modelAngle_mono q.zero_le

/-- Half a quarter turn is less than one radian. -/
theorem modelAngle_le_one {q : Nat} (h : q ≤ 2 ^ 29) : modelAngle q ≤ 1 := by
  refine (modelAngle_mono h).trans ?_
  rw [modelAngle, piScaled, angleDen]
  norm_num

/-- Each coefficient is at least twice the next. -/
def Halving : List Int → Prop
  | [] => True
  | k :: ks => 2 * ks.headD 0 ≤ k ∧ Halving ks

section bounds
variable {k : Int} {ks : List Int} {z w : ℝ}

theorem horner_cons (k : Int) (ks : List Int) (z : ℝ) : horner (k :: ks) z = k - z * horner ks z := rfl

/-- Such a polynomial stays between its first coefficient and the difference of the first two. -/
theorem horner_range (h : Halving (k :: ks)) (hz : 0 ≤ z) (hz1 : z ≤ 1) :
    k - ks.headD 0 ≤ horner (k :: ks) z ∧ horner (k :: ks) z ≤ k := by
  induction ks generalizing k with
  | nil => simp [horner]
  | cons l ks ih =>
    obtain ⟨hlow, hhigh⟩ := ih h.2
    have hhalf : (2 * (ks.headD 0 : Int) : ℝ) ≤ l := by exact_mod_cast h.2.1
    have hnonneg : 0 ≤ horner (l :: ks) z := by linarith
    rw [horner_cons k, List.headD_cons]
    exact ⟨by nlinarith, by nlinarith⟩

/-- It falls, and by at most the second coefficient times the distance. -/
theorem horner_fall (h : Halving (k :: ks)) (hz : 0 ≤ z) (hzw : z ≤ w) (hw : w ≤ 1) :
    0 ≤ horner (k :: ks) z - horner (k :: ks) w ∧ horner (k :: ks) z - horner (k :: ks) w ≤ (w - z) * ks.headD 0 := by
  induction ks generalizing k with
  | nil => simp [horner]
  | cons l ks ih =>
    obtain ⟨hfall, hslope⟩ := ih h.2
    obtain ⟨hlow, hhigh⟩ := horner_range h.2 (hz.trans hzw) hw
    have hhalf : (2 * (ks.headD 0 : Int) : ℝ) ≤ l := by exact_mod_cast h.2.1
    have hstep : 0 ≤ w - z := sub_nonneg.mpr hzw
    have hsplit : horner (k :: l :: ks) z - horner (k :: l :: ks) w =
        (w - z) * horner (l :: ks) w - z * (horner (l :: ks) z - horner (l :: ks) w) := by
      rw [horner_cons k, horner_cons k]
      ring
    rw [hsplit, List.headD_cons]
    constructor
    · have hsecond : 0 ≤ (w - z) * (ks.headD 0 : Int) := hfall.trans hslope
      have hlast : z * (horner (l :: ks) z - horner (l :: ks) w) ≤ 1 * ((w - z) * (ks.headD 0 : Int)) :=
        mul_le_mul (hzw.trans hw) hslope hfall zero_le_one
      have hfirst : (w - z) * (ks.headD 0 : Int) ≤ (w - z) * horner (l :: ks) w :=
        mul_le_mul_of_nonneg_left (by linarith) hstep
      linarith
    · have hfirst : (w - z) * horner (l :: ks) w ≤ (w - z) * l := mul_le_mul_of_nonneg_left hhigh hstep
      have hlast : 0 ≤ z * (horner (l :: ks) z - horner (l :: ks) w) := mul_nonneg hz hfall
      linarith

end bounds

/-- The fall of the second factor is less than the rise of the first: its second coefficient is a sixth of its first. -/
theorem sinePoly_mono {x y : ℝ} (hx : 0 ≤ x) (hxy : x ≤ y) (hy : y ≤ 1) : sinePoly x ≤ sinePoly y := by
  have hhalving : Halving sineFactors := by norm_num [sineFactors, Halving]
  have hsq : x ^ 2 ≤ y ^ 2 := pow_le_pow_left₀ hx hxy 2
  have hsq1 : y ^ 2 ≤ 1 := pow_le_one₀ (hx.trans hxy) hy
  obtain ⟨_, hslope⟩ := horner_fall hhalving (sq_nonneg x) hsq hsq1
  obtain ⟨hlow, _⟩ := horner_range hhalving (sq_nonneg y) hsq1
  rw [List.headD_cons] at hslope hlow
  push_cast at hslope hlow
  change _ ≤ horner sineFactors (y ^ 2) at hlow
  have hstep : 0 ≤ y - x := sub_nonneg.mpr hxy
  have hdrop : x * (horner sineFactors (x ^ 2) - horner sineFactors (y ^ 2)) ≤ x * ((y ^ 2 - x ^ 2) * 59281238016000) :=
    mul_le_mul_of_nonneg_left hslope hx
  have hgain : (y - x) * 296406190080000 ≤ (y - x) * horner sineFactors (y ^ 2) :=
    mul_le_mul_of_nonneg_left (by linarith) hstep
  have hwidth : x * (y ^ 2 - x ^ 2) ≤ (y - x) * 2 := by nlinarith
  refine div_le_div_of_nonneg_right ?_ (by norm_num)
  linarith

theorem cosinePoly_anti {x y : ℝ} (hx : 0 ≤ x) (hxy : x ≤ y) (hy : y ≤ 1) : cosinePoly y ≤ cosinePoly x := by
  have hhalving : Halving cosineFactors := by norm_num [cosineFactors, Halving]
  have hfall := (horner_fall hhalving (sq_nonneg x) (pow_le_pow_left₀ hx hxy 2) (pow_le_one₀ (hx.trans hxy) hy)).1
  exact div_le_div_of_nonneg_right (sub_nonneg.mp hfall) (by norm_num)

end Sys2Proof.Machine
end

section
/-! PROOFS. SINQ's symmetries, its rise on the first quarter and its bounds (spec/40_oscillator.md R73 properties 1 to 6). -/

namespace Sys2Proof.Machine

open Sys2Proof

/-! ## The fold (properties 3, 4 and 5) -/

theorem quarterSine_zero : quarterSine 0 = 0 := by decide

section quarters
variable {p : Nat}

theorem sinqInt_first (h : p ≤ 2 ^ 30) : sinqInt p = quarterSine p := if_pos h

/-- Neighbouring quarters agree where they meet, so each equation holds at both of its ends. -/
theorem sinqInt_second (h : 2 ^ 30 ≤ p) (h' : p ≤ 2 ^ 31) : sinqInt p = quarterSine (2 ^ 31 - p) := by
  rcases h.eq_or_lt with rfl | hlt
  · rfl
  · rw [sinqInt, if_neg (by omega), if_pos h']

theorem sinqInt_third (h : 2 ^ 31 ≤ p) (h' : p ≤ 3 * 2 ^ 30) : sinqInt p = -quarterSine (p - 2 ^ 31) := by
  rcases h.eq_or_lt with rfl | hlt
  · rw [sinqInt_second (by decide) le_rfl, Nat.sub_self, quarterSine_zero, Int.neg_zero]
  · rw [sinqInt, if_neg (by omega), if_neg (by omega), if_pos h']

theorem sinqInt_fourth (h : 3 * 2 ^ 30 ≤ p) : sinqInt p = -quarterSine (2 ^ 32 - p) := by
  rcases h.eq_or_lt with rfl | hlt
  · rw [sinqInt_third (by decide) le_rfl, show 3 * 2 ^ 30 - 2 ^ 31 = 2 ^ 32 - 3 * 2 ^ 30 by omega]
  · rw [sinqInt, if_neg (by omega), if_neg (by omega), if_neg (by omega)]

/-- SINQ is mirrored about the quarter turn. -/
theorem sinqInt_mirror (h : p ≤ 2 ^ 31) : sinqInt (2 ^ 31 - p) = sinqInt p := by
  rcases le_total p (2 ^ 30) with hp | hp
  · rw [sinqInt_first hp, sinqInt_second (by omega) (by omega), Nat.sub_sub_self h]
  · rw [sinqInt_second hp h, sinqInt_first (by omega)]

/-- SINQ is odd: the phases of the first half, and so those of the second. -/
theorem sinqInt_opposite_of_first_half (h : p ≤ 2 ^ 31) : sinqInt (2 ^ 32 - p) = -sinqInt p := by
  rcases le_total p (2 ^ 30) with hp | hp
  · rw [sinqInt_first hp, sinqInt_fourth (by omega), Nat.sub_sub_self (by omega)]
  · rw [sinqInt_second hp h, sinqInt_third (by omega) (by omega), show 2 ^ 32 - p - 2 ^ 31 = 2 ^ 31 - p by omega]

theorem sinqInt_opposite (h : p ≤ 2 ^ 32) : sinqInt (2 ^ 32 - p) = -sinqInt p := by
  rcases le_total p (2 ^ 31) with hp | hp
  · exact sinqInt_opposite_of_first_half hp
  · rw [← Int.neg_neg (sinqInt (2 ^ 32 - p)), ← sinqInt_opposite_of_first_half (by omega), Nat.sub_sub_self h]

/-- SINQ changes its sign over half a turn. -/
theorem sinqInt_half_turn (h : p ≤ 2 ^ 31) : sinqInt (p + 2 ^ 31) = -sinqInt p := by
  rw [← sinqInt_mirror h, ← sinqInt_opposite (by omega)]
  congr 1
  omega

end quarters

theorem sinq_of_toNat {p : BitVec 32} {n : Nat} (h : p.toNat = n) : sinq p = BitVec.ofInt 16 (sinqInt n) := by
  rw [sinq, h]

theorem neg_sinq (p : BitVec 32) : -sinq p = BitVec.ofInt 16 (-sinqInt p.toNat) :=
  BitVec.ofInt_neg.symm

theorem sinq_neg (p : BitVec 32) : sinq (-p) = -sinq p := by
  by_cases h : p.toNat = 0
  · rw [BitVec.eq_of_toNat_eq (y := 0#32) h]
    rfl
  · have hlt := p.isLt
    rw [neg_sinq, ← sinqInt_opposite hlt.le]
    exact sinq_of_toNat (by rw [BitVec.toNat_neg]; omega)

theorem sinq_add_half_turn (p : BitVec 32) : sinq (p + 0x80000000) = -sinq p := by
  have hlt := p.isLt
  rw [neg_sinq]
  by_cases h : p.toNat ≤ 2 ^ 31 - 1
  · rw [← sinqInt_half_turn (by omega)]
    exact sinq_of_toNat (by rw [BitVec.toNat_add, show (0x80000000 : BitVec 32).toNat = 2 ^ 31 from rfl]; omega)
  · have hback : sinqInt p.toNat = -sinqInt (p.toNat - 2 ^ 31) := by
      rw [← sinqInt_half_turn (by omega), Nat.sub_add_cancel (by omega)]
    rw [hback, Int.neg_neg]
    exact sinq_of_toNat (by rw [BitVec.toNat_add, show (0x80000000 : BitVec 32).toNat = 2 ^ 31 from rfl]; omega)

theorem sinq_mirror {p : BitVec 32} (h : p.toNat ≤ 2 ^ 31) : sinq (0x80000000 - p) = sinq p := by
  rw [sinq, sinq, ← sinqInt_mirror h, BitVec.toNat_sub_of_le h]
  rfl

/-- Settles O41: the fold has the three symmetries. -/
theorem sinqIsSymmetric : Obligations.SinqIsSymmetric := ⟨sinq_neg, sinq_add_half_turn, fun _ => sinq_mirror⟩

/-! ## The rise on the first quarter (property 6) -/

/-- Up to half a quarter the sine's polynomial rises. -/
theorem quarterSine_mono_low {p q : Nat} (hpq : p ≤ q) (hq : q ≤ 2 ^ 29) : quarterSine p ≤ quarterSine q := by
  have hrise := sinePoly_mono (modelAngle_nonneg p) (modelAngle_mono hpq) (modelAngle_le_one hq)
  rw [quarterSine_low hq, quarterSine_low (hpq.trans hq)]
  exact Int.floor_mono (by gcongr)

/-- Beyond, the cosine's polynomial rises as the complement falls. -/
theorem quarterSine_mono_high {p q : Nat} (hp : 2 ^ 29 < p) (hpq : p ≤ q) : quarterSine p ≤ quarterSine q := by
  have hrise := cosinePoly_anti (modelAngle_nonneg (2 ^ 30 - q)) (modelAngle_mono (Nat.sub_le_sub_left hpq (2 ^ 30)))
    (modelAngle_le_one (by omega))
  rw [quarterSine_high hp, quarterSine_high (hp.trans_le hpq)]
  exact Int.floor_mono (by gcongr)

/-- The two parts meet with the same value. -/
theorem quarterSine_mono {p q : Nat} (hpq : p ≤ q) : quarterSine p ≤ quarterSine q := by
  by_cases hq : q ≤ 2 ^ 29
  · exact quarterSine_mono_low hpq hq
  · by_cases hp : p ≤ 2 ^ 29
    · calc quarterSine p ≤ quarterSine (2 ^ 29) := quarterSine_mono_low hp le_rfl
        _ ≤ quarterSine (2 ^ 29 + 1) := by decide
        _ ≤ quarterSine q := quarterSine_mono_high (by omega) (by omega)
    · exact quarterSine_mono_high (by omega) hpq

/-! ## The bounds (property 1) -/

theorem quarterSine_range {q : Nat} (h : q ≤ 2 ^ 30) : 0 ≤ quarterSine q ∧ quarterSine q ≤ 32767 :=
  ⟨quarterSine_zero ▸ quarterSine_mono q.zero_le, (quarterSine_mono h).trans (by decide)⟩

/-- A statement about every phase holds if it holds on the first quarter and passes through the fold. -/
theorem sinqInt_of_fold {P : Nat → Int → Prop} (hquarter : ∀ q, q ≤ 2 ^ 30 → P q (quarterSine q))
    (hmirror : ∀ p x, p ≤ 2 ^ 31 → P p x → P (2 ^ 31 - p) x) (hodd : ∀ p x, p ≤ 2 ^ 32 → P p x → P (2 ^ 32 - p) (-x))
    {p : Nat} (hp : p ≤ 2 ^ 32) : P p (sinqInt p) := by
  have hhalf : ∀ q, q ≤ 2 ^ 31 → P q (sinqInt q) := by
    intro q hq
    rcases le_total q (2 ^ 30) with hq' | hq'
    · rw [sinqInt_first hq']
      exact hquarter q hq'
    · have h := hmirror (2 ^ 31 - q) _ (by omega) (hquarter (2 ^ 31 - q) (by omega))
      rwa [← sinqInt_second hq' hq, Nat.sub_sub_self hq] at h
  rcases le_total p (2 ^ 31) with hp' | hp'
  · exact hhalf p hp'
  · have h := hodd (2 ^ 32 - p) _ (by omega) (hhalf (2 ^ 32 - p) (by omega))
    rwa [← sinqInt_opposite (by omega), Nat.sub_sub_self hp] at h

theorem sinqInt_range {p : Nat} (h : p ≤ 2 ^ 32) : -32767 ≤ sinqInt p ∧ sinqInt p ≤ 32767 := by
  refine sinqInt_of_fold (P := fun _ x => -32767 ≤ x ∧ x ≤ 32767) (fun q hq => ?_) (fun _ _ _ hx => hx) (fun _ x _ hx => ?_) h
  · obtain ⟨hlow, hhigh⟩ := quarterSine_range hq
    omega
  · omega

/-- The sample as a number (spec/30_encoding.md R52): 16 bits hold it. -/
theorem sinq_toInt (p : BitVec 32) : (sinq p).toInt = sinqInt p.toNat := by
  obtain ⟨hlow, hhigh⟩ := sinqInt_range p.isLt.le
  exact BitVec.toInt_ofInt_eq_self (by decide) (by omega) (by omega)

/-- Settles O42: the first quarter rises from 0 to 32767, and the fold keeps the bounds. -/
theorem sinqIsBounded : Obligations.SinqIsBounded :=
  ⟨fun p => by rw [sinq_toInt]; exact sinqInt_range p.isLt.le, by decide⟩

/-- Settles O43: on the first quarter SINQ is the quarter wave. -/
theorem sinqRisesOnTheFirstQuarter : Obligations.SinqRisesOnTheFirstQuarter := by
  intro p q hpq hq
  rw [sinq_toInt, sinq_toInt, sinqInt_first (hpq.trans hq), sinqInt_first hq]
  exact quarterSine_mono hpq

end Sys2Proof.Machine
end

section
/-! PROOFS. SINQ follows the real sine (spec/40_oscillator.md R73 property 7): the Taylor polynomials lie within 10^-15 of the sine and
the cosine, the model's angles within 10^-15 of the real ones, and the rounding within one half. -/

namespace Sys2Proof.Machine

open Sys2Proof

/-! ## Taylor polynomials -/

/-- The real part of the first `2 n` terms of `exp (x i)`: the cosine's Taylor polynomial. -/
noncomputable def cosineSum (n : Nat) (x : ℝ) : ℝ := ∑ j ∈ Finset.range n, (-1) ^ j * x ^ (2 * j) / (2 * j).factorial

/-- The imaginary part: the sine's Taylor polynomial. -/
noncomputable def sineSum (n : Nat) (x : ℝ) : ℝ := ∑ j ∈ Finset.range n, (-1) ^ j * x ^ (2 * j + 1) / (2 * j + 1).factorial

theorem exp_sum_eq (n : Nat) (x : ℝ) :
    ∑ m ∈ Finset.range (2 * n), (x * Complex.I) ^ m / (m.factorial : ℂ) = cosineSum n x + sineSum n x * Complex.I := by
  induction n with
  | zero => simp [cosineSum, sineSum]
  | succ n ih =>
    have hpow : (x * Complex.I) ^ (2 * n) = ((-1) ^ n * x ^ (2 * n) : ℂ) := by
      rw [mul_pow, pow_mul Complex.I, Complex.I_sq, mul_comm]
    rw [show 2 * (n + 1) = 2 * n + 1 + 1 by ring, Finset.sum_range_succ, Finset.sum_range_succ, ih, pow_succ, hpow, cosineSum, sineSum,
      cosineSum, sineSum, Finset.sum_range_succ, Finset.sum_range_succ]
    push_cast
    ring

/-- The first `2 n` terms of the exponential, up to one radian. -/
theorem exp_sum_error (n : Nat) (hn : 0 < n) {x : ℝ} (hx : |x| ≤ 1) :
    ‖Complex.exp (x * Complex.I) - (cosineSum n x + sineSum n x * Complex.I)‖ ≤
      (2 * n).succ * (((2 * n).factorial : ℝ) * (2 * n : Nat))⁻¹ := by
  have hnorm : ‖(x * Complex.I : ℂ)‖ = |x| := by simp
  rw [← exp_sum_eq]
  refine (Complex.exp_bound (hnorm ▸ hx) (by omega)).trans ?_
  rw [hnorm]
  exact mul_le_of_le_one_left (by positivity) (pow_le_one₀ (abs_nonneg x) hx)

theorem sineSum_error {n : Nat} (hn : 0 < n) {x : ℝ} (hx : |x| ≤ 1) :
    |Real.sin x - sineSum n x| ≤ (2 * n).succ * (((2 * n).factorial : ℝ) * (2 * n : Nat))⁻¹ := by
  refine le_trans ?_ (exp_sum_error n hn hx)
  refine le_of_eq_of_le ?_ (Complex.abs_im_le_norm _)
  simp [Complex.exp_mul_I, ← Complex.ofReal_cos, ← Complex.ofReal_sin]

theorem cosineSum_error {n : Nat} (hn : 0 < n) {x : ℝ} (hx : |x| ≤ 1) :
    |Real.cos x - cosineSum n x| ≤ (2 * n).succ * (((2 * n).factorial : ℝ) * (2 * n : Nat))⁻¹ := by
  refine le_trans ?_ (exp_sum_error n hn hx)
  refine le_of_eq_of_le ?_ (Complex.abs_re_le_norm _)
  simp [Complex.exp_mul_I, ← Complex.ofReal_cos, ← Complex.ofReal_sin]

theorem sinePoly_eq_sum (x : ℝ) : sinePoly x = sineSum 9 x := by
  simp only [sinePoly, sineFactors, horner, sineSum, Finset.sum_range_succ, Finset.sum_range_zero, Nat.factorial]
  push_cast
  ring

theorem cosinePoly_eq_sum (x : ℝ) : cosinePoly x = cosineSum 10 x := by
  simp only [cosinePoly, cosineFactors, horner, cosineSum, Finset.sum_range_succ, Finset.sum_range_zero, Nat.factorial]
  push_cast
  ring

theorem sinePoly_error {x : ℝ} (hx : |x| ≤ 1) : |Real.sin x - sinePoly x| ≤ 1 / 10 ^ 15 := by
  rw [sinePoly_eq_sum]
  exact (sineSum_error (by decide) hx).trans (by norm_num [Nat.factorial])

theorem cosinePoly_error {x : ℝ} (hx : |x| ≤ 1) : |Real.cos x - cosinePoly x| ≤ 1 / 10 ^ 15 := by
  rw [cosinePoly_eq_sum]
  exact (cosineSum_error (by decide) hx).trans (by norm_num [Nat.factorial])

/-! ## The model's angles -/

/-- The angle of a phase, in radians. -/
noncomputable def turn (p : Nat) : ℝ := 2 * Real.pi * p / 2 ^ 32

theorem modelAngle_error {q : Nat} (h : q ≤ 2 ^ 29) : |turn q - modelAngle q| ≤ 1 / 10 ^ 15 := by
  have hlow := Real.pi_gt_d20
  have hhigh := Real.pi_lt_d20
  have hq : (q : ℝ) / 2 ^ 31 ≤ 1 := by
    rw [div_le_one (by positivity)]
    exact_mod_cast h.trans (by decide : 2 ^ 29 ≤ 2 ^ 31)
  have hpi : |Real.pi - piScaled / 2 ^ 64| ≤ 1 / 10 ^ 15 := by
    rw [abs_le, piScaled]
    constructor
    all_goals norm_num
    all_goals linarith
  have heq : turn q - modelAngle q = (q : ℝ) / 2 ^ 31 * (Real.pi - piScaled / 2 ^ 64) := by
    rw [turn, modelAngle, angleDen]
    push_cast
    ring
  rw [heq, abs_mul, abs_of_nonneg (by positivity)]
  exact (mul_le_of_le_one_left (abs_nonneg _) hq).trans hpi

/-! ## The quarter wave -/

theorem abs_modelAngle_le_one {q : Nat} (h : q ≤ 2 ^ 29) : |modelAngle q| ≤ 1 := by
  rw [abs_of_nonneg (modelAngle_nonneg q)]
  exact modelAngle_le_one h

theorem sinePoly_follows {q : Nat} (h : q ≤ 2 ^ 29) : |sinePoly (modelAngle q) - Real.sin (turn q)| ≤ 2 / 10 ^ 15 := by
  have hpoly := sinePoly_error (abs_modelAngle_le_one h)
  have hangle := (Real.abs_sin_sub_sin_le (turn q) (modelAngle q)).trans (modelAngle_error h)
  rw [abs_sub_comm]
  calc _ ≤ _ := abs_sub_le _ (Real.sin (modelAngle q)) _
    _ ≤ _ := by linarith

theorem cosinePoly_follows {q : Nat} (h : q ≤ 2 ^ 29) : |cosinePoly (modelAngle q) - Real.cos (turn q)| ≤ 2 / 10 ^ 15 := by
  have hpoly := cosinePoly_error (abs_modelAngle_le_one h)
  have hangle := (Real.abs_cos_sub_cos_le (turn q) (modelAngle q)).trans (modelAngle_error h)
  rw [abs_sub_comm]
  calc _ ≤ _ := abs_sub_le _ (Real.cos (modelAngle q)) _
    _ ≤ _ := by linarith

/-- Rounding a value close to `y`. -/
theorem floor_follows {x y : ℝ} (h : |x - y| ≤ 2 / 10 ^ 15) :
    |((⌊32767 * x + 1 / 2⌋ : Int) : ℝ) - 32767 * y| ≤ 1 / 2 + 1 / 10 ^ 10 := by
  have hle := Int.floor_le (32767 * x + 1 / 2)
  have hlt := Int.lt_floor_add_one (32767 * x + 1 / 2)
  rw [abs_le] at h ⊢
  constructor
  all_goals linarith

/-- The sine of a phase beyond half a quarter is the cosine of its complement. -/
theorem cos_turn_complement {q : Nat} (h : q ≤ 2 ^ 30) : Real.cos (turn (2 ^ 30 - q)) = Real.sin (turn q) := by
  rw [← Real.cos_pi_div_two_sub]
  congr 1
  rw [turn, turn, Nat.cast_sub h]
  push_cast
  ring

theorem quarterSine_follows {q : Nat} (h : q ≤ 2 ^ 30) :
    |(quarterSine q : ℝ) - 32767 * Real.sin (turn q)| ≤ 1 / 2 + 1 / 10 ^ 10 := by
  by_cases hq : q ≤ 2 ^ 29
  · rw [quarterSine_low hq]
    exact floor_follows (sinePoly_follows hq)
  · rw [quarterSine_high (by omega), ← cos_turn_complement h]
    exact floor_follows (cosinePoly_follows (by omega))

/-! ## The fold of the real sine -/

theorem sin_turn_mirror {p : Nat} (h : p ≤ 2 ^ 31) : Real.sin (turn (2 ^ 31 - p)) = Real.sin (turn p) := by
  rw [← Real.sin_pi_sub]
  congr 1
  rw [turn, turn, Nat.cast_sub h]
  push_cast
  ring

theorem sin_turn_opposite {p : Nat} (h : p ≤ 2 ^ 32) : Real.sin (turn (2 ^ 32 - p)) = -Real.sin (turn p) := by
  rw [← Real.sin_two_pi_sub]
  congr 1
  rw [turn, turn, Nat.cast_sub h]
  push_cast
  ring

theorem sinqInt_follows {p : Nat} (h : p ≤ 2 ^ 32) : |(sinqInt p : ℝ) - 32767 * Real.sin (turn p)| ≤ 1 / 2 + 1 / 10 ^ 10 := by
  refine sinqInt_of_fold (P := fun p x => |(x : ℝ) - 32767 * Real.sin (turn p)| ≤ 1 / 2 + 1 / 10 ^ 10)
    (fun _ => quarterSine_follows) (fun p x hp hx => ?_) (fun p x hp hx => ?_) h
  · rwa [sin_turn_mirror hp]
  · rw [sin_turn_opposite hp, ← abs_neg]
    convert hx using 2
    push_cast
    ring

/-- Settles O44: the quarter wave rounds polynomials close to the sine, and the fold is the sine's own. -/
theorem sinqFollowsTheSine : Obligations.SinqFollowsTheSine := by
  intro p
  rw [sinq_toInt]
  exact sinqInt_follows p.isLt.le

end Sys2Proof.Machine
end

section
/-! PROOFS. The VIS header (spec/41_vis_header.md R91, R92 and R94): the parity of a code and the number of samples of the header. -/

namespace Sys2Proof.Machine

open Sys2Proof

/-! ## HDRCNT (R94) -/

/-- A greater quotient does not round to less. -/
theorem rhu_mono {m n : Nat} (h : m ≤ n) (d : Nat) : rhu m d ≤ rhu n d :=
  Nat.div_le_div_right (Nat.add_le_add_left (Nat.mul_le_mul_left 2 h) d)

/-- A higher sample rate does not take fewer samples for the same time. -/
theorem nsamp_mono (d : BitVec 32) {sr sr' : BitVec 24} (h : sr ≤ sr') : nsamp d sr ≤ nsamp d sr' :=
  rhu_mono (Nat.mul_le_mul_left d.toNat h) tailDen

theorem hdrcnt_mono {sr sr' : BitVec 24} (h : sr ≤ sr') : hdrcnt sr ≤ hdrcnt sr' := by
  have h300 := nsamp_mono ms300 h
  have h10 := nsamp_mono ms10 h
  have h30 := nsamp_mono ms30 h
  rw [hdrcnt, hdrcnt]
  omega

/-- The count at the highest sample rate. -/
theorem hdrcnt_max : hdrcnt (BitVec.ofNat 24 16777215) = 15267262 := by decide

/-- A code selects tones only: the thirteen durations are the same for every code. -/
theorem sum_nsamp_headerSegments (v : BitVec 7) (sr : BitVec 24) :
    ((headerSegments v).map fun x => nsamp x.2 sr).sum = hdrcnt sr := by
  simp only [headerSegments, List.map_cons, List.map_nil, List.sum_cons, List.sum_nil, hdrcnt]
  omega

/-- Settles O40: HDRCNT rises with the sample rate, so its maximum is at the highest one. -/
theorem headerSampleCount : Obligations.HeaderSampleCount := by
  refine ⟨fun sr => ⟨rfl, ?_, fun v => sum_nsamp_headerSegments v sr⟩,
    by decide, by decide, by decide, by decide, by decide, by decide, hdrcnt_max⟩
  have hle : sr ≤ BitVec.ofNat 24 16777215 := Nat.le_pred_of_lt sr.isLt
  exact (hdrcnt_mono hle).trans_eq hdrcnt_max

/-! ## PARITY (R92) -/

/-- A running exclusive or changes exactly when it meets an odd number of ones. -/
theorem foldl_xor_eq_odd_count (f : Nat → Bool) (l : List Nat) (p : Bool) :
    l.foldl (fun p i => p ^^ f i) p = (p ^^ decide (l.countP f % 2 = 1)) := by
  induction l generalizing p with
  | nil => simp
  | cons i l ih =>
    rw [List.foldl_cons, ih, List.countP_cons]
    cases f i with
    | false => simp
    | true =>
      have hflip : (l.countP f + 1) % 2 = 1 ↔ ¬ l.countP f % 2 = 1 := by omega
      simp only [↓reduceIte, hflip, decide_not, Bool.xor_assoc, Bool.true_xor]

theorem parity_eq_odd_ones (v : BitVec 7) : parity v = decide (onesOf v % 2 = 1) := by
  rw [parity, foldl_xor_eq_odd_count, Bool.false_xor, onesOf]

theorem parity_eq_xor (v : BitVec 7) : parity v = (v.getLsbD 0 ^^ v.getLsbD 1 ^^ v.getLsbD 2 ^^ v.getLsbD 3 ^^
    v.getLsbD 4 ^^ v.getLsbD 5 ^^ v.getLsbD 6) := by
  simp [parity, List.range, List.range.loop]

/-- A code has at most seven ones. -/
theorem onesOf_le (v : BitVec 7) : onesOf v ≤ 7 := List.countP_le_length

/-- The parity bit completes the ones of the code to an even number. -/
theorem lowTones_even (v : BitVec 7) : lowTones v % 2 = 0 := by
  rw [lowTones, parity_eq_odd_ones]
  by_cases h : onesOf v % 2 = 1
  · rw [decide_eq_true h, Bool.toNat_true]
    omega
  · rw [decide_eq_false h, Bool.toNat_false]
    omega

theorem lowTones_le (v : BitVec 7) : lowTones v ≤ 8 :=
  Nat.add_le_add (onesOf_le v) (parity v).toNat_le

/-- Settles O39: the tones by R91's table, the parity by counting the ones. -/
theorem bitTonesAndParity : Obligations.BitTonesAndParity := by
  refine ⟨by decide, rfl, by decide, rfl, by decide, fun _ _ => ⟨rfl, fun _ => rfl⟩, rfl, fun _ => rfl, fun v => ?_, rfl⟩
  have hodd : parity v = true ↔ onesOf v % 2 = 1 := by rw [parity_eq_odd_ones, decide_eq_true_iff]
  exact ⟨parity_eq_xor v, hodd, lowTones_even v, lowTones_le v⟩

end Sys2Proof.Machine
end

section
/-! PROOFS. The session commands one by one (spec/42_line_fsm.md R100 to R109): the states that refuse them, what they do where they are
allowed, what they leave alone, and the names of the states. -/

namespace Sys2Proof.Machine

open Sys2Proof

/-! ## What they leave alone -/

theorem execCreate_frame {a : BitVec 32} {s t : State} (he : exec (.create a) s = .next t) : t = { s with
    sstate := t.sstate, srate := t.srate, vis := t.vis, height := t.height, row := t.row, phase := t.phase
    tail := t.tail, txcount := t.txcount, total := t.total, out := t.out } := by
  rcases execCreate_cases a s with e | e | ⟨_, _, e⟩ | ⟨_, _, _, e⟩
  all_goals cases e.symm.trans he; rfl

theorem execProcess_frame {s t : State} (he : exec .process s = .next t) :
    t = { s with rowbusy := t.rowbusy, scmd := t.scmd, out := t.out } := by
  rcases execProcess_cases s with e | e | ⟨_, _, _, e⟩ | ⟨_, _, _, e⟩
  all_goals cases e.symm.trans he; rfl

theorem execRowdone_frame {s t : State} (he : exec .rowdone s = .next t) :
    t = { s with row := t.row, rowbusy := t.rowbusy, out := t.out } := by
  rcases execRowdone_cases s with e | e | ⟨_, _, e⟩
  all_goals cases e.symm.trans he; rfl

theorem execFinish_frame {c : Bool} {s t : State} (he : exec (.finish c) s = .next t) :
    t = { s with sstate := t.sstate, out := t.out } := by
  rcases execFinish_cases c s with e | e | ⟨_, _, e⟩
  all_goals cases e.symm.trans he; rfl

/-- Settles O47: the frames of the four commands. -/
theorem sessionCommandFrames : Obligations.SessionCommandFrames :=
  fun _ _ => ⟨fun _ => execCreate_frame, execProcess_frame, execRowdone_frame, fun _ => execFinish_frame⟩

/-! ## The names of the states (R100) -/

/-- The row of R100's table that a sound state is in. -/
def stateName (s : State) : StateName :=
  match s.sstate with
  | .idle => .noSession
  | .created => .created
  | .active =>
    if s.row = s.height then .finished
    else if s.rowbusy = false ∧ s.row = 0 then .initialized
    else .encoding

theorem holds_stateName {s : State} (h : SessionInv s) : (stateName s).holds s := by
  unfold stateName
  cases hs : s.sstate with
  | idle => exact hs
  | created => exact hs
  | active =>
    have hle := (h.session (by simp [hs])).1
    by_cases hend : s.row = s.height
    · rw [if_pos hend]
      exact ⟨hs, hend⟩
    · have hlt : s.row < s.height := by bv_omega
      by_cases hinit : s.rowbusy = false ∧ s.row = 0
      · rw [if_neg hend, if_pos hinit]
        exact ⟨hs, hinit.2, hinit.1, hinit.2 ▸ hlt⟩
      · rw [if_neg hend, if_neg hinit]
        refine ⟨s.row, hs, rfl, hlt, ?_⟩
        by_contra hn
        obtain ⟨hb, hz⟩ := not_or.mp hn
        exact hinit ⟨by simpa using hb, by bv_omega⟩

/-- A name that holds is that row. -/
theorem StateName.holds.eq_stateName {n : StateName} {s : State} (h : n.holds s) : n = stateName s := by
  unfold stateName
  cases n with
  | noSession => rw [show s.sstate = .idle from h]
  | created => rw [show s.sstate = .created from h]
  | initialized =>
    obtain ⟨hs, hrow, hb, hh⟩ := h
    have hend : s.row ≠ s.height := by bv_omega
    simp only [hs, if_neg hend, if_pos (And.intro hb hrow)]
  | encoding =>
    obtain ⟨r, hs, rfl, hlt, hbusy⟩ := h
    have hend : s.row ≠ s.height := by bv_omega
    have hinit : ¬(s.rowbusy = false ∧ s.row = 0) := by
      rintro ⟨hb, hrow⟩
      rcases hbusy with hb' | hpos
      · simp [hb] at hb'
      · bv_omega
    simp only [hs, if_neg hend, if_neg hinit]
  | finished =>
    obtain ⟨hs, hend⟩ := h
    simp only [hs, if_pos hend]

/-- Settles O52: `stateName` is the one that holds. -/
theorem sessionStatesPartition : Obligations.SessionStatesPartition :=
  fun s h => ⟨stateName s, holds_stateName h, fun _ hn => StateName.holds.eq_stateName hn⟩

/-! ## The states that refuse a command (R101) -/

theorem whenAllowed_wrong_state {i : Instr} {s : State} (body : State → Result) (hp : s.port ∈ i.ports)
    (hb : badOperand i = false) (ha : stateAllows i s = false) :
    whenAllowed i s body = .next (s.respond s.port .illegalState 0) := by
  simp [whenAllowed, hp, hb, ha, raise]

/-- A command the state does not allow is answered ILLEGAL_STATE (R57 step 4, R134). -/
theorem exec_wrong_state {i : Instr} {s : State} (hp : s.port ∈ i.ports) (hb : badOperand i = false)
    (ha : stateAllows i s = false) : exec i s = .next (s.respond s.port .illegalState 0) := by
  cases i
  all_goals
    rw [exec]
    exact whenAllowed_wrong_state _ hp hb ha

/-- Settles O15: each IS cell is a state that does not allow the command. -/
theorem wrongStateIsIllegalState : Obligations.WrongStateIsIllegalState := by
  intro s
  refine ⟨fun hp => ?_, fun hp hb => ?_, fun hs a h1 h8 => ?_⟩
  · have hrefused : ∀ i : Instr, i.ports = [.hcmd] → badOperand i = false → stateAllows i s = false →
        exec i s = .next { s with out := s.out ++ [.hrsp .illegalState 0] } := fun i hi hbad ha => by
      simp [exec_wrong_state (by simp [hi, hp]) hbad ha, State.respond, State.emit, hp]
    exact ⟨fun hs a => hrefused _ rfl rfl (by simp [stateAllows, hs]),
      fun hs => hrefused _ rfl rfl (by simp [stateAllows, hs]),
      fun hs => ⟨hrefused _ rfl rfl (by simp [stateAllows, hs]), hrefused _ rfl rfl (by simp [stateAllows, hs])⟩,
      fun hs => ⟨hrefused _ rfl rfl (by simp [stateAllows, hs]), fun c => hrefused _ rfl rfl (by simp [stateAllows, hs])⟩⟩
  · have hrefused : ∀ i : Instr, i.ports = [.scmd] → badOperand i = false → stateAllows i s = s.rowbusy →
        exec i s = .next { s with out := s.out ++ [.srsp .illegalState 0] } := fun i hi hbad ha => by
      simp [exec_wrong_state (by simp [hi, hp]) hbad (ha.trans hb), State.respond, State.emit, hp]
    exact ⟨fun f => hrefused _ rfl rfl rfl, fun f d => hrefused _ rfl rfl rfl, hrefused _ rfl rfl rfl⟩
  · have hnonzero : a ≠ 0#32 := by bv_omega
    exact exec_wrong_state (rdreg_mem_ports a s.port) (by simp [badOperand, h8]) (by simp [stateAllows, hs, hnonzero])

/-! ## What they do where they are allowed -/

/-- A HCMD command that arrives on its port. -/
theorem mem_ports_hcmd {i : Instr} {s : State} (hp : s.port = .hcmd) (hi : i.ports = [.hcmd]) : s.port ∈ i.ports := by
  simp [hp, hi]

/-- Settles O16: neither half of the configuration is invalid, and a code of at most 127 fits VIS. -/
theorem createOpensSession : Obligations.CreateOpensSession := by
  intro a s hp hs ha hpin
  have hvalid : ¬(127 < a.toNat ∨ s.pinSinkSrate = 0) := by
    rintro (h | h)
    · omega
    · exact hpin h
  rw [exec, execCreate, whenAllowed_body _ (mem_ports_hcmd hp rfl) rfl (by simp [stateAllows, hs]), if_neg hvalid]
  rfl

/-- Settles O21: the row is below HEIGHT, so PROCESS opens it. -/
theorem processOpensRow : Obligations.ProcessOpensRow := by
  intro s hp hs hlt
  rw [exec, execProcess, whenAllowed_body _ (mem_ports_hcmd hp rfl) rfl (by simp [stateAllows, hs]),
    if_neg (BitVec.not_le.mpr hlt)]
  rfl

/-- Settles O22: the row is not below HEIGHT. -/
theorem processAtEndAnswersZero : Obligations.ProcessAtEndAnswersZero := by
  intro s hp hs hle
  rw [exec, execProcess, whenAllowed_body _ (mem_ports_hcmd hp rfl) rfl (by simp [stateAllows, hs]),
    if_pos (BitVec.le_def.mpr hle)]
  rfl

/-- Settles O23: the row is below HEIGHT, so counting it does not wrap. -/
theorem rowdoneClosesRow : Obligations.RowdoneClosesRow := by
  intro s hp hb hlt
  have hrow : (s.row + 1).toNat = s.row.toNat + 1 := by bv_omega
  have hport : s.port ∈ Instr.rowdone.ports := by simp [hp, Instr.ports, Instr.row]
  refine ⟨{ s with row := s.row + 1, rowbusy := false, out := s.out ++ [.srsp .ok 0, .hrsp .ok 1] }, ?_, rfl, hrow⟩
  rw [exec, execRowdone, whenAllowed_body _ hport rfl hb]
  simp [State.respond, State.emit]

/-- Settles O24: zero-extending HEIGHT keeps its number. -/
theorem getcountAnswersHeight : Obligations.GetcountAnswersHeight := by
  intro s hp hs
  rw [exec, execGetcount, whenAllowed_body _ (mem_ports_hcmd hp rfl) rfl (by simp [stateAllows, hs]), BitVec.ofNat_toNat]
  rfl

/-- Settles O25: zero-extending TOTAL keeps its number. -/
theorem gettotalAnswersTotal : Obligations.GettotalAnswersTotal := by
  intro s hp hs
  rw [exec, execGettotal, whenAllowed_body _ (mem_ports_hcmd hp rfl) rfl (by simp [stateAllows, hs]), BitVec.ofNat_toNat]
  rfl

/-- Settles O26: the end of the session, then the response. -/
theorem finishEndsSession : Obligations.FinishEndsSession := by
  intro c s hp hs
  rw [exec, execFinish, whenAllowed_body _ (mem_ports_hcmd hp rfl) rfl (by simp [stateAllows, hs])]
  simp [endSession, State.respond, State.emit]

end Sys2Proof.Machine
end

section
/-! PROOFS. INIT with every event acknowledged (spec/42_line_fsm.md R103): the header is sent whole, and leaves PHASE and TAIL as
spec/41_vis_header.md R95 gives them. -/

namespace Sys2Proof.Machine

open Sys2Proof

/-! ## The events of a list of segments -/

@[simp] theorem sampleEvents_length (ws : List (BitVec 32)) (p : BitVec 32) : (sampleEvents ws p).length = ws.length := by
  induction ws generalizing p with
  | nil => rfl
  | cons w ws ih => exact congrArg (· + 1) (ih (p + w))

/-- Segments played one after the other are their tuning words, one for each sample (R75, R78). -/
theorem eventsOf_eq (l : List (BitVec 32 × BitVec 32)) (sr : BitVec 24) (p : BitVec 32) :
    eventsOf l sr p = sampleEvents (l.flatMap fun x => segmentWords x.1 x.2 sr) p := by
  induction l generalizing p with
  | nil => rfl
  | cons x rest ih =>
    obtain ⟨f, d⟩ := x
    rw [eventsOf, ih, toneEvents_eq, phaseAfter_eq, List.flatMap_cons, sampleEvents_append, segmentWords]

/-- The header of a code has HDRCNT samples (R94). -/
theorem eventsOf_header_length (v : BitVec 7) (sr : BitVec 24) (p : BitVec 32) :
    (eventsOf (headerSegments v) sr p).length = hdrcnt sr := by
  rw [eventsOf_eq, sampleEvents_length, List.length_flatMap, ← sum_nsamp_headerSegments v sr]
  simp only [segmentWords, List.length_replicate]

/-! ## PHASE after the header (R95) -/

/-- PHASE moves by the sum of the tuning words. -/
theorem phaseAlong_eq (ws : List (BitVec 32)) (p : BitVec 32) :
    phaseAlong ws p = p + BitVec.ofNat 32 (ws.map BitVec.toNat).sum := by
  induction ws generalizing p with
  | nil => simp [phaseAlong]
  | cons w ws ih =>
    have hcons : phaseAlong (w :: ws) p = phaseAlong ws (p + w) := rfl
    rw [hcons, ih, List.map_cons, List.sum_cons, BitVec.ofNat_add, BitVec.ofNat_toNat, BitVec.setWidth_eq, BitVec.add_assoc]

/-- The tuning words of segments sum up to FTW times the number of samples, segment by segment. -/
theorem sum_segmentWords (l : List (BitVec 32 × BitVec 32)) (sr : BitVec 24) :
    ((l.flatMap fun x => segmentWords x.1 x.2 sr).map BitVec.toNat).sum =
      (l.map fun x => nsamp x.2 sr * (ftw x.1 sr).toNat).sum := by
  induction l with
  | nil => rfl
  | cons x rest ih =>
    rw [List.flatMap_cons, List.map_append, List.sum_append, ih, segmentWords, List.map_replicate, List.sum_replicate, smul_eq_mul,
      List.map_cons, List.sum_cons]

/-- The seven bits of a code and its parity: what the tones of segments 4 to 11 tell (R90, R91). -/
def headerBits (v : BitVec 7) : List Bool := (List.range 7).map v.getLsbD ++ [parity v]

theorem headerSegments_eq (v : BitVec 7) : headerSegments v =
    [(0x076C0000, ms300), (0x04B00000, ms10), (0x076C0000, ms300), (0x04B00000, ms30)] ++
      (headerBits v).map (fun b => (bitF b, ms30)) ++ [(0x04B00000, ms30)] := rfl

/-- R95's `k` is the number of ones among them. -/
theorem count_true_headerBits (v : BitVec 7) : (headerBits v).count true = lowTones v := by
  cases hp : parity v <;> simp [headerBits, lowTones, onesOf, List.count, List.countP_map, Function.comp_def, hp]

theorem count_false_headerBits (v : BitVec 7) : (headerBits v).count false = 8 - lowTones v := by
  have hcount := List.count_false_add_count_true (headerBits v)
  have hlength : (headerBits v).length = 8 := rfl
  rw [count_true_headerBits] at hcount
  omega

/-- The bit tones are 1100 Hz for each one and 1300 Hz for each zero (R91). -/
theorem sum_bitTones (bs : List Bool) (w : BitVec 32 → Nat) :
    (bs.map fun b => w (bitF b)).sum = bs.count true * w 0x044C0000 + bs.count false * w 0x05140000 := by
  induction bs with
  | nil => simp
  | cons b bs ih =>
    rw [List.map_cons, List.sum_cons, ih]
    cases b with
    | false =>
      rw [List.count_cons_self, List.count_cons_of_ne (by decide), show bitF false = 0x05140000 from rfl]
      ring
    | true =>
      rw [List.count_cons_self, List.count_cons_of_ne (by decide), show bitF true = 0x044C0000 from rfl]
      ring

/-- R95's sum: each segment counts `n` of its duration times `w` of its tone. -/
theorem sum_headerSegments (v : BitVec 7) (n w : BitVec 32 → Nat) :
    ((headerSegments v).map fun x => n x.2 * w x.1).sum =
      2 * n ms300 * w 0x076C0000 + (n ms10 + 2 * n ms30) * w 0x04B00000 +
        lowTones v * n ms30 * w 0x044C0000 + (8 - lowTones v) * n ms30 * w 0x05140000 := by
  have hbits := sum_bitTones (headerBits v) fun f => n ms30 * w f
  rw [count_true_headerBits, count_false_headerBits] at hbits
  rw [headerSegments_eq]
  simp only [List.map_append, List.sum_append, List.map_map, Function.comp_def, hbits, List.map_cons, List.map_nil, List.sum_cons,
    List.sum_nil]
  ring

/-- PHASE after the tuning words of the header is R95's. -/
theorem phaseAlong_header (v : BitVec 7) (sr : BitVec 24) : phaseAlong (headerWords v sr) 0 = headerPhase v sr := by
  rw [phaseAlong_eq, headerWords, sum_segmentWords, sum_headerSegments v (fun d => nsamp d sr) fun f => (ftw f sr).toNat]
  exact BitVec.zero_add _

/-! ## The header with every sample acknowledged -/

/-- A segment whose samples are all answered ACK ends with its residual in TAIL (R75). -/
theorem toneSeg_ack (f d : BitVec 32) (s : State) (rest : List Answer)
    (h : s.sinkAnswers = List.replicate (nsamp d s.srate) .ack ++ rest) :
    ∃ t, toneSeg f d s = .done t ∧ t.sinkAnswers = rest ∧ t.tail = s.tail + BitVec.ofInt 64 (res d s.srate) :=
  ⟨_, samples_ack _ (loadSegment f d s) rest ((loadSegment_sinkAnswers s f d).trans h), rfl, loadSegment_tail s f d⟩

/-- The segments of a table, all of whose samples are answered ACK: TAIL collects their residuals (R78, R93). -/
theorem segmentsFrom_ack (k : Nat) (table : List (HeaderTone × BitVec 32)) (s : State) (rest : List Answer)
    (h : s.sinkAnswers = List.replicate (table.map fun x => nsamp x.2 s.srate).sum .ack ++ rest) :
    ∃ t, segmentsFrom k table s = .done t ∧ t.sinkAnswers = rest ∧
      t.tail = s.tail + BitVec.ofInt 64 (table.map fun x => res x.2 s.srate).sum := by
  induction table generalizing k s with
  | nil => exact ⟨s, rfl, h, by simp⟩
  | cons x table ih =>
    rw [List.map_cons, List.sum_cons, ← List.replicate_append_replicate, List.append_assoc] at h
    obtain ⟨u, hu, hans, htail⟩ :=
      toneSeg_ack (toneOf x.1 s.vis (parityAt x.1 s.vis s.par)) x.2 (enterSegment k x.1 s) _ h
    have hframe := toneSeg_frame (toneOf x.1 s.vis (parityAt x.1 s.vis s.par)) x.2 (enterSegment k x.1 s)
    rw [hu, SinkRun.carries_done] at hframe
    have hrate : u.srate = s.srate := hframe.kept.1
    obtain ⟨t, ht, htans, httail⟩ := ih (k + 1) u (by rw [hans, hrate])
    refine ⟨t, ?_, htans, ?_⟩
    · rw [segmentsFrom, enterSegment_vis, enterSegment_par, hu, SinkRun.done_andThen, ht]
    · rw [httail, htail, hrate, List.map_cons, List.sum_cons, BitVec.ofInt_add, BitVec.add_assoc, enterSegment_tail,
        enterSegment_srate]

/-- The thirteen durations of the table: two of 300 ms, one of 10 ms and ten of 30 ms (R90). -/
theorem sum_headerTable {R : Type} [CommSemiring R] (r : BitVec 32 → R) :
    (headerTable.map fun x => r x.2).sum = 2 * r ms300 + r ms10 + 10 * r ms30 := by
  simp only [headerTable, List.map_cons, List.map_nil, List.sum_cons, List.sum_nil]
  ring

/-- WRITE_HEADER with HDRCNT samples answered ACK (R93, R95): it ends, with the events and PHASE of its tuning words. -/
theorem writeHeader_ack (s : State) (rest : List Answer)
    (h : s.sinkAnswers = List.replicate (hdrcnt s.srate) .ack ++ rest) :
    ∃ t, writeHeader s = .done t ∧ t = { s with
      phase := phaseAlong (headerWords s.vis s.srate) s.phase
      tail := s.tail + headerTail s.srate
      hstep := t.hstep
      par := t.par
      segcnt := t.segcnt
      segftw := t.segftw
      sinkAnswers := rest
      out := s.out ++ eventsOf (headerSegments s.vis) s.srate s.phase } := by
  rw [hdrcnt, ← sum_headerTable fun d => nsamp d s.srate] at h
  obtain ⟨t, ht, hans, htail⟩ : ∃ t, writeHeader s = .done t ∧ _ :=
    segmentsFrom_ack 0 headerTable { s with par := false } rest h
  have hwrote := writeHeader_writes s
  have hframe := writeHeader_frame s
  rw [ht] at hwrote hframe
  obtain ⟨hout, hphase⟩ := hwrote
  have hsame := hframe.same
  rw [hans, htail, hout, hphase, sum_headerTable fun d => res d s.srate] at hsame
  rw [headerTail, eventsOf_eq]
  exact ⟨t, ht, hsame⟩

/-- Settles O18: SINK_INIT is answered, the header runs to its end from PHASE 0 and TAIL 0, and the response follows. -/
theorem initSendsTheHeader : Obligations.InitSendsTheHeader := by
  intro s rest hp hc hr ha
  have hfirst : (initAnnounced s).sinkAnswers = .ack :: (List.replicate (hdrcnt s.srate) .ack ++ rest) := by
    rw [show (initAnnounced s).sinkAnswers = s.sinkAnswers from rfl, ha, Nat.add_comm, List.replicate_succ, List.cons_append]
  obtain ⟨t, ht, hsame⟩ :=
    writeHeader_ack { initAnnounced s with sinkAnswers := List.replicate (hdrcnt s.srate) .ack ++ rest } rest rfl
  refine ⟨finishInit t, ?_, ?_, eventsOf_header_length _ _ _⟩
  · rw [exec_init_created hp hc hr, takeAnswer_ack hfirst, SinkRun.done_mark, SinkRun.done_andThen, headerOfInit, ht]
    rfl
  · have hphase : phaseAlong (headerWords s.vis s.srate) 0#32 = headerPhase s.vis s.srate := phaseAlong_header _ _
    rw [hsame]
    simp [finishInit, State.respond, State.emit, initAnnounced, initSession, totalOf, hphase]

end Sys2Proof.Machine
end

section
/-! PROOFS. The transitions of a session (spec/42_line_fsm.md R113): every step moves SSTATE, ROW and ROWBUSY along one line of the
table, and the configuration only as a session begins. -/

namespace Sys2Proof.Machine

open Sys2Proof

/-! ## The table -/

/-- The registers R113's table speaks of, and the configuration of the session (spec/10_state.md R15 to R20). -/
structure SessionRegs where
  sstate : SState
  rowbusy : Bool
  row : BitVec 16
  srate : BitVec 24
  vis : BitVec 7
  height : BitVec 16

/-- What `s` shows of them. -/
def State.session (s : State) : SessionRegs := ⟨s.sstate, s.rowbusy, s.row, s.srate, s.vis, s.height⟩

/-- One line of R113's table, from `r`: what the line does not name stays. -/
inductive SessionMove (r : SessionRegs) : SessionRegs → Prop where
  | stays : SessionMove r r
  | creates (sr : BitVec 24) (v : BitVec 7) (h : BitVec 16) : r.sstate = .idle → r.rowbusy = false →
      SessionMove r { r with sstate := .created, row := 0, srate := sr, vis := v, height := h }
  | activates : r.sstate = .created → r.row = 0 → r.rowbusy = false → SessionMove r { r with sstate := .active }
  | opensRow : r.sstate = .active → r.row < r.height → r.rowbusy = false → SessionMove r { r with rowbusy := true }
  | closesRow : r.sstate = .active → r.row < r.height → r.rowbusy = true →
      SessionMove r { r with row := r.row + 1, rowbusy := false }
  | ends : r.sstate ≠ .idle → SessionMove r { r with sstate := .idle, rowbusy := false }

/-! ## What leaves the session registers alone -/

@[simp] theorem respond_session (s : State) (p : Port) (rc : RC) (v : BitVec 64) : (s.respond p rc v).session = s.session := rfl

@[simp] theorem setWait_session (s : State) (w : Wait) : (s.setWait w).session = s.session := rfl

theorem SinkFrame.session_eq {s t : State} (h : SinkFrame s t) : t.session = s.session := by
  rw [h.same]; rfl

theorem accept_session {s t : State} {w : CmdWord} (ha : accept s = some (w, t)) : t.session = s.session := by
  rcases accept_cases ha with ⟨_, _, e⟩ | ⟨_, e⟩
  all_goals rw [e]; rfl

/-- SINK_INIT is announced with ROW 0, which a created session already has (R24 item 4, R103). -/
theorem initAnnounced_session {s : State} (h : s.row = 0) : (initAnnounced s).session = s.session := by
  simp [State.session, initAnnounced, h]

theorem sinkAbort_session (s : State) : (sinkAbort s).session = { s.session with sstate := .idle, rowbusy := false } := by
  rw [sinkAbort_eq]; rfl

/-! ## Commands that talk to the sink -/

/-- However a command of a session ends at the sink, it moves along the table if `finish` does. -/
theorem SinkEnd.sessionMove {u t : State} {finish : State → State} {w : Wait} {r : Result} (h : SinkEnd u finish w r)
    (hr : r = .next t) (hu : u.sstate ≠ .idle)
    (hf : ∀ v, v.session = u.session → SessionMove u.session (finish v).session) : SessionMove u.session t.session := by
  obtain ⟨v, hv, ht⟩ := h.next_cases hr
  have hsame := hv.session_eq
  rcases ht with rfl | rfl | rfl
  · exact hf v hsame
  · rw [sinkAbort_session, hsame]
    exact .ends hu
  · rw [setWait_session, hsame]
    exact .stays

/-- INIT goes to ACTIVE, stays CREATED while it waits, or ends the session (R103). -/
theorem InitRuns.sessionMove {u t : State} {w : Wait} {r : Result} (h : InitRuns u) (he : SinkEnd u Machine.finishInit w r)
    (hr : r = .next t) : SessionMove u.session t.session := by
  refine he.sessionMove hr (by simp [h.sstate]) fun v hv => ?_
  have hfinish : (Machine.finishInit v).session = { v.session with sstate := .active } := rfl
  rw [hfinish, hv]
  exact .activates h.sstate h.row h.rowbusy

/-- A tone moves nothing, or its failure ends the session (R76, R77, R132). -/
theorem SessionInv.toneMove {u t : State} {x : BitVec 64} {w : Wait} {r : Result} (h : SessionInv u) (hb : u.rowbusy = true)
    (he : SinkEnd u (fun v => v.respond .scmd .ok x) w r) (hr : r = .next t) : SessionMove u.session t.session := by
  refine he.sessionMove hr (by simp [(h.rowOpen hb).1]) fun v hv => ?_
  rw [respond_session, hv]
  exact .stays

/-! ## Commands -/

/-- PROCESS arrives on HCMD, which is served only between rows (R104, spec/20_memory.md R32). -/
theorem execProcess_sessionMove {s t : State} (hp : s.port = .hcmd → s.rowbusy = false) (he : execProcess s = .next t) :
    SessionMove s.session t.session := by
  rcases execProcess_cases s with e | e | ⟨_, _, _, e⟩ | ⟨hport, ha, hlt, e⟩
  · cases e.symm.trans he; exact .stays
  · cases e.symm.trans he; exact .stays
  · cases e.symm.trans he; exact .stays
  · cases e.symm.trans he
    exact .opensRow ha (BitVec.not_le.mp hlt) (hp hport)

/-- Every command moves along the table, from a sound state in which none waits and in which HCMD is served only between rows. -/
theorem exec_sessionMove {i : Instr} {s t : State} (h : SessionInv s) (hw : s.wait = .none)
    (hp : s.port = .hcmd → s.rowbusy = false) (he : exec i s = .next t) : SessionMove s.session t.session := by
  by_cases hi : i = .process
  · subst hi
    exact execProcess_sessionMove hp he
  · have ht := exec_sessionInv h hw hp he
    cases he ▸ exec_end i s with
    | responds _ _ _ => exact .stays
    | creates a hidle => exact .creates _ _ _ hidle (h.rowbusy_of_not_active (by simp [hidle]))
    | opensRow _ => exact absurd rfl hi
    | closesRow hb =>
      obtain ⟨ha, hlt⟩ := h.rowOpen hb
      exact .closesRow ha hlt hb
    | finishes c hs =>
      have hb : s.rowbusy = false := ht.rowbusy_of_not_active (by simp)
      have hend : ((endSession c s).respond .hcmd .ok 0).session = { s.session with sstate := .idle, rowbusy := false } := by
        simp [State.session, hb]
      exact hend ▸ .ends hs
    | announces hc =>
      rw [setWait_session, initAnnounced_session (h.created hc hw).1]
      exact .stays
    | sendsHeader hc hend =>
      have hmove := (initRuns_initAnnounced h hc (h.srate_of_created hc) hw).sessionMove hend rfl
      rwa [initAnnounced_session (h.created hc hw).1] at hmove
    | tones _ hb _ hend => exact h.toneMove hb hend rfl

/-- Going on with a command that waited moves along the table (spec/20_memory.md R33). -/
theorem resumeCommand_sessionMove {s t : State} (h : SessionInv s) (he : resumeCommand s = .next t) :
    SessionMove s.session t.session := by
  rcases resumeCommand_cases s with ⟨_, e⟩ | ⟨_, _, e⟩ | ⟨hw, _, hend | ⟨_, _, e⟩⟩ | ⟨hw, hend⟩ | ⟨n, hw, hend⟩
  · cases e.symm.trans he; exact .stays
  · cases e.symm.trans he
  · exact (h.initRuns hw).sessionMove hend he
  · cases e.symm.trans he; exact .stays
  · have hb := h.toneWaits (by simp [hw]) (by simp [hw]) (by simp [hw])
    exact SessionInv.toneMove (u := s.setWait .none) (x := 1) (h.toneResumes hb) hb hend he
  · have hb := h.toneWaits (by simp [hw]) (by simp [hw]) (by simp [hw])
    exact SessionInv.toneMove (u := s.setWait .none) (x := n.setWidth 64) (h.toneResumes hb) hb hend he

/-! ## Steps -/

/-- A step without RESET, from a sound state, moves along the table. -/
theorem step_sessionMove {s t : State} (h : SessionInv s) (hr : s.pinReset = false) (hstep : step s = .next t) :
    SessionMove s.session t.session := by
  rcases step_cases hstep with ⟨hr', _⟩ | ⟨_, _, _, e⟩ | ⟨_, _, _, e⟩ | ⟨_, _, _, e⟩ | ⟨w, u, _, _, _, ha, _, e⟩ |
    ⟨w, u, i, _, hw, ha, _, e⟩
  · simp [hr] at hr'
  · cases e; exact .stays
  · exact resumeCommand_sessionMove h e.symm
  · cases e; exact .stays
  · cases e
    rw [respond_session, accept_session ha]
    exact .stays
  · obtain ⟨hu, huw, hup⟩ := accept_sessionInv h hw ha
    rw [← accept_session ha]
    exact exec_sessionMove hu huw hup e.symm

/-- Settles O58: each line of the table is one of the cases; ROW + 1 does not wrap, because the row was below HEIGHT. -/
theorem sessionTransitions : Obligations.SessionTransitions := by
  intro s t h hr hstep
  have hmove := step_sessionMove h hr hstep
  generalize ht : t.session = r at hmove
  cases hmove
  all_goals
    simp only [State.session, SessionRegs.mk.injEq] at ht
    obtain ⟨hs, hb, hrow, hconfig⟩ := ht
  case stays => exact ⟨.inl ⟨hs, hrow, hb⟩, fun _ => hconfig⟩
  case creates hidle hfree => exact ⟨.inr (.inl ⟨hidle, hs, hrow, hb.trans hfree⟩), fun hn => absurd ⟨hidle, hs⟩ hn⟩
  case activates hc hzero hfree =>
    exact ⟨.inr (.inr (.inl ⟨hc, hs, hrow.trans hzero, hb.trans hfree⟩)), fun _ => hconfig⟩
  case opensRow ha hlt hfree =>
    exact ⟨.inr (.inr (.inr (.inl ⟨ha, hs.trans ha, hlt, hrow, hfree, hb⟩))), fun _ => hconfig⟩
  case closesRow ha hlt hbusy =>
    have hnext : t.row.toNat = s.row.toNat + 1 := by
      have hlt' : s.row < s.height := hlt
      bv_omega
    exact ⟨.inr (.inr (.inr (.inr (.inl ⟨ha, hs.trans ha, hnext, hbusy, hb⟩)))), fun _ => hconfig⟩
  case ends hsession => exact ⟨.inr (.inr (.inr (.inr (.inr ⟨hsession, hs, hrow, hb⟩)))), fun _ => hconfig⟩

end Sys2Proof.Machine
end

section
/-! PROOFS. The colour mapper (spec/43_mapper_debug.md R120, R121): FREQOF answers in every state, and its values rise evenly. -/

namespace Sys2Proof.Machine

open Sys2Proof

/-! ## The command (R120) -/

theorem freqof_mem_ports (a : BitVec 32) (p : Port) : p ∈ (Instr.freqof a).ports := by
  cases p <;> simp [Instr.ports, Instr.row]

/-- An operand out of range is reported before the state is looked at (spec/60_exceptions.md R136). -/
theorem whenAllowed_badOperand {i : Instr} {s : State} (body : State → Result) (hp : s.port ∈ i.ports)
    (hb : badOperand i = true) : whenAllowed i s body = .next (s.respond s.port .illegalCommand 0) := by
  rw [whenAllowed, if_neg (not_not_intro hp), if_pos hb, raise]

/-- FREQOF of a channel value needs no state. -/
theorem execFreqof_ok {a : BitVec 32} (s : State) (ha : a.toNat ≤ 255) :
    exec (.freqof a) s = .next (s.respond s.port .ok (BitVec.ofNat 64 (freqOf a.toNat))) := by
  have hb : badOperand (.freqof a) = false := by simp [badOperand, ha]
  rw [exec, execFreqof, whenAllowed_body _ (freqof_mem_ports a s.port) hb rfl]

/-- FREQOF above 255 is ILLEGAL_COMMAND whatever the state. -/
theorem execFreqof_bad {a : BitVec 32} (s : State) (ha : 255 < a.toNat) :
    exec (.freqof a) s = .next (s.respond s.port .illegalCommand 0) := by
  have hb : badOperand (.freqof a) = true := by simp [badOperand, ha]
  rw [exec, execFreqof, whenAllowed_badOperand _ (freqof_mem_ports a s.port) hb]

/-- Settles O28: FREQOF is refused above 255 only, and its value is the rounded quotient of R120. -/
theorem freqofAnswersFrequency : Obligations.FreqofAnswersFrequency := by
  intro a s
  refine ⟨fun ha => ?_, execFreqof_bad s⟩
  rw [execFreqof_ok s ha, freqOf, rhu, Nat.add_comm 255]
  rfl

/-! ## The values (R121) -/

/-- The exact step is 205603 and 35 / 255 units, and the two roundings move it by less than one unit. -/
theorem freqOf_succ (c : Nat) : freqOf (c + 1) = freqOf c + 205603 ∨ freqOf (c + 1) = freqOf c + 205604 := by
  obtain ⟨hle, hlt⟩ := rhu_bounds (c * 52428800) (d := 255) (by decide)
  obtain ⟨hle', hlt'⟩ := rhu_bounds ((c + 1) * 52428800) (d := 255) (by decide)
  rw [freqOf, freqOf]
  omega

/-- Settles O29: the end points are whole units, and every step is even up to the rounding. -/
theorem freqofIsIncreasing : Obligations.FreqofIsIncreasing :=
  ⟨by decide, by decide, fun c _ => freqOf_succ c⟩

end Sys2Proof.Machine
end

section
/-! PROOFS. The errors that end a command (spec/60_exceptions.md): an invalid configuration changes nothing (R131), and a sink event
answered FAIL is the command's last before the abort (R132). -/

namespace Sys2Proof.Machine

open Sys2Proof

/-! ## CREATE (R131) -/

/-- Settles O17: the configuration is checked before anything is written. -/
theorem createInvalidConfiguration : Obligations.CreateInvalidConfiguration := by
  intro a s hp hs hbad
  rw [exec, execCreate, whenAllowed_body _ (mem_ports_hcmd hp rfl) rfl (by simp [stateAllows, hs]), if_pos hbad, raise]
  simp [State.respond, State.emit, hp]

/-! ## The tones (R132) -/

/-- Settles O32: PHASE has advanced by the sample that fails, and the row is open. -/
theorem tone1FailureAborts : Obligations.Tone1FailureAborts := by
  intro f s rest hp hb hr ha
  rw [execTone1_in_row hp hb hr, sample_fail _ ha, SinkRun.failed_mark, SinkRun.failed_settle, sinkAbort_eq]
  simp [hb]

/-- A segment whose sample at place `k` is answered FAIL writes `k + 1` samples, its residual already in TAIL (R75). -/
theorem toneSeg_fail (f d : BitVec 32) (k : Nat) (s : State) (rest : List Answer) (hk : k < nsamp d s.srate)
    (h : s.sinkAnswers = List.replicate k .ack ++ .fail :: rest) :
    ∃ t, toneSeg f d s = .failed t ∧ t = { s with
      phase := phaseAfter (k + 1) (ftw f s.srate) s.phase
      tail := s.tail + BitVec.ofInt 64 (res d s.srate)
      segcnt := t.segcnt
      segftw := t.segftw
      sinkAnswers := rest
      out := s.out ++ toneEvents (k + 1) (ftw f s.srate) s.phase } := by
  refine ⟨_, samples_fail _ k (loadSegment f d s) rest hk ((loadSegment_sinkAnswers s f d).trans h), ?_⟩
  simp

/-- Settles O33: the segment fails at sample `k + 1`, and the row is open. -/
theorem toneFailureAborts : Obligations.ToneFailureAborts := by
  intro f d s k rest hp hb hr hk ha
  obtain ⟨u, hu, hsame⟩ := toneSeg_fail f d k s rest hk ha
  have hbusy : u.rowbusy = true := by rw [hsame]; exact hb
  refine ⟨sinkAbort u, ?_, ?_⟩
  · rw [execTone_in_row hp hb hr, hu]
    rfl
  · rw [sinkAbort_of_rowbusy u hbusy, hsame]
    simp [phaseAfter]

/-! ## The header (R93, R132) -/

/-- The samples of the first tuning words are the first samples. -/
theorem sampleEvents_of_prefix {vs ws : List (BitVec 32)} (h : vs <+: ws) (p : BitVec 32) :
    sampleEvents vs p = (sampleEvents ws p).take vs.length := by
  obtain ⟨us, rfl⟩ := h
  rw [sampleEvents_append, List.take_left' (sampleEvents_length vs p)]

/-- A table of segments fails at the sample answered FAIL, wherever it stands: the `j` samples before it and it are written. -/
theorem segmentsFrom_fail (k j : Nat) (table : List (HeaderTone × BitVec 32)) (s : State) (rest : List Answer)
    (hj : j < (table.map fun x => nsamp x.2 s.srate).sum) (h : s.sinkAnswers = List.replicate j .ack ++ .fail :: rest) :
    ∃ t, segmentsFrom k table s = .failed t ∧ t.sinkAnswers = rest ∧ t.out.length = s.out.length + (j + 1) := by
  induction table generalizing k j s with
  | nil => simp at hj
  | cons x table ih =>
    rw [List.map_cons, List.sum_cons] at hj
    rw [segmentsFrom, enterSegment_vis, enterSegment_par]
    generalize toneOf x.1 s.vis (parityAt x.1 s.vis s.par) = f
    by_cases hfirst : j < nsamp x.2 s.srate
    · obtain ⟨t, ht, hsame⟩ := toneSeg_fail f x.2 j (enterSegment k x.1 s) rest hfirst h
      refine ⟨t, by rw [ht, SinkRun.failed_andThen], by rw [hsame], ?_⟩
      rw [hsame]
      simp
    · obtain ⟨i, rfl⟩ := Nat.exists_eq_add_of_le (Nat.le_of_not_lt hfirst)
      rw [← List.replicate_append_replicate, List.append_assoc] at h
      obtain ⟨u, hu, hans, -⟩ := toneSeg_ack f x.2 (enterSegment k x.1 s) _ h
      have hframe := toneSeg_frame f x.2 (enterSegment k x.1 s)
      have hwrote := toneSeg_writes f x.2 (enterSegment k x.1 s)
      rw [hu] at hframe hwrote
      have hrate : u.srate = s.srate := hframe.kept.1
      have hlength : u.out.length = s.out.length + nsamp x.2 s.srate := by simp [hwrote.1, segmentWords]
      obtain ⟨t, ht, htans, htlength⟩ := ih (k + 1) i u (by rw [hrate]; omega) hans
      exact ⟨t, by rw [hu, SinkRun.done_andThen, ht], htans, by omega⟩

/-- WRITE_HEADER whose sample at place `k` is answered FAIL: that sample is the last (R93). -/
theorem writeHeader_fail (k : Nat) (s : State) (rest : List Answer) (hk : k < hdrcnt s.srate)
    (h : s.sinkAnswers = List.replicate k .ack ++ .fail :: rest) :
    ∃ t, writeHeader s = .failed t ∧ t = { s with
      phase := t.phase
      tail := t.tail
      hstep := t.hstep
      par := t.par
      segcnt := t.segcnt
      segftw := t.segftw
      sinkAnswers := rest
      out := s.out ++ (eventsOf (headerSegments s.vis) s.srate s.phase).take (k + 1) } := by
  rw [hdrcnt, ← sum_headerTable fun d => nsamp d s.srate] at hk
  obtain ⟨t, ht, hans, hlength⟩ : ∃ t, writeHeader s = .failed t ∧ _ :=
    segmentsFrom_fail 0 k headerTable { s with par := false } rest hk h
  have hwrites := writeHeader_writes s
  have hframe := writeHeader_frame s
  rw [ht] at hwrites hframe
  obtain ⟨vs, hvs, hout, -⟩ := hwrites
  have hcount : vs.length = k + 1 := by simpa [hout] using hlength
  have hsame := hframe.same
  rw [hans, hout, sampleEvents_of_prefix hvs, hcount, headerWords, ← eventsOf_eq] at hsame
  exact ⟨t, ht, hsame⟩

/-! ## INIT (R103, R132) -/

/-- Settles O19: SINK_INIT is answered FAIL, and no row is open. -/
theorem initRefusedBySink : Obligations.InitRefusedBySink := by
  intro s rest hp hc hr hb ha
  have hfirst : (initAnnounced s).sinkAnswers = .fail :: rest := ha
  rw [exec_init_created hp hc hr, takeAnswer_fail hfirst, SinkRun.failed_mark, SinkRun.failed_andThen, SinkRun.failed_settle,
    sinkAbort_eq]
  simp [hb, initAnnounced, initSession, State.emit, totalOf]

/-- Settles O20: SINK_INIT is answered ACK, the header fails at sample `k + 1`, and no row is open. -/
theorem headerFailureAborts : Obligations.HeaderFailureAborts := by
  intro s k rest hp hc hr hb hk ha
  have hfirst : (initAnnounced s).sinkAnswers = .ack :: (List.replicate k .ack ++ .fail :: rest) := by
    rw [show (initAnnounced s).sinkAnswers = s.sinkAnswers from rfl, ha, Nat.add_comm, List.replicate_succ, List.cons_append]
  obtain ⟨u, hu, hsame⟩ :=
    writeHeader_fail k { initAnnounced s with sinkAnswers := List.replicate k .ack ++ .fail :: rest } rest hk rfl
  have hidle : u.rowbusy = false := by rw [hsame]; exact hb
  refine ⟨sinkAbort u, ?_, ?_⟩
  · rw [exec_init_created hp hc hr, takeAnswer_ack hfirst, SinkRun.done_mark, SinkRun.done_andThen, headerOfInit, hu]
    rfl
  · rw [sinkAbort_of_not_rowbusy u hidle, hsame]
    simp [initAnnounced, initSession, State.emit, totalOf]

end Sys2Proof.Machine
end

section
/-! PROOFS. The end of a session (spec/70_reset_and_hazards.md R164): only FINISH and the abort procedure lead out of a session, each
with the events that close its trace as the last ones, and an idle state that meets the invariant has nothing in progress. -/

namespace Sys2Proof.Machine

open Sys2Proof

/-! ## Nothing in progress -/

/-- An INIT that waits has a created session, and a tone that waits has an open row, so an idle state has neither. -/
theorem SessionInv.nothing_in_progress {s : State} (h : SessionInv s) (hi : s.sstate = .idle) :
    s.rowbusy = false ∧ s.wait = .none := by
  have hb : s.rowbusy = false := h.rowbusy_of_not_active (by simp [hi])
  have hinit : ¬(s.wait = .sinkInit ∨ s.wait = .header) := fun hw => by
    simpa [hi] using (h.initWaits hw).1
  obtain ⟨hsink, hheader⟩ := not_or.mp hinit
  refine ⟨hb, ?_⟩
  by_contra hw
  simpa [hb] using h.toneWaits hw hsink hheader

/-! ## The closed trace -/

/-- The trace ends with the session's last events: those of a FINISH, or those of the abort procedure. -/
def TraceClosed (s : State) : Prop :=
  (∃ c, [.sinkFinish c, .imgRelease, .hrsp .ok 0] <:+ s.out) ∨
    [.sinkFinish true, .imgRelease, .hrsp .sinkFailure 0] <:+ s.out

/-- FINISH closes the trace (R109). -/
theorem finish_traceClosed (c : Bool) (s : State) : TraceClosed ((endSession c s).respond .hcmd .ok 0) :=
  .inl ⟨c, s.out, by simp [rspEvent]⟩

/-- The abort procedure closes the trace, whether or not a row was open (R132). -/
theorem sinkAbort_traceClosed (s : State) : TraceClosed (sinkAbort s) := by
  rw [sinkAbort_eq]
  exact .inr (List.suffix_append _ _)

/-! ## Going from a session to IDLE -/

/-- If `s` is in a session and `t` is not, the trace of `t` is closed. -/
def EndsClosed (s t : State) : Prop := s.sstate ≠ .idle → t.sstate = .idle → TraceClosed t

theorem EndsClosed.of_sstate {s t : State} (h : t.sstate = s.sstate) : EndsClosed s t :=
  fun hs ht => absurd (h.symm.trans ht) hs

/-- A command at the sink ends the session only by the abort, if `finish` stays in it. -/
theorem SinkEnd.endsClosed {u t : State} {finish : State → State} {w : Wait} {r : Result} (h : SinkEnd u finish w r)
    (hr : r = .next t) (hf : ∀ v, v.sstate ≠ .idle → (finish v).sstate ≠ .idle) : EndsClosed u t := by
  obtain ⟨v, hv, ht⟩ := h.next_cases hr
  have hsame : v.sstate = u.sstate := by rw [hv.same]
  rcases ht with rfl | rfl | rfl
  · exact fun hu hidle => absurd hidle (hf v (hsame ▸ hu))
  · exact fun _ _ => sinkAbort_traceClosed v
  · exact .of_sstate hsame

theorem finishInit_not_idle (v : State) : (finishInit v).sstate ≠ .idle := by
  simp [(finishInit_active v).1]

/-- Of the commands only FINISH leads to IDLE, but for the abort of one that talks to the sink. -/
theorem exec_endsClosed {i : Instr} {s t : State} (he : exec i s = .next t) : EndsClosed s t := by
  cases he ▸ exec_end i s with
  | responds _ _ _ => exact .of_sstate rfl
  | creates _ hidle => exact fun hs => absurd hidle hs
  | opensRow _ => exact .of_sstate rfl
  | closesRow _ => exact .of_sstate rfl
  | finishes c _ => exact fun _ _ => finish_traceClosed c s
  | announces _ => exact .of_sstate rfl
  | sendsHeader _ hend => exact hend.endsClosed rfl fun v _ => finishInit_not_idle v
  | tones _ _ _ hend => exact hend.endsClosed rfl fun _ hv => hv

/-- A command that waited and goes on leads to IDLE only by its abort. -/
theorem resumeCommand_endsClosed {s t : State} (he : resumeCommand s = .next t) : EndsClosed s t := by
  rcases resumeCommand_cases s with ⟨_, e⟩ | ⟨_, _, e⟩ | ⟨_, _, hend | ⟨_, _, e⟩⟩ | ⟨_, hend⟩ | ⟨_, _, hend⟩
  · cases e.symm.trans he; exact .of_sstate rfl
  · cases e.symm.trans he
  · exact hend.endsClosed he fun v _ => finishInit_not_idle v
  · cases e.symm.trans he; exact .of_sstate rfl
  · exact hend.endsClosed he fun _ hv => hv
  · exact hend.endsClosed he fun _ hv => hv

theorem accept_sstate {s t : State} {w : CmdWord} (ha : accept s = some (w, t)) : t.sstate = s.sstate :=
  congrArg SessionRegs.sstate (accept_session ha)

/-- With RESET released, a step that leads from a session to IDLE closes the trace. -/
theorem step_endsClosed {s t : State} (hr : s.pinReset = false) (hstep : step s = .next t) : EndsClosed s t := by
  rcases step_cases hstep with ⟨hr', _⟩ | ⟨_, _, _, e⟩ | ⟨_, _, _, e⟩ | ⟨_, _, _, e⟩ | ⟨w, u, _, _, _, ha, _, e⟩ |
    ⟨w, u, i, _, _, ha, _, e⟩
  · simp [hr] at hr'
  · cases e; exact .of_sstate rfl
  · exact resumeCommand_endsClosed e.symm
  · cases e; exact .of_sstate rfl
  · cases e; exact .of_sstate ((State.respond_sstate ..).trans (accept_sstate ha))
  · exact fun hs => exec_endsClosed e.symm (accept_sstate ha ▸ hs)

/-- Settles O57: the step closes the trace, and the idle state it leads to meets the invariant, so nothing is in progress there. -/
theorem sessionEndsWithRunOver : Obligations.SessionEndsWithRunOver := by
  intro s t h hr hstep hs ht
  obtain ⟨hb, hw⟩ := (stepKeepsSessionInvariant s t h hstep).nothing_in_progress ht
  exact ⟨ht, hb, hw, step_endsClosed hr hstep hs ht⟩

end Sys2Proof.Machine
end
